-- ==== Sys2Proof/Word.lean ====
section
/-! DEFINITION. The word types of the core (00_scope.md R12, 10_state.md R21, R22, R29). -/

namespace Sys2Proof

/-- One byte of a byte buffer (20_memory.md R50). -/
abbrev Byte := BitVec 8

/-- A scalar register, or one lane of a polynomial register (10_state.md R21, R22). -/
abbrev Word16 := BitVec 16

/-- A length register (10_state.md R25 to R27). -/
abbrev Word32 := BitVec 32

/-- A sponge lane, the norm accumulator, or the value a host move carries
(10_state.md R29, R31; 20_memory.md R57). -/
abbrev Word64 := BitVec 64

/-- A command word (30_encoding.md R70). -/
abbrev CommandWord := BitVec 16

end Sys2Proof
end

