-- ==== Sys2Proof/Syntax.lean ====
section
/-! DEFINITION. The commands: one constructor per row of spec/opcode_table.json (30_encoding.md R73). -/

namespace Sys2Proof

/-- The number of a polynomial register, `P0` to `P3` (10_state.md R22, R23). -/
abbrev PReg := Fin 4

/-- A command with its operands (30_encoding.md R72, R74). -/
inductive Instr where
  /-- `FADD` (40_field_arithmetic.md R97). -/
  | fadd
  /-- `FSUB` (R98). -/
  | fsub
  /-- `FMUL` (R99). -/
  | fmul
  /-- `FCTR` (R100). -/
  | fctr
  /-- `FCAN` (R101). -/
  | fcan
  /-- `NTTF rd` (41_ntt_engine.md R118). -/
  | nttf (rd : PReg)
  /-- `NTTI rd` (R119). -/
  | ntti (rd : PReg)
  /-- `NTTMUL rd, rs1, rs2` (R121). -/
  | nttmul (rd rs1 rs2 : PReg)
  /-- `PMUL rd, rs1, rs2` (42_pointwise.md R132). -/
  | pmul (rd rs1 rs2 : PReg)
  /-- `PSUB rd, rs1, rs2` (R133). -/
  | psub (rd rs1 rs2 : PReg)
  /-- `PCTR rd, rs1` (R134). -/
  | pctr (rd rs1 : PReg)
  /-- `PCAN rd, rs1` (R135). -/
  | pcan (rd rs1 : PReg)
  /-- `KECF` (43_sponge_keccak.md R152). -/
  | kecf
  /-- `SHINIT` (R153). -/
  | shinit
  /-- `SHABS sel` (R154). The selector is what stands in the two bits of the field `rs1`; only 0 (`SALT`) and
  1 (`MSG`) are well formed (30_encoding.md R75). -/
  | shabs (sel : Fin 4)
  /-- `SHFIN` (R156). -/
  | shfin
  /-- `SHSQZ` (R158). -/
  | shsqz
  /-- `H2P rd` (44_hash_to_point.md R173). -/
  | h2p (rd : PReg)
  /-- `PKDEC rd` (45_codec.md R184). -/
  | pkdec (rd : PReg)
  /-- `SIGDEC rd` (R195). -/
  | sigdec (rd : PReg)
  /-- `NORM rs1, rs2` (46_norm_check.md R213). -/
  | norm (rs1 rs2 : PReg)
  /-- `VERIFY` (47_verify_orchestrator.md R222). -/
  | verify
  deriving DecidableEq, Repr

end Sys2Proof
end

