-- ==== Sys2Proof/WellFormed.lean ====
section
/-! DEFINITION. Which instruction terms the encoding admits. Register numbers are legal by their type; the one
check left is the selector of `SHABS` (30_encoding.md R75: bit 11 of the word is zero). -/

namespace Sys2Proof

/-- The selector names a source (30_encoding.md R75). -/
def selectorLegal (sel : Fin 4) : Bool := decide (sel.val < 2)

/-- The term is one the encoding admits. -/
def Instr.wellFormed (i : Instr) : Bool :=
  match i with
  | .shabs sel => selectorLegal sel
  | .fadd => true
  | .fsub => true
  | .fmul => true
  | .fctr => true
  | .fcan => true
  | .nttf _ => true
  | .ntti _ => true
  | .nttmul _ _ _ => true
  | .pmul _ _ _ => true
  | .psub _ _ _ => true
  | .pctr _ _ => true
  | .pcan _ _ => true
  | .kecf => true
  | .shinit => true
  | .shfin => true
  | .shsqz => true
  | .h2p _ => true
  | .pkdec _ => true
  | .sigdec _ => true
  | .norm _ _ => true
  | .verify => true

end Sys2Proof
end

