-- ==== Sys2Proof/Decode.lean ====
section
/-! DEFINITION. The decoder (30_encoding.md R71 to R76), total on 16-bit words and rejecting by name, and after it
the encoder, written from the same tables. -/

namespace Sys2Proof

/-- Why a word is no command (30_encoding.md R76). -/
inductive DecodeError where
  /-- Bits 15 to 14 are not zero. -/
  | reservedBits
  /-- No row has this operation code. -/
  | unknownOp
  /-- A register field the command's format does not use is not zero. -/
  | unusedField
  deriving DecidableEq, Repr

/-- The operation code, bits 7 to 0 (R71). -/
def opField (w : CommandWord) : Nat := w.toNat % 256

/-- The destination register, bits 9 to 8 (R71). -/
def rdField (w : CommandWord) : Fin 4 := Fin.ofNat 4 (w.toNat / 256)

/-- The first source register, or the selector of `SHABS`, bits 11 to 10 (R71). -/
def rs1Field (w : CommandWord) : Fin 4 := Fin.ofNat 4 (w.toNat / 1024)

/-- The second source register, bits 13 to 12 (R71). -/
def rs2Field (w : CommandWord) : Fin 4 := Fin.ofNat 4 (w.toNat / 4096)

/-- The mask of each format of R72, with the values R73 prints. -/
def maskZ : CommandWord := 0xFFFF#16
/-- Format D uses `rd`. -/
def maskD : CommandWord := 0xFCFF#16
/-- Format DS uses `rd` and `rs1`. -/
def maskDS : CommandWord := 0xF0FF#16
/-- Format DSS uses all three register fields. -/
def maskDSS : CommandWord := 0xC0FF#16
/-- Format SS uses `rs1` and `rs2`. -/
def maskSS : CommandWord := 0xC3FF#16
/-- Format X uses bit 10 as a selector. -/
def maskX : CommandWord := 0xFBFF#16

/-- The row of the opcode map (R73) that an operation code names: its mask, and the command the operand fields of
the word give (R74). -/
def opRow (op : Nat) (w : CommandWord) : Option (CommandWord × Instr) :=
  match op with
  | 0x01 => some (maskZ, .fadd)
  | 0x02 => some (maskZ, .fsub)
  | 0x03 => some (maskZ, .fmul)
  | 0x04 => some (maskZ, .fctr)
  | 0x05 => some (maskZ, .fcan)
  | 0x10 => some (maskD, .nttf (rdField w))
  | 0x11 => some (maskD, .ntti (rdField w))
  | 0x12 => some (maskDSS, .nttmul (rdField w) (rs1Field w) (rs2Field w))
  | 0x20 => some (maskDSS, .pmul (rdField w) (rs1Field w) (rs2Field w))
  | 0x21 => some (maskDSS, .psub (rdField w) (rs1Field w) (rs2Field w))
  | 0x22 => some (maskDS, .pctr (rdField w) (rs1Field w))
  | 0x23 => some (maskDS, .pcan (rdField w) (rs1Field w))
  | 0x30 => some (maskZ, .kecf)
  | 0x31 => some (maskZ, .shinit)
  | 0x32 => some (maskX, .shabs (rs1Field w))
  | 0x33 => some (maskZ, .shfin)
  | 0x34 => some (maskZ, .shsqz)
  | 0x40 => some (maskD, .h2p (rdField w))
  | 0x50 => some (maskD, .pkdec (rdField w))
  | 0x51 => some (maskD, .sigdec (rdField w))
  | 0x60 => some (maskSS, .norm (rs1Field w) (rs2Field w))
  | 0x70 => some (maskZ, .verify)
  | _ => none

/-- The command of a word, or why there is none. A row matches when `(w and mask) = match`, and `match` is the
operation code alone in every row of R73. -/
def decode (w : CommandWord) : Except DecodeError Instr :=
  if w.toNat / 16384 ≠ 0 then .error .reservedBits
  else
    match opRow (opField w) w with
    | none => .error .unknownOp
    | some (mask, i) => if (w &&& mask).toNat = opField w then .ok i else .error .unusedField

/-- The decoder on an instruction numbered as spec/opcode_table.json numbers its bits: one 16-bit word, so that
`nbits` is 16 and the word is the number itself. -/
def decodeTableWord (nbits w : Nat) : Option Instr :=
  match decode (BitVec.ofNat 16 (w % 2 ^ nbits)) with
  | .ok i => some i
  | .error _ => none

/-- A word from its operation code and its three register fields (R71, R79). -/
def fieldsWord (op : Nat) (rd rs1 rs2 : Nat) : CommandWord :=
  BitVec.ofNat 16 (rs2 * 4096 + rs1 * 1024 + rd * 256 + op)

/-- The word of a command (R71 to R73). -/
def encode (i : Instr) : CommandWord :=
  match i with
  | .fadd => fieldsWord 0x01 0 0 0
  | .fsub => fieldsWord 0x02 0 0 0
  | .fmul => fieldsWord 0x03 0 0 0
  | .fctr => fieldsWord 0x04 0 0 0
  | .fcan => fieldsWord 0x05 0 0 0
  | .nttf rd => fieldsWord 0x10 rd 0 0
  | .ntti rd => fieldsWord 0x11 rd 0 0
  | .nttmul rd rs1 rs2 => fieldsWord 0x12 rd rs1 rs2
  | .pmul rd rs1 rs2 => fieldsWord 0x20 rd rs1 rs2
  | .psub rd rs1 rs2 => fieldsWord 0x21 rd rs1 rs2
  | .pctr rd rs1 => fieldsWord 0x22 rd rs1 0
  | .pcan rd rs1 => fieldsWord 0x23 rd rs1 0
  | .kecf => fieldsWord 0x30 0 0 0
  | .shinit => fieldsWord 0x31 0 0 0
  | .shabs sel => fieldsWord 0x32 0 sel 0
  | .shfin => fieldsWord 0x33 0 0 0
  | .shsqz => fieldsWord 0x34 0 0 0
  | .h2p rd => fieldsWord 0x40 rd 0 0
  | .pkdec rd => fieldsWord 0x50 rd 0 0
  | .sigdec rd => fieldsWord 0x51 rd 0 0
  | .norm rs1 rs2 => fieldsWord 0x60 0 rs1 rs2
  | .verify => fieldsWord 0x70 0 0 0

end Sys2Proof
end

