-- ==== Sys2Proof/Config.lean ====
section
/-! DEFINITION. The parameters of the hardware: the fixed ones of 00_scope.md R8 and R9, the type of the
named ones of R10, and the value the reset state takes for the open one. -/

namespace Sys2Proof.Config

/-- The modulus (00_scope.md R8). -/
@[simp] abbrev q : Nat := 12289

/-- Coefficients per polynomial (R8). -/
@[simp] abbrev n : Nat := 512

/-- Bytes of a public key (R8). -/
@[simp] abbrev pkLen : Nat := 897

/-- Bytes of a signature (R8). -/
@[simp] abbrev sigLen : Nat := 666

/-- Bytes of the salt (R8). -/
@[simp] abbrev saltLen : Nat := 40

/-- Bits of one packed public-key coefficient (R8). -/
@[simp] abbrev coefBits : Nat := 14

/-- Sponge lanes (R8). -/
@[simp] abbrev laneCount : Nat := 25

/-- Sponge rate in bytes (R8). -/
@[simp] abbrev rate : Nat := 136

/-- The greatest value of the centered range, `floor(q/2)` (R9). -/
@[simp] abbrev halfQ : Nat := 6144

/-- The largest multiple of `q` not exceeding `2^16` (R9). -/
@[simp] abbrev h2pLimit : Nat := 61445

/-- The first stream bit of the coefficient codes of a signature, `8 * 41` (R9; 45_codec.md R187). -/
@[simp] abbrev sigBodyBit : Nat := 328

/-- One past the last stream bit of a signature, `8 * 666` (45_codec.md R187). -/
@[simp] abbrev sigEndBit : Nat := 5328

/-- The inverse of 512 modulo `q` (R9). -/
@[simp] abbrev nInv : Nat := 12265

/-- The largest value the squared norm can take (R9). -/
@[simp] abbrev normMax : Nat := 38654705664

/-- The named parameters of 00_scope.md R10 that have a value there, gathered in one structure as D0 §9 asks. -/
structure Params where
  /-- `PSI`, a primitive 1024th root of unity modulo `q`. -/
  psi : Nat
  /-- `IPSI`, its inverse. -/
  ipsi : Nat
  /-- Header byte of a public key. -/
  pkHeader : Byte
  /-- Header byte of a signature. -/
  sigHeader : Byte
  /-- Width of the low-order field of a coefficient code. -/
  lowBits : Nat
  /-- The longest legal run of zeros in a coefficient code. -/
  unaryMax : Nat
  /-- The largest legal magnitude of a signature coefficient. -/
  magMax : Nat
  /-- Whether the code of minus zero is refused. -/
  rejectNegZero : Bool
  /-- The largest accepted squared norm. -/
  bound : Nat
  /-- The suffix byte of the sponge's padding. -/
  dSuffix : Byte
  deriving DecidableEq, Repr

/-- DESIGN CHOICE (log 6, unsafe): the capacity of `MSGBUF` that `State.reset` takes. 00_scope.md R10 leaves
`MSG_MAX` open ("the model takes it as an argument"); the machine reads it from the field `msgMax` of State,
which statements leave free. -/
def msgMax : Nat := 4096

end Sys2Proof.Config
end

