-- ==== Sys2Proof/Machine/State.lean ====
section
/-! DEFINITION. The state of the core as plain data (10_state.md), the host moves (20_memory.md R59), the reasons a
step can stop, and the state after reset (10_state.md R39). -/

namespace Sys2Proof.Machine

/-- A polynomial register: 512 lanes of 16 bits, two's complement, lane `i` the coefficient of `x^i` (R22). -/
abbrev Poly := Vector Word16 512

/-- The marks of a polynomial register: lane `i` has been written since reset (70_reset_and_hazards.md R262). -/
abbrev LaneMarks := Vector Bool 512

/-- The 25 sponge lanes, `KS[x + 5*y]` at column `x`, row `y` (R29). -/
abbrev Lanes := Vector Word64 25

/-- The contents of one byte space (20_memory.md R50): (index, byte) pairs, indexes strictly rising. An index that is
not listed has never been written (70_reset_and_hazards.md R262) and reads as no value. -/
abbrev Memory := List Host.Cell

/-- The byte spaces (20_memory.md R50). -/
inductive ByteSpace where
  /-- The public-key bytes (10_state.md R25). -/
  | pkbuf
  /-- The signature bytes (R26). -/
  | sigbuf
  /-- The message bytes (R27). -/
  | msgbuf
  /-- The salt (R28). -/
  | salt
  deriving DecidableEq, Repr

/-- `KMODE` (10_state.md R29, 43_sponge_keccak.md R150): 0 absorbing, 1 squeezing. -/
inductive SpongeMode where
  /-- Input bytes may be absorbed. -/
  | absorbing
  /-- Output bytes may be extracted. -/
  | squeezing
  deriving DecidableEq, Repr

/-- The error kinds of 60_exceptions.md R240, in the order of their codes 0 to 11. The codes 12 to 255 of `ERR` are
never written and this type excludes them (93_implementation_defined.md U5; log 8). -/
inductive ErrorKind where
  /-- Code 0: no error. -/
  | ok
  /-- Code 1. -/
  | badLength
  /-- Code 2. -/
  | badHeader
  /-- Code 3. -/
  | badCoefficient
  /-- Code 4. -/
  | codecDesync
  /-- Code 5. -/
  | codecOverflow
  /-- Code 6. -/
  | verificationFailed
  /-- Code 7. -/
  | internalBoundExceeded
  /-- Code 8. -/
  | illegalCommand
  /-- Code 9. -/
  | operandRange
  /-- Code 10. -/
  | spongeMode
  /-- Code 11. -/
  | lengthRange
  deriving DecidableEq, Repr

/-- The named locations a host move can reach (20_memory.md R50, 10_state.md R42). An index is a number that the move
may give out of range. -/
inductive Loc where
  /-- `A`. -/
  | a
  /-- `B`. -/
  | b
  /-- `R`. -/
  | r
  /-- `P[k][i]`. -/
  | p (k : PReg) (i : Nat)
  /-- One byte of a buffer. -/
  | byte (sp : ByteSpace) (i : Nat)
  /-- `PKLEN`. -/
  | pklen
  /-- `SIGLEN`. -/
  | siglen
  /-- `MLEN`. -/
  | mlen
  /-- `KS[j]`. -/
  | ks (j : Nat)
  /-- `KCUR`. -/
  | kcur
  /-- `KMODE`. -/
  | kmode
  /-- `BYTEIX`. -/
  | byteix
  /-- `BITOFF`. -/
  | bitoff
  /-- `NORMSQ`. -/
  | normsq
  /-- `ST`. -/
  | st
  /-- `ACCEPT`. -/
  | accept
  /-- `ERR`. -/
  | err
  /-- `PHASE`. -/
  | phase
  deriving DecidableEq, Repr

/-- What the world outside can do to the core: the three host moves of 20_memory.md R59 and the reset input of
70_reset_and_hazards.md R260. -/
inductive HostMove where
  /-- `HostCmd(w)`. -/
  | cmd (w : CommandWord)
  /-- `HostWrite(loc, v)`. -/
  | write (loc : Loc) (v : Word64)
  /-- `HostRead(loc)`. -/
  | read (loc : Loc)
  /-- The reset input is applied. -/
  | reset
  deriving DecidableEq, Repr

/-- The state of one core (10_state.md), and after it three fields of the model's own. -/
structure State where
  /-- `A` (R21). -/
  a : Word16
  /-- `B` (R21). -/
  b : Word16
  /-- `R` (R21). -/
  r : Word16
  /-- `P[0..3]`, also `H`, `S2`, `C`, `T` (R22, R23). -/
  p : Vector Poly 4
  /-- The "never written" marks of the lanes of `P[0..3]`: true once written (70_reset_and_hazards.md R262). -/
  pWritten : Vector LaneMarks 4
  /-- `PKBUF` (R25). -/
  pkbuf : Memory
  /-- `SIGBUF` (R26). -/
  sigbuf : Memory
  /-- `MSGBUF` (R27). -/
  msgbuf : Memory
  /-- `SALT` (R28). -/
  salt : Memory
  /-- `PKLEN` (R25). -/
  pklen : Word32
  /-- `SIGLEN` (R26). -/
  siglen : Word32
  /-- `MLEN` (R27). -/
  mlen : Word32
  /-- `KS[0..24]` (R29). -/
  ks : Lanes
  /-- `KCUR`, `0 .. 136`; 137 to 255 are excluded (R29, U5). -/
  kcur : Fin 137
  /-- `KMODE` (R29). -/
  kmode : SpongeMode
  /-- `BYTEIX` (R30). -/
  byteix : BitVec 16
  /-- `BITOFF` (R30). -/
  bitoff : BitVec 3
  /-- `NORMSQ` (R31). -/
  normsq : Word64
  /-- `ST.busy` (R32). -/
  busy : Bool
  /-- `ST.done` (R32). -/
  done : Bool
  /-- `ACCEPT` (R33). -/
  accept : Bool
  /-- `ERR` (R34). -/
  err : ErrorKind
  /-- `PHASE`, `0 .. 6`; 7 to 15 are excluded (R35, U5). -/
  phase : Fin 7
  /-- The model's own: `MSG_MAX`, the open parameter of 00_scope.md R10; nothing changes it (log 6). -/
  msgMax : Nat
  /-- The model's own: the host moves still to be made, the next one first (20_memory.md R61; log 3). -/
  moves : List HostMove
  /-- The model's own: the values `HostRead` has returned, the latest first (20_memory.md R59; log 4). -/
  returned : List Word64
  deriving DecidableEq, Repr

/-- The machine stops with a fault. -/
inductive Fault where
  /-- Raised by `H2P`, and by `VERIFY` in its step 3: the sponge stream never yields 512 accepted chunks, so the command
  does not complete (44_hash_to_point.md R172, U4: `stuck`). Safe: it is raised only where no number of further chunks
  would end the loop (log 7). -/
  | sampleNeverEnds
  deriving DecidableEq, Repr

/-- The model gives the step no meaning. -/
inductive Refusal where
  /-- Raised by an arm of `exec` whose command has no meaning yet. Safe. No arm raises it. -/
  | notModelled (mnemonic : String)
  /-- Raised by `PKDEC`, `SIGDEC`, `SHABS`, `VERIFY` and by `HostRead`: a byte of a buffer is read that nothing has
  written since reset (70_reset_and_hazards.md R262, U1). Safe. -/
  | neverWritten (sp : ByteSpace)
  /-- Raised by `HostRead` and `HostWrite`: the index is outside the space (20_memory.md R58, U6). Safe. -/
  | indexOutOfRange
  /-- Raised by `HostWrite`, and by `HostRead` of anything but `ST`, while `ST.busy = 1`
  (70_reset_and_hazards.md R266, U2). Safe. -/
  | hostMoveWhileBusy
  deriving DecidableEq, Repr

/-- How a step, a command or a line of `VERIFY` ends. -/
abbrev Result := Host.Outcome State Fault Refusal

/-- The state after reset (10_state.md R39) of a core whose message buffer holds `msgMax` bytes. The polynomial lanes
are unspecified there and marked never written (70_reset_and_hazards.md R262); the bits they hold are taken to be 0 (DESIGN CHOICE,
log 1, unsafe). -/
def State.resetFor (msgMax : Nat) : State where
  a := 0
  b := 0
  r := 0
  p := Vector.replicate 4 (Vector.replicate 512 0)
  pWritten := Vector.replicate 4 (Vector.replicate 512 false)
  pkbuf := []
  sigbuf := []
  msgbuf := []
  salt := []
  pklen := 0
  siglen := 0
  mlen := 0
  ks := Vector.replicate 25 0
  kcur := 0
  kmode := .absorbing
  byteix := 0
  bitoff := 0
  normsq := 0
  busy := false
  done := false
  accept := false
  err := .ok
  phase := 0
  msgMax := msgMax
  moves := []
  returned := []

/-- The machine right after reset (10_state.md R39). -/
def State.reset : State := State.resetFor Config.msgMax

end Sys2Proof.Machine
end

