-- ==== Sys2Proof/Machine/Flags.lean ====
section
/-! DEFINITION. Every flag computation (10_state.md R32 to R34, R44): `ST.busy`, `ST.done`, `ACCEPT`, `KMODE`, and the
values the host reads for them. -/

namespace Sys2Proof.Machine

/-- The acceptance of a command: `ST.busy <- 1`, `ST.done <- 0` (30_encoding.md R70). -/
def acceptCommand (s : State) : State := { s with busy := true, done := false }

/-- The completion of a command: `ST.busy <- 0`, `ST.done <- 1` (30_encoding.md R70, 60_exceptions.md R241). -/
def finishCommand (s : State) : State := { s with busy := false, done := true }

/-- `ACCEPT <- v` (10_state.md R33). -/
def setAccept (v : Bool) (s : State) : State := { s with accept := v }

/-- `PHASE <- k` (10_state.md R35). -/
def setPhase (k : Fin 7) (s : State) : State := { s with phase := k }

/-- A flag as the number the host reads. -/
def flagValue (v : Bool) : Nat := if v then 1 else 0

/-- `ST` as the host reads it: bit 0 busy, bit 1 done, bits 7 to 2 zero (10_state.md R32). -/
def statusValue (s : State) : Nat := flagValue s.busy + 2 * flagValue s.done

/-- `KMODE` as the host reads it (10_state.md R29). -/
def SpongeMode.value (m : SpongeMode) : Nat :=
  match m with
  | .absorbing => 0
  | .squeezing => 1

/-- The code of an error kind, the value of `ERR` (60_exceptions.md R240). -/
def ErrorKind.code (k : ErrorKind) : Nat :=
  match k with
  | .ok => 0
  | .badLength => 1
  | .badHeader => 2
  | .badCoefficient => 3
  | .codecDesync => 4
  | .codecOverflow => 5
  | .verificationFailed => 6
  | .internalBoundExceeded => 7
  | .illegalCommand => 8
  | .operandRange => 9
  | .spongeMode => 10
  | .lengthRange => 11

end Sys2Proof.Machine
end

