-- ==== Sys2Proof/Machine/Tables.lean ====
section
/-! DEFINITION. The values of the named parameters (00_scope.md R10) and the read-only tables (10_state.md R37). -/

namespace Sys2Proof.Machine

/-- The values 00_scope.md R10 takes (log 12). -/
def params : Config.Params where
  psi := 49
  ipsi := 1254
  pkHeader := 0x09#8
  sigHeader := 0x39#8
  lowBits := 7
  unaryMax := 15
  magMax := 2047
  rejectNegZero := true
  bound := 34034726
  dSuffix := 0x1F#8

/-- The reversal of the low `k` bits of `i`; `brv9` is `bitReverse 9` (00_scope.md, glossary). -/
def bitReverse : Nat → Nat → Nat
  | 0, _ => 0
  | k + 1, i => (i % 2) * 2 ^ k + bitReverse k (i / 2)

/-- The table of the powers of a root in bit-reversed order (41_ntt_engine.md R112, R113). -/
def rootTable (root : Nat) : List Nat :=
  (List.range 512).map fun i => root ^ bitReverse 9 i % Config.q

/-- `TW[0..511]` (41_ntt_engine.md R112). -/
def tw : List Nat := rootTable params.psi

/-- `ITW[0..511]` (41_ntt_engine.md R113). -/
def itw : List Nat := rootTable params.ipsi

/-- `RC[0..23]`, the three columns of the table of 43_sponge_keccak.md R143, eight rounds each. -/
def roundConstants : List Word64 :=
  [0x0000000000000001#64, 0x0000000000008082#64, 0x800000000000808A#64, 0x8000000080008000#64,
   0x000000000000808B#64, 0x0000000080000001#64, 0x8000000080008081#64, 0x8000000000008009#64] ++
  [0x000000000000008A#64, 0x0000000000000088#64, 0x0000000080008009#64, 0x000000008000000A#64,
   0x000000008000808B#64, 0x800000000000008B#64, 0x8000000000008089#64, 0x8000000000008003#64] ++
  [0x8000000000008002#64, 0x8000000000000080#64, 0x000000000000800A#64, 0x800000008000000A#64,
   0x8000000080008081#64, 0x8000000000008080#64, 0x0000000080000001#64, 0x8000000080008008#64]

/-- `RHO[0..24]`, one row `y` of the table of 43_sponge_keccak.md R144 a line. -/
def rhoOffsets : List Nat :=
  [0, 1, 62, 28, 27] ++
  [36, 44, 6, 55, 20] ++
  [3, 10, 43, 25, 39] ++
  [41, 45, 15, 21, 8] ++
  [18, 2, 61, 56, 14]

/-- `PI[0..24]`: the lane at slot `j` moves to slot `PI[j]` (43_sponge_keccak.md R145). -/
def piSlots : List Nat :=
  [0, 10, 20, 5, 15, 16, 1, 11, 21, 6, 7, 17, 2, 12, 22, 23, 8, 18, 3, 13, 14, 24, 9, 19, 4]

end Sys2Proof.Machine
end

