-- ==== Sys2Proof/Machine/Ops.lean ====
section
/-! DEFINITION. The shared operations over vectors, memory and registers, and how a command ends: completion and
`raise Err(kind)` (60_exceptions.md R241), the core's whole exception mechanism. There is no return from one (R249). -/

namespace Sys2Proof.Machine

/-- A vector from a function of the index. -/
def tabulate {α : Type} (n : Nat) (f : Nat → α) : Vector α n :=
  ⟨⟨(List.range n).map f⟩, by simp⟩

/-- A vector of exactly `n` elements from a list: cut, or filled up with `d`. Every list the machine writes has the
length of its register (Laws), so nothing is ever cut or filled. -/
def fitVector {α : Type} (n : Nat) (d : α) (l : List α) : Vector α n :=
  ⟨⟨(l ++ List.replicate n d).take n⟩, by simp⟩

/-! ### Byte memory (20_memory.md R50, R51; 70_reset_and_hazards.md R262) -/

/-- The indexes of the list rise strictly, from `lo` on. -/
def Memory.sortedFrom : Nat → Memory → Bool
  | _, [] => true
  | lo, (x, _) :: rest => decide (lo ≤ x) && Memory.sortedFrom (x + 1) rest

/-- The canonical form: indexes strictly rising and inside a space of `size` bytes. No entry can equal what an unlisted
index reads as, since that is no value. -/
def Memory.wf (size : Nat) (m : Memory) : Bool :=
  Memory.sortedFrom 0 m && m.all fun cell => decide (cell.1 < size)

/-- What index `i` reads as: its byte, or no value where nothing has written it (R262; log 2). -/
def Memory.read : Memory → Nat → Option Byte
  | [], _ => none
  | (x, v) :: rest, i => if x = i then some v else Memory.read rest i

/-- Write one byte. -/
def Memory.write : Memory → Nat → Byte → Memory
  | [], i, b => [(i, b)]
  | (x, v) :: rest, i, b =>
    if i < x then (i, b) :: (x, v) :: rest
    else if i = x then (i, b) :: rest
    else (x, v) :: Memory.write rest i b

/-- The `k` bytes from index `i` on of a memory whose first listed index is at least `i`; none if one of them has never
been written. One pass over the list. -/
def Memory.scan : Memory → Nat → Nat → Option (List Byte)
  | _, _, 0 => some []
  | [], _, _ + 1 => none
  | (x, v) :: rest, i, k + 1 =>
    if x = i then (Memory.scan rest (i + 1) k).map (v :: ·) else none

/-- `MemRead((buf, 0), k)` (00_scope.md R13; in every use the index is 0, 20_memory.md R66). None if a byte of it has
never been written. -/
def memRead (m : Memory) (k : Nat) : Option (List Byte) := Memory.scan m 0 k

/-- `MemWrite((buf, i), k, bytes)` (00_scope.md R13). -/
def memWrite : Memory → Nat → List Byte → Memory
  | m, _, [] => m
  | m, i, v :: rest => memWrite (Memory.write m i v) (i + 1) rest

/-- The bytes a decoder reads: none at all when the declared length is not the fixed one (45_codec.md R182), else the
whole buffer, whatever the outcome (the strict reading of 70_reset_and_hazards.md R262). -/
def readDeclared (m : Memory) (declared fixed : Nat) : Option (List Byte) :=
  if declared = fixed then memRead m fixed else some []

/-- The contents of a byte space. -/
def State.space (s : State) (sp : ByteSpace) : Memory :=
  match sp with
  | .pkbuf => s.pkbuf
  | .sigbuf => s.sigbuf
  | .msgbuf => s.msgbuf
  | .salt => s.salt

/-- The state with new contents of a byte space. -/
def State.setSpace (s : State) (sp : ByteSpace) (m : Memory) : State :=
  match sp with
  | .pkbuf => { s with pkbuf := m }
  | .sigbuf => { s with sigbuf := m }
  | .msgbuf => { s with msgbuf := m }
  | .salt => { s with salt := m }

/-- The number of bytes of a byte space (20_memory.md R50). -/
def State.spaceSize (s : State) (sp : ByteSpace) : Nat :=
  match sp with
  | .pkbuf => Config.pkLen
  | .sigbuf => Config.sigLen
  | .msgbuf => s.msgMax
  | .salt => Config.saltLen

/-! ### Polynomial registers (10_state.md R22, 70_reset_and_hazards.md R262) -/

/-- The contents of polynomial register `k`. -/
def State.poly (s : State) (k : PReg) : Poly := s.p[k]

/-- A command writes the whole of polynomial register `k`; every lane is then written. -/
def writePoly (k : PReg) (v : Poly) (s : State) : State :=
  { s with p := s.p.set k v, pWritten := s.pWritten.set k (Vector.replicate 512 true) }

/-- The host writes one lane of polynomial register `k`. -/
def writeLane (k : PReg) (i : Fin 512) (v : Word16) (s : State) : State :=
  { s with p := s.p.set k (s.p[k].set i v), pWritten := s.pWritten.set k (s.pWritten[k].set i true) }

/-- Lanes from non-negative coefficients. -/
def polyOfNats (l : List Nat) : Poly := fitVector 512 0 (l.map (BitVec.ofNat 16))

/-- Lanes from signed coefficients, in two's complement. -/
def polyOfInts (l : List Int) : Poly := fitVector 512 0 (l.map (BitVec.ofInt 16))

/-! ### How a command ends -/

/-- The command completes without error: `ERR <- 0`, `ST.busy <- 0`, `ST.done <- 1` (30_encoding.md R70). -/
def complete (s : State) : State := finishCommand { s with err := .ok }

/-- `raise Err(kind)`: `ERR <- code(kind)`, `ST.busy <- 0`, `ST.done <- 1`, and nothing else
(60_exceptions.md R241). -/
def raise (k : ErrorKind) (s : State) : State := finishCommand { s with err := k }

/-- The action of an illegal word: accepted and completed with `IllegalCommand` (30_encoding.md R76). -/
def illegalCommand (s : State) : Result := .next (raise .illegalCommand s)

end Sys2Proof.Machine
end

