-- ==== Sys2Proof/Machine/Operands.lean ====
section
/-! DEFINITION. Every operand form: scalars (40_field_arithmetic.md R97 to R101), the lanes of a polynomial register with
the range a command requires (41_ntt_engine.md R116, 42_pointwise.md R131, 46_norm_check.md R213), and the byte source
of `SHABS` (30_encoding.md R75). -/

namespace Sys2Proof.Machine

/-- A scalar read as unsigned, if it is canonical (40_field_arithmetic.md R97). -/
def canonicalScalar (x : Word16) : Option Nat := if x.toNat < Config.q then some x.toNat else none

/-- `A` and `B` read as unsigned, if both are canonical (R97). -/
def scalarPair (s : State) : Option (Nat × Nat) :=
  match canonicalScalar s.a, canonicalScalar s.b with
  | some x, some y => some (x, y)
  | _, _ => none

/-- A scalar read as signed, if it is in `-12288 .. 12288` (R101). -/
def signedScalar (x : Word16) : Option Int :=
  if -(Config.q : Int) < x.toInt ∧ x.toInt < (Config.q : Int) then some x.toInt else none

/-- The lanes of a polynomial register, each read with `sext_16` (10_state.md R22). -/
def signedLanes (v : Poly) : List Int := v.toList.map BitVec.toInt

/-- Every value is in `lo .. hi`. -/
def lanesWithin (lo hi : Int) (l : List Int) : Bool := l.all fun v => decide (lo ≤ v) && decide (v ≤ hi)

/-- The signed lanes of a register, if every one of them is in `lo .. hi`. -/
def rangedLanes (lo hi : Int) (v : Poly) : Option (List Int) :=
  if lanesWithin lo hi (signedLanes v) then some (signedLanes v) else none

/-- The lanes of a canonical register, every lane in `0 .. 12288` (41_ntt_engine.md R116). -/
def canonicalLanes (v : Poly) : Option (List Nat) := (rangedLanes 0 12288 v).map fun l => l.map Int.toNat

/-- The lanes of two canonical registers (41_ntt_engine.md R121, 42_pointwise.md R131). -/
def canonicalPair (u v : Poly) : Option (List Nat × List Nat) :=
  match canonicalLanes u, canonicalLanes v with
  | some x, some y => some (x, y)
  | _, _ => none

/-- What `SHABS` finds at its selector. -/
inductive AbsorbSource where
  /-- The bytes to absorb. -/
  | bytes (l : List Byte)
  /-- The source ends the command with this error. -/
  | error (k : ErrorKind)
  /-- A byte of the source has never been written. -/
  | unwritten (sp : ByteSpace)
  deriving DecidableEq, Repr

/-- The first `k` bytes of a space, as a source. -/
def sourceBytes (s : State) (sp : ByteSpace) (k : Nat) : AbsorbSource :=
  match memRead (s.space sp) k with
  | some l => .bytes l
  | none => .unwritten sp

/-- The source a selector names: 0 the salt, 1 the message, whose length must fit the buffer (30_encoding.md R75,
43_sponge_keccak.md R154). No word decodes to another selector; one in a term is an illegal command
(60_exceptions.md R240, code 8; log 16). -/
def absorbSource (sel : Fin 4) (s : State) : AbsorbSource :=
  match sel.val with
  | 0 => sourceBytes s .salt Config.saltLen
  | 1 => if s.msgMax < s.mlen.toNat then .error .lengthRange else sourceBytes s .msgbuf s.mlen.toNat
  | _ => .error .illegalCommand

end Sys2Proof.Machine
end

