-- ==== Sys2Proof/Machine/Codec.lean ====
section
/-! DEFINITION. DEC, the decoders (45_codec.md): `PKDEC SIGDEC`. -/

namespace Sys2Proof.Machine

/-! ### Bits (20_memory.md R54, 45_codec.md R181) -/

/-- The bits of one byte in stream order, most significant first. -/
def byteBits (x : Byte) : List Bool := [x.getLsbD 7, x.getLsbD 6, x.getLsbD 5, x.getLsbD 4,
  x.getLsbD 3, x.getLsbD 2, x.getLsbD 1, x.getLsbD 0]

/-- The bit stream of a byte buffer (R54): element `p` is `bit(B, p)`. -/
def streamBits (bytes : List Byte) : List Bool := bytes.flatMap byteBits

/-- The value of a field, first bit read most significant (R54). -/
def fieldValue (bits : List Bool) : Nat := bits.foldl (fun v x => 2 * v + (if x then 1 else 0)) 0

/-! ### The public key -/

/-- The packed fields of a public key, `k` of them, from the bits that are left; none where one is not below `q`
(R183). -/
def keyFields : Nat → List Bool → Option (List Nat)
  | 0, _ => some []
  | k + 1, bits =>
    let v := fieldValue (bits.take Config.coefBits)
    if v < Config.q then (keyFields k (bits.drop Config.coefBits)).map (v :: ·) else none

/-- `decode_pk(len, B)` (R183). -/
def decodePk (prm : Config.Params) (len : Nat) (bytes : List Byte) : Except ErrorKind (List Nat) :=
  if len ≠ Config.pkLen then .error .badLength
  else if bytes.getD 0 0 ≠ prm.pkHeader then .error .badHeader
  else
    match keyFields Config.n (streamBits (bytes.drop 1)) with
    | none => .error .badCoefficient
    | some h => .ok h

/-- `PKDEC rd` (R184). -/
def execPkdec (rd : PReg) (s : State) : Result :=
  match readDeclared s.pkbuf s.pklen.toNat Config.pkLen with
  | none => .refused (.neverWritten .pkbuf)
  | some bytes =>
    match decodePk params s.pklen.toNat bytes with
    | .error k => .next (raise k s)
    | .ok h => .next (complete (writePoly rd (polyOfNats h) s))

/-! ### The signature -/

/-- A position in the stream with the bits from there on (R181: the cursor "passed into and returned from each decode
step"). -/
structure Cursor where
  /-- The stream position `p`. -/
  pos : Nat
  /-- The bits from `p` to the end of the buffer. -/
  rest : List Bool
  deriving DecidableEq, Repr

/-- A failure: its kind, and the position reached when it was found (R189). -/
abbrev DecodeFailure := ErrorKind × Nat

/-- `getbit` (R188): it fails at the end of the buffer. -/
def getBit (c : Cursor) : Except DecodeFailure (Bool × Cursor) :=
  match c.rest with
  | [] => .error (.codecDesync, c.pos)
  | x :: rest => .ok (x, ⟨c.pos + 1, rest⟩)

/-- `k` bits, read one by one into a value whose bits so far are `v`, high bit first (R189). -/
def getField : (k v : Nat) → Cursor → Except DecodeFailure (Nat × Cursor)
  | 0, v, c => .ok (v, c)
  | k + 1, v, c =>
    match getBit c with
    | .error e => .error e
    | .ok (x, c') => getField k (2 * v + (if x then 1 else 0)) c'

/-- The unary run from position `p` on, `k` zeros seen so far: the number of zeros and the cursor after the one that ends
them (R189, R190). -/
def unaryRun (maxRun : Nat) : (bits : List Bool) → (p k : Nat) → Except DecodeFailure (Nat × Cursor)
  | [], p, _ => .error (.codecDesync, p)
  | true :: rest, p, k => .ok (k, ⟨p + 1, rest⟩)
  | false :: rest, p, k =>
    if maxRun < k + 1 then .error (.internalBoundExceeded, p + 1) else unaryRun maxRun rest (p + 1) (k + 1)

/-- The checks on a decoded magnitude, and the coefficient (R189, R191, R192). -/
def signedCoefficient (prm : Config.Params) (negative : Bool) (m p : Nat) : Except DecodeFailure Int :=
  if prm.magMax < m then .error (.codecOverflow, p)
  else if prm.rejectNegZero && negative && decide (m = 0) then .error (.badCoefficient, p)
  else .ok (if negative then -(m : Int) else (m : Int))

/-- `decode_coeff` (R189). -/
def decodeCoeff (prm : Config.Params) (c : Cursor) : Except DecodeFailure (Int × Cursor) :=
  if Config.sigEndBit - c.pos < 1 + prm.lowBits then .error (.codecDesync, c.pos)
  else
    match getBit c with
    | .error e => .error e
    | .ok (negative, c1) =>
      match getField prm.lowBits 0 c1 with
      | .error e => .error e
      | .ok (low, c2) =>
        match unaryRun prm.unaryMax c2.rest c2.pos 0 with
        | .error e => .error e
        | .ok (k, c3) =>
          match signedCoefficient prm negative (low + 2 ^ prm.lowBits * k) c3.pos with
          | .error e => .error e
          | .ok v => .ok (v, c3)

/-- `k` coefficients in order (R194). -/
def decodeCoeffs (prm : Config.Params) : (k : Nat) → Cursor → Except DecodeFailure (List Int × Cursor)
  | 0, c => .ok ([], c)
  | k + 1, c =>
    match decodeCoeff prm c with
    | .error e => .error e
    | .ok (v, c1) =>
      match decodeCoeffs prm k c1 with
      | .error e => .error e
      | .ok (vs, c2) => .ok (v :: vs, c2)

/-- What a signature decodes to (R194). -/
structure DecodedSig where
  /-- The salt. -/
  salt : List Byte
  /-- The coefficients of `s2`. -/
  s2 : List Int
  /-- The position just after the last coefficient code. -/
  pos : Nat
  deriving DecidableEq, Repr

/-- `decode_sig(len, B)` (R194); the position of a failure as R196 says. -/
def decodeSig (prm : Config.Params) (len : Nat) (bytes : List Byte) : Except DecodeFailure DecodedSig :=
  if len ≠ Config.sigLen then .error (.badLength, 0)
  else if bytes.getD 0 0 ≠ prm.sigHeader then .error (.badHeader, 0)
  else
    match decodeCoeffs prm Config.n ⟨Config.sigBodyBit, streamBits (bytes.drop (1 + Config.saltLen))⟩ with
    | .error e => .error e
    | .ok (s2, c) =>
      if c.rest.any id then .error (.codecDesync, c.pos)
      else .ok ⟨(bytes.drop 1).take Config.saltLen, s2, c.pos⟩

/-- The cursor registers (R196). -/
def setCursor (p : Nat) (s : State) : State :=
  { s with byteix := BitVec.ofNat 16 (p / 8), bitoff := BitVec.ofNat 3 (p % 8) }

/-- `SIGDEC rd` (R195). -/
def execSigdec (rd : PReg) (s : State) : Result :=
  match readDeclared s.sigbuf s.siglen.toNat Config.sigLen with
  | none => .refused (.neverWritten .sigbuf)
  | some bytes =>
    match decodeSig params s.siglen.toNat bytes with
    | .error (k, p) => .next (raise k (setCursor p s))
    | .ok d =>
      .next (complete (writePoly rd (polyOfInts d.s2)
        { setCursor d.pos s with salt := memWrite s.salt 0 d.salt }))

end Sys2Proof.Machine
end

