-- ==== Sys2Proof/Machine/Sponge.lean ====
section
/-! DEFINITION. KEC, the sponge unit (43_sponge_keccak.md): the permutation, the sponge, and
`KECF SHINIT SHABS SHFIN SHSQZ`. -/

namespace Sys2Proof.Machine

/-! ### The permutation -/

/-- Element `j` of a list of lanes. Every index the rules use is in range; past the end the value is 0. -/
def laneAt : List Word64 → Nat → Word64
  | [], _ => 0
  | x :: _, 0 => x
  | _ :: rest, j + 1 => laneAt rest j

/-- Lane `j` of a sponge state. -/
def lane (v : Lanes) (j : Nat) : Word64 := laneAt v.toList j

/-- Left rotation (00_scope.md R12). -/
def rol64 (v : Word64) (k : Nat) : Word64 := v.rotateLeft k

/-- The parity of column `x` (R142). -/
def columnParity (v : Lanes) (x : Nat) : Word64 :=
  lane v x ^^^ lane v (x + 5) ^^^ lane v (x + 10) ^^^ lane v (x + 15) ^^^ lane v (x + 20)

/-- The column-parity diffusion step (R142). -/
def theta (v : Lanes) : Lanes :=
  let c := (List.range 5).map (columnParity v)
  let d := (List.range 5).map fun x => laneAt c ((x + 4) % 5) ^^^ rol64 (laneAt c ((x + 1) % 5)) 1
  tabulate 25 fun j => lane v j ^^^ laneAt d (j % 5)

/-- The rotation and repositioning steps: the lane that arrives at slot `i` comes from the slot `j` with `PI[j] = i` and is
rotated by `RHO[j]` (R146). -/
def piRho (v : Lanes) : Lanes :=
  tabulate 25 fun i => rol64 (lane v (piSlots.idxOf i)) (rhoOffsets.getD (piSlots.idxOf i) 0)

/-- The nonlinear mixing step, lane `j = x + 5*y` (R147). -/
def chi (v : Lanes) : Lanes :=
  tabulate 25 fun j =>
    lane v j ^^^ (~~~(lane v ((j + 1) % 5 + 5 * (j / 5))) &&& lane v ((j + 2) % 5 + 5 * (j / 5)))

/-- The round-constant step (R148). -/
def iota (rc : Word64) (v : Lanes) : Lanes :=
  tabulate 25 fun j => if j = 0 then lane v j ^^^ rc else lane v j

/-- One round (R141). -/
def keccakRound (rc : Word64) (v : Lanes) : Lanes := iota rc (chi (piRho (theta v)))

/-- The permutation, 24 rounds in order (R141). -/
def keccakF (v : Lanes) : Lanes := roundConstants.foldl (fun x rc => keccakRound rc x) v

/-! ### The sponge -/

/-- The lanes and the rate cursor (R151). -/
structure Sponge where
  /-- `KS`. -/
  ks : Lanes
  /-- `KCUR`. -/
  cur : Fin 137
  deriving DecidableEq, Repr

/-- The sponge of a state. -/
def State.sponge (s : State) : Sponge := ⟨s.ks, s.kcur⟩

/-- The state with another sponge. -/
def State.setSponge (s : State) (sp : Sponge) : State := { s with ks := sp.ks, kcur := sp.cur }

/-- State byte `k` (20_memory.md R55). -/
def stateByte (v : Lanes) (k : Nat) : Byte := (lane v (k / 8) >>> (8 * (k % 8))).setWidth 8

/-- `SB(k) <- SB(k) xor x` (20_memory.md R55). -/
def xorStateByte (v : Lanes) (k : Nat) (x : Byte) : Lanes :=
  tabulate 25 fun j => if j = k / 8 then lane v j ^^^ (x.setWidth 64 <<< (8 * (k % 8))) else lane v j

/-- `absorb_byte` (R151). -/
def absorbByte (sp : Sponge) (x : Byte) : Sponge :=
  let v := xorStateByte sp.ks sp.cur.val x
  if sp.cur.val + 1 = Config.rate then ⟨keccakF v, 0⟩ else ⟨v, Fin.ofNat 137 (sp.cur.val + 1)⟩

/-- `absorb` (R151). -/
def absorb (sp : Sponge) (bytes : List Byte) : Sponge := bytes.foldl absorbByte sp

/-- The padding of `finish` (R151, R157). -/
def finishSponge (sp : Sponge) : Sponge :=
  ⟨xorStateByte (xorStateByte sp.ks sp.cur.val params.dSuffix) (Config.rate - 1) 0x80#8, Fin.ofNat 137 Config.rate⟩

/-- The sponge with an output byte at its cursor: permuted first where the rate portion is exhausted (R151). -/
def refill (sp : Sponge) : Sponge := if sp.cur.val = Config.rate then ⟨keccakF sp.ks, 0⟩ else sp

/-- `squeeze_byte`: the byte, and the sponge after it (R151). -/
def squeezeByte (sp : Sponge) : Byte × Sponge :=
  let t := refill sp
  (stateByte t.ks t.cur.val, ⟨t.ks, Fin.ofNat 137 (t.cur.val + 1)⟩)

/-- The sponge `SHINIT` creates (R153). -/
def emptySponge : Sponge := ⟨Vector.replicate 25 0, 0⟩

/-! ### The commands -/

/-- `KECF` (R152). -/
def execKecf (s : State) : Result := .next (complete { s with ks := keccakF s.ks })

/-- `SHINIT` (R153). -/
def execShinit (s : State) : Result := .next (complete { s.setSponge emptySponge with kmode := .absorbing })

/-- `SHABS sel` (R154). An illegal selector is found when the word is decoded, before the mode is looked at
(60_exceptions.md R246). -/
def execShabs (sel : Fin 4) (s : State) : Result :=
  if selectorLegal sel = false then illegalCommand s
  else
    match s.kmode with
    | .squeezing => .next (raise .spongeMode s)
    | .absorbing =>
      match absorbSource sel s with
      | .error k => .next (raise k s)
      | .unwritten sp => .refused (.neverWritten sp)
      | .bytes l => .next (complete (s.setSponge (absorb s.sponge l)))

/-- `SHFIN` (R156). -/
def execShfin (s : State) : Result :=
  match s.kmode with
  | .squeezing => .next (raise .spongeMode s)
  | .absorbing => .next (complete { s.setSponge (finishSponge s.sponge) with kmode := .squeezing })

/-- `SHSQZ` (R158). -/
def execShsqz (s : State) : Result :=
  match s.kmode with
  | .absorbing => .next (raise .spongeMode s)
  | .squeezing =>
    let (x, sp) := squeezeByte s.sponge
    .next (complete { s.setSponge sp with r := x.setWidth 16 })

end Sys2Proof.Machine
end

