-- ==== Sys2Proof/Machine/HashToPoint.lean ====
section
/-! DEFINITION. H2P, the hash-to-point unit (44_hash_to_point.md): `H2P`. -/

namespace Sys2Proof.Machine

/-- The next 16-bit chunk of the stream, first byte high (20_memory.md R56, R170), and the sponge after it. -/
def nextChunk (sp : Sponge) : Nat × Sponge :=
  let (x, sp1) := squeezeByte sp
  let (y, sp2) := squeezeByte sp1
  (256 * x.toNat + y.toNat, sp2)

/-- The sampling loop of R170 over the stream of a sponge: `need` coefficients are still to be found, `acc` holds the ones
found, the latest first, and at most `fuel` chunks are looked at (R172). None where the fuel ends first. -/
def sample : (fuel need : Nat) → Sponge → List Nat → Option (List Nat × Sponge)
  | 0, 0, sp, acc => some (acc.reverse, sp)
  | 0, _ + 1, _, _ => none
  | _ + 1, 0, sp, acc => some (acc.reverse, sp)
  | fuel + 1, need + 1, sp, acc =>
    let (w, sp') := nextChunk sp
    if w < Config.h2pLimit then sample fuel need sp' (w % Config.q :: acc)
    else sample fuel (need + 1) sp' acc

/-- Enough fuel for every loop that ends (log 7): a sponge has `137 * 2^1600` values, so a longer run of rejected chunks
than that would repeat for ever, and `512 * 2^1608` chunks allow 512 runs of more than that length. -/
@[irreducible] def sampleFuel : Nat := 512 * 2 ^ 1608

/-- `H2P rd` (R173). -/
def execH2p (rd : PReg) (s : State) : Result :=
  match s.kmode with
  | .absorbing => .next (raise .spongeMode s)
  | .squeezing =>
    match sample sampleFuel Config.n s.sponge [] with
    | none => .fault .sampleNeverEnds
    | some (c, sp) => .next (complete (writePoly rd (polyOfNats c) (s.setSponge sp)))

end Sys2Proof.Machine
end

