-- ==== Sys2Proof/Machine/Norm.lean ====
section
/-! DEFINITION. NRM, the norm checker (46_norm_check.md): `NORM`. -/

namespace Sys2Proof.Machine

/-- The centered value of a lane in `-6144 .. 12288` (R210). R210 leaves it undefined outside that range; that the function is
total and gives `v` below and `v - 12289` above is the model's choice (DESIGN CHOICE, log 18), and `NORM` checks the range first, so that no
command reaches it there. -/
def cnorm (v : Int) : Int := if v ≤ Config.halfQ then v else v - Config.q

/-- The sum of the squares of the centered lanes of one polynomial (R211). -/
def squareSum (l : List Int) : Nat := l.foldl (fun t v => t + (cnorm v).natAbs ^ 2) 0

/-- `normsq(u, v)` (R211). -/
def normSquare (u v : List Int) : Nat := squareSum u + squareSum v

/-- The end of a `NORM` whose operands are in range: the sum, and accept or reject (R213, 60_exceptions.md R242). -/
def normResult (prm : Config.Params) (t : Nat) (s : State) : State :=
  let s' := { s with normsq := BitVec.ofNat 64 t }
  if t ≤ prm.bound then complete (setAccept true s') else raise .verificationFailed (setAccept false s')

/-- `NORM rs1, rs2` (R213). -/
def execNorm (rs1 rs2 : PReg) (s : State) : Result :=
  match rangedLanes (-6144) 12288 (s.poly rs1), rangedLanes (-6144) 12288 (s.poly rs2) with
  | some u, some v => .next (normResult params (normSquare u v) s)
  | _, _ => .next (raise .operandRange (setAccept false s))

end Sys2Proof.Machine
end

