-- ==== Sys2Proof/Machine/FieldUnit.lean ====
section
/-! DEFINITION. FA, the field unit (40_field_arithmetic.md): its five functions and `FADD FSUB FMUL FCTR FCAN`. -/

namespace Sys2Proof.Machine

/-- R91, on canonical arguments. -/
def fadd (x y : Nat) : Nat := (x + y) % Config.q

/-- R92, on canonical arguments: `(x - y) mod q`, kept non-negative by adding `q` first. -/
def fsub (x y : Nat) : Nat := (x + Config.q - y) % Config.q

/-- R93, on canonical arguments. -/
def fmul (x y : Nat) : Nat := (x * y) % Config.q

/-- R94, on a canonical argument. -/
def center (x : Nat) : Int := if x ≤ Config.halfQ then (x : Int) else (x : Int) - Config.q

/-- R95, on `-q < v < q`. -/
def canon (v : Int) : Nat := if 0 ≤ v then v.toNat else (v + Config.q).toNat

/-- A command of two canonical scalar operands (R97 to R99, R103). -/
def fieldBinary (f : Nat → Nat → Nat) (s : State) : Result :=
  match scalarPair s with
  | none => .next (raise .operandRange s)
  | some (x, y) => .next (complete { s with r := BitVec.ofNat 16 (f x y) })

/-- `FADD` (R97). -/
def execFadd (s : State) : Result := fieldBinary fadd s

/-- `FSUB` (R98). -/
def execFsub (s : State) : Result := fieldBinary fsub s

/-- `FMUL` (R99). -/
def execFmul (s : State) : Result := fieldBinary fmul s

/-- `FCTR` (R100). -/
def execFctr (s : State) : Result :=
  match canonicalScalar s.a with
  | none => .next (raise .operandRange s)
  | some x => .next (complete { s with r := BitVec.ofInt 16 (center x) })

/-- `FCAN` (R101). -/
def execFcan (s : State) : Result :=
  match signedScalar s.a with
  | none => .next (raise .operandRange s)
  | some v => .next (complete { s with r := BitVec.ofNat 16 (canon v) })

end Sys2Proof.Machine
end

