-- ==== Sys2Proof/Machine/NttEngine.lean ====
section
/-! DEFINITION. NTT, the transform engine (41_ntt_engine.md): `NTTF NTTI NTTMUL`. -/

namespace Sys2Proof.Machine

/-- One group of a forward stage: `2*ht` coefficients and one table entry `s` (R114). Lane `j` of the lower half becomes
`fadd(u, v)`, lane `j + ht` becomes `fsub(u, v)`, with `u = a[j]` and `v = fmul(a[j + ht], s)`. -/
def nttGroup (ht s : Nat) (g : List Nat) : List Nat :=
  let u := g.take ht
  let v := (g.drop ht).map fun w => fmul w s
  List.zipWith fadd u v ++ List.zipWith fsub u v

/-- One forward stage: successive groups of `2*ht` coefficients, one table entry each (R114). -/
def nttStage (ht : Nat) : List Nat → List Nat → List Nat
  | [], _ => []
  | s :: rest, a => nttGroup ht s (a.take (2 * ht)) ++ nttStage ht rest (a.drop (2 * ht))

/-- The forward stages in order: the number of groups `m` and half a group's length (R114). -/
def nttStages : List (Nat × Nat) :=
  [(1, 256), (2, 128), (4, 64), (8, 32), (16, 16), (32, 8), (64, 4), (128, 2), (256, 1)]

/-- The table entries `table[m .. 2m)` that a stage of `m` groups uses (R114, R115). -/
def stageEntries (table : List Nat) (m : Nat) : List Nat := (table.drop m).take m

/-- The forward transform of 512 canonical values (R114). -/
def ntt (a : List Nat) : List Nat :=
  nttStages.foldl (fun x st => nttStage st.2 (stageEntries tw st.1) x) a

/-- One group of an inverse stage: sum and difference first, then the difference is multiplied (R115). -/
def inttGroup (t s : Nat) (g : List Nat) : List Nat :=
  let u := g.take t
  let v := g.drop t
  List.zipWith fadd u v ++ (List.zipWith fsub u v).map fun w => fmul w s

/-- One inverse stage: successive groups of `2*t` coefficients, one table entry each (R115). -/
def inttStage (t : Nat) : List Nat → List Nat → List Nat
  | [], _ => []
  | s :: rest, a => inttGroup t s (a.take (2 * t)) ++ inttStage t rest (a.drop (2 * t))

/-- The inverse stages in order: the number of groups `hm` and half a group's length (R115). -/
def inttStages : List (Nat × Nat) :=
  [(256, 1), (128, 2), (64, 4), (32, 8), (16, 16), (8, 32), (4, 64), (2, 128), (1, 256)]

/-- The inverse transform of 512 canonical values, with the final scaling (R115). -/
def intt (a : List Nat) : List Nat :=
  (inttStages.foldl (fun x st => inttStage st.2 (stageEntries itw st.1) x) a).map fun w => fmul w Config.nInv

/-- The product in the ring of R110, as R120 computes it. -/
def mulring (a b : List Nat) : List Nat := intt (List.zipWith fmul (ntt a) (ntt b))

/-- A transform in place (R118, R119). -/
def transformInPlace (f : List Nat → List Nat) (rd : PReg) (s : State) : Result :=
  match canonicalLanes (s.poly rd) with
  | none => .next (raise .operandRange s)
  | some a => .next (complete (writePoly rd (polyOfNats (f a)) s))

/-- `NTTF rd` (R118). -/
def execNttf (rd : PReg) (s : State) : Result := transformInPlace ntt rd s

/-- `NTTI rd` (R119). -/
def execNtti (rd : PReg) (s : State) : Result := transformInPlace intt rd s

/-- A command of two canonical registers: the sources are read before the destination is written (R121,
42_pointwise.md R131). -/
def canonicalBinary (f : List Nat → List Nat → List Nat) (rd rs1 rs2 : PReg) (s : State) : Result :=
  match canonicalPair (s.poly rs1) (s.poly rs2) with
  | none => .next (raise .operandRange s)
  | some (a, b) => .next (complete (writePoly rd (polyOfNats (f a b)) s))

/-- `NTTMUL rd, rs1, rs2` (R121). -/
def execNttmul (rd rs1 rs2 : PReg) (s : State) : Result := canonicalBinary mulring rd rs1 rs2 s

end Sys2Proof.Machine
end

