-- ==== Sys2Proof/Machine/Pointwise.lean ====
section
/-! DEFINITION. PWM, the pointwise unit (42_pointwise.md): `PMUL PSUB PCTR PCAN`. -/

namespace Sys2Proof.Machine

/-- `PMUL rd, rs1, rs2` (R132). -/
def execPmul (rd rs1 rs2 : PReg) (s : State) : Result := canonicalBinary (List.zipWith fmul) rd rs1 rs2 s

/-- `PSUB rd, rs1, rs2` (R133): `P[rs1] - P[rs2]`. -/
def execPsub (rd rs1 rs2 : PReg) (s : State) : Result := canonicalBinary (List.zipWith fsub) rd rs1 rs2 s

/-- `PCTR rd, rs1` (R134). -/
def execPctr (rd rs1 : PReg) (s : State) : Result :=
  match canonicalLanes (s.poly rs1) with
  | none => .next (raise .operandRange s)
  | some a => .next (complete (writePoly rd (polyOfInts (a.map center)) s))

/-- `PCAN rd, rs1` (R135). -/
def execPcan (rd rs1 : PReg) (s : State) : Result :=
  match rangedLanes (-12288) 12288 (s.poly rs1) with
  | none => .next (raise .operandRange s)
  | some v => .next (complete (writePoly rd (polyOfNats (v.map canon)) s))

end Sys2Proof.Machine
end

