-- ==== Sys2Proof/Machine/Verify.lean ====
section
/-! DEFINITION. ORC, the verification orchestrator (47_verify_orchestrator.md): `VERIFY`. -/

namespace Sys2Proof.Machine

/-- The register aliases of 10_state.md R23. -/
abbrev regH : PReg := 0
/-- `S2 = P[1]`. -/
abbrev regS2 : PReg := 1
/-- `C = P[2]`. -/
abbrev regC : PReg := 2
/-- `T = P[3]`. -/
abbrev regT : PReg := 3

/-- The lines of R222 in order, each with the `PHASE` it runs in. -/
def verifyLines : List (Fin 7 × (State → Result)) :=
  [(1, execPkdec regH), (2, execSigdec regS2),
   (3, execShinit), (3, execShabs 0), (3, execShabs 1), (3, execShfin), (3, execH2p regC),
   (4, execPcan regT regS2), (4, execNttmul regT regT regH), (4, execPsub regT regC regT), (4, execPctr regT regT),
   (5, execNorm regT regS2)]

/-- Run lines until one ends with `ERR != 0`: then `PHASE` and `ERR` stay, and `ACCEPT <- 0`. After the last line with
`ERR = 0`, `PHASE <- 6` (R222). -/
def runLines : List (Fin 7 × (State → Result)) → State → Result
  | [], s => .next (setPhase 6 s)
  | (k, line) :: rest, s =>
    match line (setPhase k s) with
    | .next t => if t.err = .ok then runLines rest t else .next (setAccept false t)
    | .fault r => .fault r
    | .refused r => .refused r

/-- `VERIFY` (R222). -/
def execVerify (s : State) : Result := runLines verifyLines s

end Sys2Proof.Machine
end

