-- ==== Sys2Proof/Machine/Dispatch.lean ====
section
/-! DEFINITION. The dispatch: one arm per constructor of Instr. -/

namespace Sys2Proof.Machine

def exec (i : Instr) (s : State) : Host.Outcome State Fault Refusal :=
  match i with
  | .fadd => Sys2Proof.Machine.execFadd s
  | .fsub => Sys2Proof.Machine.execFsub s
  | .fmul => Sys2Proof.Machine.execFmul s
  | .fctr => Sys2Proof.Machine.execFctr s
  | .fcan => Sys2Proof.Machine.execFcan s
  | .nttf rd => Sys2Proof.Machine.execNttf rd s
  | .ntti rd => Sys2Proof.Machine.execNtti rd s
  | .nttmul rd rs1 rs2 => Sys2Proof.Machine.execNttmul rd rs1 rs2 s
  | .pmul rd rs1 rs2 => Sys2Proof.Machine.execPmul rd rs1 rs2 s
  | .psub rd rs1 rs2 => Sys2Proof.Machine.execPsub rd rs1 rs2 s
  | .pctr rd rs1 => Sys2Proof.Machine.execPctr rd rs1 s
  | .pcan rd rs1 => Sys2Proof.Machine.execPcan rd rs1 s
  | .kecf => Sys2Proof.Machine.execKecf s
  | .shinit => Sys2Proof.Machine.execShinit s
  | .shabs sel => Sys2Proof.Machine.execShabs sel s
  | .shfin => Sys2Proof.Machine.execShfin s
  | .shsqz => Sys2Proof.Machine.execShsqz s
  | .h2p rd => Sys2Proof.Machine.execH2p rd s
  | .pkdec rd => Sys2Proof.Machine.execPkdec rd s
  | .sigdec rd => Sys2Proof.Machine.execSigdec rd s
  | .norm rs1 rs2 => Sys2Proof.Machine.execNorm rs1 rs2 s
  | .verify => Sys2Proof.Machine.execVerify s

end Sys2Proof.Machine
end

