-- ==== Sys2Proof/Machine/HostPort.lean ====
section
/-! DEFINITION. What the outside world does to the core: `HostWrite`, `HostRead`, `HostCmd` (20_memory.md R59) and the
reset input (70_reset_and_hazards.md R260). -/

namespace Sys2Proof.Machine

/-- `HostWrite` of a byte of a buffer (R59): an index outside the space is refused (R58, U6; log 10). -/
def hostWriteByte (sp : ByteSpace) (i : Nat) (v : Byte) (s : State) : Result :=
  if i < s.spaceSize sp then .next (s.setSpace sp (Memory.write (s.space sp) i v)) else .refused .indexOutOfRange

/-- `HostWrite` of a polynomial lane (R59). -/
def hostWriteLane (k : PReg) (i : Nat) (v : Word16) (s : State) : Result :=
  if h : i < 512 then .next (writeLane k ⟨i, h⟩ v s) else .refused .indexOutOfRange

/-- `HostWrite` of a sponge lane (R59). -/
def hostWriteSponge (j : Nat) (v : Word64) (s : State) : Result :=
  if h : j < 25 then .next { s with ks := s.ks.set j v } else .refused .indexOutOfRange

/-- `HostWrite(loc, v)` while the core is idle: the low bits of the value that fit the element; a location that is read-only
to the host ignores it (R59, 10_state.md R42, U10). -/
def hostWrite (loc : Loc) (v : Word64) (s : State) : Result :=
  match loc with
  | .a => .next { s with a := v.setWidth 16 }
  | .b => .next { s with b := v.setWidth 16 }
  | .p k i => hostWriteLane k i (v.setWidth 16) s
  | .byte sp i => hostWriteByte sp i (v.setWidth 8) s
  | .pklen => .next { s with pklen := v.setWidth 32 }
  | .siglen => .next { s with siglen := v.setWidth 32 }
  | .mlen => .next { s with mlen := v.setWidth 32 }
  | .ks j => hostWriteSponge j v s
  | .r => .next s
  | .kcur => .next s
  | .kmode => .next s
  | .byteix => .next s
  | .bitoff => .next s
  | .normsq => .next s
  | .st => .next s
  | .accept => .next s
  | .err => .next s
  | .phase => .next s

/-- The host receives a value; the core does not change (R59, R60; log 4). -/
def deliver (v : Word64) (s : State) : Result := .next { s with returned := v :: s.returned }

/-- `HostRead` of a byte of a buffer: refused where the index is outside the space (R58, U6) or the byte has never been
written (70_reset_and_hazards.md R262, U1). -/
def hostReadByte (sp : ByteSpace) (i : Nat) (s : State) : Result :=
  if i < s.spaceSize sp then
    match Memory.read (s.space sp) i with
    | some v => deliver (v.setWidth 64) s
    | none => .refused (.neverWritten sp)
  else .refused .indexOutOfRange

/-- `HostRead(loc)` while the core is idle: the value of the element, zero-extended (R59; log 4). -/
def hostRead (loc : Loc) (s : State) : Result :=
  match loc with
  | .a => deliver (s.a.setWidth 64) s
  | .b => deliver (s.b.setWidth 64) s
  | .r => deliver (s.r.setWidth 64) s
  | .p k i => if h : i < 512 then deliver ((s.poly k)[i].setWidth 64) s else .refused .indexOutOfRange
  | .byte sp i => hostReadByte sp i s
  | .pklen => deliver (s.pklen.setWidth 64) s
  | .siglen => deliver (s.siglen.setWidth 64) s
  | .mlen => deliver (s.mlen.setWidth 64) s
  | .ks j => if h : j < 25 then deliver s.ks[j] s else .refused .indexOutOfRange
  | .kcur => deliver (BitVec.ofNat 64 s.kcur.val) s
  | .kmode => deliver (BitVec.ofNat 64 s.kmode.value) s
  | .byteix => deliver (s.byteix.setWidth 64) s
  | .bitoff => deliver (s.bitoff.setWidth 64) s
  | .normsq => deliver s.normsq s
  | .st => deliver (BitVec.ofNat 64 (statusValue s)) s
  | .accept => deliver (BitVec.ofNat 64 (flagValue s.accept)) s
  | .err => deliver (BitVec.ofNat 64 s.err.code) s
  | .phase => deliver (BitVec.ofNat 64 s.phase.val) s

/-- The core runs a command word: it accepts it, decodes it, and executes the command, or the illegal-command action
(30_encoding.md R70, R76). -/
def runWord (w : CommandWord) (s : State) : Result :=
  match decode w with
  | .ok i => exec i (acceptCommand s)
  | .error _ => illegalCommand (acceptCommand s)

/-- `HostCmd(w)`: while `ST.busy = 1` the word is dropped (70_reset_and_hazards.md R267). -/
def hostCmd (w : CommandWord) (s : State) : Result := if s.busy then .next s else runWord w s

/-- The reset input: every location of the core takes its reset value (70_reset_and_hazards.md R260). What is the host's, its
coming moves and the values it has read, and the size of the buffer stay (log 5). -/
def applyReset (s : State) : State :=
  { State.resetFor s.msgMax with moves := s.moves, returned := s.returned }

/-- One move of the outside world. While `ST.busy = 1` a host move other than `HostRead(ST)` and `HostCmd` has no meaning
(70_reset_and_hazards.md R266, U2; log 11). -/
def makeMove (m : HostMove) (s : State) : Result :=
  match m with
  | .cmd w => hostCmd w s
  | .write loc v => if s.busy then .refused .hostMoveWhileBusy else hostWrite loc v s
  | .read loc => if s.busy && decide (loc ≠ .st) then .refused .hostMoveWhileBusy else hostRead loc s
  | .reset => .next (applyReset s)

/-- The next host move is made; with none to make, the core is idle and holds its state (60_exceptions.md R255). -/
def takeMove (s : State) : Result :=
  match s.moves with
  | [] => .next s
  | m :: rest => makeMove m { s with moves := rest }

/-- The host is about to hand over the command word of these bits (log 17). -/
def offerWord (s : State) (nbits w : Nat) : State :=
  { s with busy := false, moves := .cmd (BitVec.ofNat 16 (w % 2 ^ nbits)) :: s.moves }

end Sys2Proof.Machine
end

