-- ==== Sys2Proof/Machine/Step.lean ====
section
/-! DEFINITION. One step of the machine: one host move, with the whole command it starts (92_eei_decisions.md D1). -/

namespace Sys2Proof.Machine

/-- One step: the next host move. -/
def step (s : State) : Host.Outcome State Fault Refusal := takeMove s

/-- The state in which the next step runs the command word whose bits are `w`. There is no instruction memory
(10_state.md R40): the host hands the word over (log 17). -/
def State.withFetchWord (s : State) (nbits w : Nat) : State := offerWord s nbits w

end Sys2Proof.Machine
end

