-- ==== Sys2Proof/Laws/State.lean ====
section
/-! SUPPORT. One lemma per field per update of State, each true by rfl, so that no proof unfolds a record update. -/

namespace Sys2Proof.Machine

/-! ### acceptCommand -/

@[simp] theorem acceptCommand_a (s : State) : (acceptCommand s).a = s.a := rfl
@[simp] theorem acceptCommand_b (s : State) : (acceptCommand s).b = s.b := rfl
@[simp] theorem acceptCommand_r (s : State) : (acceptCommand s).r = s.r := rfl
@[simp] theorem acceptCommand_p (s : State) : (acceptCommand s).p = s.p := rfl
@[simp] theorem acceptCommand_pWritten (s : State) : (acceptCommand s).pWritten = s.pWritten := rfl
@[simp] theorem acceptCommand_pkbuf (s : State) : (acceptCommand s).pkbuf = s.pkbuf := rfl
@[simp] theorem acceptCommand_sigbuf (s : State) : (acceptCommand s).sigbuf = s.sigbuf := rfl
@[simp] theorem acceptCommand_msgbuf (s : State) : (acceptCommand s).msgbuf = s.msgbuf := rfl
@[simp] theorem acceptCommand_salt (s : State) : (acceptCommand s).salt = s.salt := rfl
@[simp] theorem acceptCommand_pklen (s : State) : (acceptCommand s).pklen = s.pklen := rfl
@[simp] theorem acceptCommand_siglen (s : State) : (acceptCommand s).siglen = s.siglen := rfl
@[simp] theorem acceptCommand_mlen (s : State) : (acceptCommand s).mlen = s.mlen := rfl
@[simp] theorem acceptCommand_ks (s : State) : (acceptCommand s).ks = s.ks := rfl
@[simp] theorem acceptCommand_kcur (s : State) : (acceptCommand s).kcur = s.kcur := rfl
@[simp] theorem acceptCommand_kmode (s : State) : (acceptCommand s).kmode = s.kmode := rfl
@[simp] theorem acceptCommand_byteix (s : State) : (acceptCommand s).byteix = s.byteix := rfl
@[simp] theorem acceptCommand_bitoff (s : State) : (acceptCommand s).bitoff = s.bitoff := rfl
@[simp] theorem acceptCommand_normsq (s : State) : (acceptCommand s).normsq = s.normsq := rfl
@[simp] theorem acceptCommand_busy (s : State) : (acceptCommand s).busy = true := rfl
@[simp] theorem acceptCommand_done (s : State) : (acceptCommand s).done = false := rfl
@[simp] theorem acceptCommand_accept (s : State) : (acceptCommand s).accept = s.accept := rfl
@[simp] theorem acceptCommand_err (s : State) : (acceptCommand s).err = s.err := rfl
@[simp] theorem acceptCommand_phase (s : State) : (acceptCommand s).phase = s.phase := rfl
@[simp] theorem acceptCommand_msgMax (s : State) : (acceptCommand s).msgMax = s.msgMax := rfl
@[simp] theorem acceptCommand_moves (s : State) : (acceptCommand s).moves = s.moves := rfl
@[simp] theorem acceptCommand_returned (s : State) : (acceptCommand s).returned = s.returned := rfl

/-! ### finishCommand -/

@[simp] theorem finishCommand_a (s : State) : (finishCommand s).a = s.a := rfl
@[simp] theorem finishCommand_b (s : State) : (finishCommand s).b = s.b := rfl
@[simp] theorem finishCommand_r (s : State) : (finishCommand s).r = s.r := rfl
@[simp] theorem finishCommand_p (s : State) : (finishCommand s).p = s.p := rfl
@[simp] theorem finishCommand_pWritten (s : State) : (finishCommand s).pWritten = s.pWritten := rfl
@[simp] theorem finishCommand_pkbuf (s : State) : (finishCommand s).pkbuf = s.pkbuf := rfl
@[simp] theorem finishCommand_sigbuf (s : State) : (finishCommand s).sigbuf = s.sigbuf := rfl
@[simp] theorem finishCommand_msgbuf (s : State) : (finishCommand s).msgbuf = s.msgbuf := rfl
@[simp] theorem finishCommand_salt (s : State) : (finishCommand s).salt = s.salt := rfl
@[simp] theorem finishCommand_pklen (s : State) : (finishCommand s).pklen = s.pklen := rfl
@[simp] theorem finishCommand_siglen (s : State) : (finishCommand s).siglen = s.siglen := rfl
@[simp] theorem finishCommand_mlen (s : State) : (finishCommand s).mlen = s.mlen := rfl
@[simp] theorem finishCommand_ks (s : State) : (finishCommand s).ks = s.ks := rfl
@[simp] theorem finishCommand_kcur (s : State) : (finishCommand s).kcur = s.kcur := rfl
@[simp] theorem finishCommand_kmode (s : State) : (finishCommand s).kmode = s.kmode := rfl
@[simp] theorem finishCommand_byteix (s : State) : (finishCommand s).byteix = s.byteix := rfl
@[simp] theorem finishCommand_bitoff (s : State) : (finishCommand s).bitoff = s.bitoff := rfl
@[simp] theorem finishCommand_normsq (s : State) : (finishCommand s).normsq = s.normsq := rfl
@[simp] theorem finishCommand_busy (s : State) : (finishCommand s).busy = false := rfl
@[simp] theorem finishCommand_done (s : State) : (finishCommand s).done = true := rfl
@[simp] theorem finishCommand_accept (s : State) : (finishCommand s).accept = s.accept := rfl
@[simp] theorem finishCommand_err (s : State) : (finishCommand s).err = s.err := rfl
@[simp] theorem finishCommand_phase (s : State) : (finishCommand s).phase = s.phase := rfl
@[simp] theorem finishCommand_msgMax (s : State) : (finishCommand s).msgMax = s.msgMax := rfl
@[simp] theorem finishCommand_moves (s : State) : (finishCommand s).moves = s.moves := rfl
@[simp] theorem finishCommand_returned (s : State) : (finishCommand s).returned = s.returned := rfl

/-! ### setAccept -/

@[simp] theorem setAccept_a (s : State) (v : Bool) : (setAccept v s).a = s.a := rfl
@[simp] theorem setAccept_b (s : State) (v : Bool) : (setAccept v s).b = s.b := rfl
@[simp] theorem setAccept_r (s : State) (v : Bool) : (setAccept v s).r = s.r := rfl
@[simp] theorem setAccept_p (s : State) (v : Bool) : (setAccept v s).p = s.p := rfl
@[simp] theorem setAccept_pWritten (s : State) (v : Bool) : (setAccept v s).pWritten = s.pWritten := rfl
@[simp] theorem setAccept_pkbuf (s : State) (v : Bool) : (setAccept v s).pkbuf = s.pkbuf := rfl
@[simp] theorem setAccept_sigbuf (s : State) (v : Bool) : (setAccept v s).sigbuf = s.sigbuf := rfl
@[simp] theorem setAccept_msgbuf (s : State) (v : Bool) : (setAccept v s).msgbuf = s.msgbuf := rfl
@[simp] theorem setAccept_salt (s : State) (v : Bool) : (setAccept v s).salt = s.salt := rfl
@[simp] theorem setAccept_pklen (s : State) (v : Bool) : (setAccept v s).pklen = s.pklen := rfl
@[simp] theorem setAccept_siglen (s : State) (v : Bool) : (setAccept v s).siglen = s.siglen := rfl
@[simp] theorem setAccept_mlen (s : State) (v : Bool) : (setAccept v s).mlen = s.mlen := rfl
@[simp] theorem setAccept_ks (s : State) (v : Bool) : (setAccept v s).ks = s.ks := rfl
@[simp] theorem setAccept_kcur (s : State) (v : Bool) : (setAccept v s).kcur = s.kcur := rfl
@[simp] theorem setAccept_kmode (s : State) (v : Bool) : (setAccept v s).kmode = s.kmode := rfl
@[simp] theorem setAccept_byteix (s : State) (v : Bool) : (setAccept v s).byteix = s.byteix := rfl
@[simp] theorem setAccept_bitoff (s : State) (v : Bool) : (setAccept v s).bitoff = s.bitoff := rfl
@[simp] theorem setAccept_normsq (s : State) (v : Bool) : (setAccept v s).normsq = s.normsq := rfl
@[simp] theorem setAccept_busy (s : State) (v : Bool) : (setAccept v s).busy = s.busy := rfl
@[simp] theorem setAccept_done (s : State) (v : Bool) : (setAccept v s).done = s.done := rfl
@[simp] theorem setAccept_accept (s : State) (v : Bool) : (setAccept v s).accept = v := rfl
@[simp] theorem setAccept_err (s : State) (v : Bool) : (setAccept v s).err = s.err := rfl
@[simp] theorem setAccept_phase (s : State) (v : Bool) : (setAccept v s).phase = s.phase := rfl
@[simp] theorem setAccept_msgMax (s : State) (v : Bool) : (setAccept v s).msgMax = s.msgMax := rfl
@[simp] theorem setAccept_moves (s : State) (v : Bool) : (setAccept v s).moves = s.moves := rfl
@[simp] theorem setAccept_returned (s : State) (v : Bool) : (setAccept v s).returned = s.returned := rfl

/-! ### setPhase -/

@[simp] theorem setPhase_a (s : State) (k : Fin 7) : (setPhase k s).a = s.a := rfl
@[simp] theorem setPhase_b (s : State) (k : Fin 7) : (setPhase k s).b = s.b := rfl
@[simp] theorem setPhase_r (s : State) (k : Fin 7) : (setPhase k s).r = s.r := rfl
@[simp] theorem setPhase_p (s : State) (k : Fin 7) : (setPhase k s).p = s.p := rfl
@[simp] theorem setPhase_pWritten (s : State) (k : Fin 7) : (setPhase k s).pWritten = s.pWritten := rfl
@[simp] theorem setPhase_pkbuf (s : State) (k : Fin 7) : (setPhase k s).pkbuf = s.pkbuf := rfl
@[simp] theorem setPhase_sigbuf (s : State) (k : Fin 7) : (setPhase k s).sigbuf = s.sigbuf := rfl
@[simp] theorem setPhase_msgbuf (s : State) (k : Fin 7) : (setPhase k s).msgbuf = s.msgbuf := rfl
@[simp] theorem setPhase_salt (s : State) (k : Fin 7) : (setPhase k s).salt = s.salt := rfl
@[simp] theorem setPhase_pklen (s : State) (k : Fin 7) : (setPhase k s).pklen = s.pklen := rfl
@[simp] theorem setPhase_siglen (s : State) (k : Fin 7) : (setPhase k s).siglen = s.siglen := rfl
@[simp] theorem setPhase_mlen (s : State) (k : Fin 7) : (setPhase k s).mlen = s.mlen := rfl
@[simp] theorem setPhase_ks (s : State) (k : Fin 7) : (setPhase k s).ks = s.ks := rfl
@[simp] theorem setPhase_kcur (s : State) (k : Fin 7) : (setPhase k s).kcur = s.kcur := rfl
@[simp] theorem setPhase_kmode (s : State) (k : Fin 7) : (setPhase k s).kmode = s.kmode := rfl
@[simp] theorem setPhase_byteix (s : State) (k : Fin 7) : (setPhase k s).byteix = s.byteix := rfl
@[simp] theorem setPhase_bitoff (s : State) (k : Fin 7) : (setPhase k s).bitoff = s.bitoff := rfl
@[simp] theorem setPhase_normsq (s : State) (k : Fin 7) : (setPhase k s).normsq = s.normsq := rfl
@[simp] theorem setPhase_busy (s : State) (k : Fin 7) : (setPhase k s).busy = s.busy := rfl
@[simp] theorem setPhase_done (s : State) (k : Fin 7) : (setPhase k s).done = s.done := rfl
@[simp] theorem setPhase_accept (s : State) (k : Fin 7) : (setPhase k s).accept = s.accept := rfl
@[simp] theorem setPhase_err (s : State) (k : Fin 7) : (setPhase k s).err = s.err := rfl
@[simp] theorem setPhase_phase (s : State) (k : Fin 7) : (setPhase k s).phase = k := rfl
@[simp] theorem setPhase_msgMax (s : State) (k : Fin 7) : (setPhase k s).msgMax = s.msgMax := rfl
@[simp] theorem setPhase_moves (s : State) (k : Fin 7) : (setPhase k s).moves = s.moves := rfl
@[simp] theorem setPhase_returned (s : State) (k : Fin 7) : (setPhase k s).returned = s.returned := rfl

/-! ### complete -/

@[simp] theorem complete_a (s : State) : (complete s).a = s.a := rfl
@[simp] theorem complete_b (s : State) : (complete s).b = s.b := rfl
@[simp] theorem complete_r (s : State) : (complete s).r = s.r := rfl
@[simp] theorem complete_p (s : State) : (complete s).p = s.p := rfl
@[simp] theorem complete_pWritten (s : State) : (complete s).pWritten = s.pWritten := rfl
@[simp] theorem complete_pkbuf (s : State) : (complete s).pkbuf = s.pkbuf := rfl
@[simp] theorem complete_sigbuf (s : State) : (complete s).sigbuf = s.sigbuf := rfl
@[simp] theorem complete_msgbuf (s : State) : (complete s).msgbuf = s.msgbuf := rfl
@[simp] theorem complete_salt (s : State) : (complete s).salt = s.salt := rfl
@[simp] theorem complete_pklen (s : State) : (complete s).pklen = s.pklen := rfl
@[simp] theorem complete_siglen (s : State) : (complete s).siglen = s.siglen := rfl
@[simp] theorem complete_mlen (s : State) : (complete s).mlen = s.mlen := rfl
@[simp] theorem complete_ks (s : State) : (complete s).ks = s.ks := rfl
@[simp] theorem complete_kcur (s : State) : (complete s).kcur = s.kcur := rfl
@[simp] theorem complete_kmode (s : State) : (complete s).kmode = s.kmode := rfl
@[simp] theorem complete_byteix (s : State) : (complete s).byteix = s.byteix := rfl
@[simp] theorem complete_bitoff (s : State) : (complete s).bitoff = s.bitoff := rfl
@[simp] theorem complete_normsq (s : State) : (complete s).normsq = s.normsq := rfl
@[simp] theorem complete_busy (s : State) : (complete s).busy = false := rfl
@[simp] theorem complete_done (s : State) : (complete s).done = true := rfl
@[simp] theorem complete_accept (s : State) : (complete s).accept = s.accept := rfl
@[simp] theorem complete_err (s : State) : (complete s).err = .ok := rfl
@[simp] theorem complete_phase (s : State) : (complete s).phase = s.phase := rfl
@[simp] theorem complete_msgMax (s : State) : (complete s).msgMax = s.msgMax := rfl
@[simp] theorem complete_moves (s : State) : (complete s).moves = s.moves := rfl
@[simp] theorem complete_returned (s : State) : (complete s).returned = s.returned := rfl

/-! ### raise -/

@[simp] theorem raise_a (s : State) (k : ErrorKind) : (raise k s).a = s.a := rfl
@[simp] theorem raise_b (s : State) (k : ErrorKind) : (raise k s).b = s.b := rfl
@[simp] theorem raise_r (s : State) (k : ErrorKind) : (raise k s).r = s.r := rfl
@[simp] theorem raise_p (s : State) (k : ErrorKind) : (raise k s).p = s.p := rfl
@[simp] theorem raise_pWritten (s : State) (k : ErrorKind) : (raise k s).pWritten = s.pWritten := rfl
@[simp] theorem raise_pkbuf (s : State) (k : ErrorKind) : (raise k s).pkbuf = s.pkbuf := rfl
@[simp] theorem raise_sigbuf (s : State) (k : ErrorKind) : (raise k s).sigbuf = s.sigbuf := rfl
@[simp] theorem raise_msgbuf (s : State) (k : ErrorKind) : (raise k s).msgbuf = s.msgbuf := rfl
@[simp] theorem raise_salt (s : State) (k : ErrorKind) : (raise k s).salt = s.salt := rfl
@[simp] theorem raise_pklen (s : State) (k : ErrorKind) : (raise k s).pklen = s.pklen := rfl
@[simp] theorem raise_siglen (s : State) (k : ErrorKind) : (raise k s).siglen = s.siglen := rfl
@[simp] theorem raise_mlen (s : State) (k : ErrorKind) : (raise k s).mlen = s.mlen := rfl
@[simp] theorem raise_ks (s : State) (k : ErrorKind) : (raise k s).ks = s.ks := rfl
@[simp] theorem raise_kcur (s : State) (k : ErrorKind) : (raise k s).kcur = s.kcur := rfl
@[simp] theorem raise_kmode (s : State) (k : ErrorKind) : (raise k s).kmode = s.kmode := rfl
@[simp] theorem raise_byteix (s : State) (k : ErrorKind) : (raise k s).byteix = s.byteix := rfl
@[simp] theorem raise_bitoff (s : State) (k : ErrorKind) : (raise k s).bitoff = s.bitoff := rfl
@[simp] theorem raise_normsq (s : State) (k : ErrorKind) : (raise k s).normsq = s.normsq := rfl
@[simp] theorem raise_busy (s : State) (k : ErrorKind) : (raise k s).busy = false := rfl
@[simp] theorem raise_done (s : State) (k : ErrorKind) : (raise k s).done = true := rfl
@[simp] theorem raise_accept (s : State) (k : ErrorKind) : (raise k s).accept = s.accept := rfl
@[simp] theorem raise_err (s : State) (k : ErrorKind) : (raise k s).err = k := rfl
@[simp] theorem raise_phase (s : State) (k : ErrorKind) : (raise k s).phase = s.phase := rfl
@[simp] theorem raise_msgMax (s : State) (k : ErrorKind) : (raise k s).msgMax = s.msgMax := rfl
@[simp] theorem raise_moves (s : State) (k : ErrorKind) : (raise k s).moves = s.moves := rfl
@[simp] theorem raise_returned (s : State) (k : ErrorKind) : (raise k s).returned = s.returned := rfl

/-! ### setCursor -/

@[simp] theorem setCursor_a (s : State) (n : Nat) : (setCursor n s).a = s.a := rfl
@[simp] theorem setCursor_b (s : State) (n : Nat) : (setCursor n s).b = s.b := rfl
@[simp] theorem setCursor_r (s : State) (n : Nat) : (setCursor n s).r = s.r := rfl
@[simp] theorem setCursor_p (s : State) (n : Nat) : (setCursor n s).p = s.p := rfl
@[simp] theorem setCursor_pWritten (s : State) (n : Nat) : (setCursor n s).pWritten = s.pWritten := rfl
@[simp] theorem setCursor_pkbuf (s : State) (n : Nat) : (setCursor n s).pkbuf = s.pkbuf := rfl
@[simp] theorem setCursor_sigbuf (s : State) (n : Nat) : (setCursor n s).sigbuf = s.sigbuf := rfl
@[simp] theorem setCursor_msgbuf (s : State) (n : Nat) : (setCursor n s).msgbuf = s.msgbuf := rfl
@[simp] theorem setCursor_salt (s : State) (n : Nat) : (setCursor n s).salt = s.salt := rfl
@[simp] theorem setCursor_pklen (s : State) (n : Nat) : (setCursor n s).pklen = s.pklen := rfl
@[simp] theorem setCursor_siglen (s : State) (n : Nat) : (setCursor n s).siglen = s.siglen := rfl
@[simp] theorem setCursor_mlen (s : State) (n : Nat) : (setCursor n s).mlen = s.mlen := rfl
@[simp] theorem setCursor_ks (s : State) (n : Nat) : (setCursor n s).ks = s.ks := rfl
@[simp] theorem setCursor_kcur (s : State) (n : Nat) : (setCursor n s).kcur = s.kcur := rfl
@[simp] theorem setCursor_kmode (s : State) (n : Nat) : (setCursor n s).kmode = s.kmode := rfl
@[simp] theorem setCursor_byteix (s : State) (n : Nat) : (setCursor n s).byteix = BitVec.ofNat 16 (n / 8) := rfl
@[simp] theorem setCursor_bitoff (s : State) (n : Nat) : (setCursor n s).bitoff = BitVec.ofNat 3 (n % 8) := rfl
@[simp] theorem setCursor_normsq (s : State) (n : Nat) : (setCursor n s).normsq = s.normsq := rfl
@[simp] theorem setCursor_busy (s : State) (n : Nat) : (setCursor n s).busy = s.busy := rfl
@[simp] theorem setCursor_done (s : State) (n : Nat) : (setCursor n s).done = s.done := rfl
@[simp] theorem setCursor_accept (s : State) (n : Nat) : (setCursor n s).accept = s.accept := rfl
@[simp] theorem setCursor_err (s : State) (n : Nat) : (setCursor n s).err = s.err := rfl
@[simp] theorem setCursor_phase (s : State) (n : Nat) : (setCursor n s).phase = s.phase := rfl
@[simp] theorem setCursor_msgMax (s : State) (n : Nat) : (setCursor n s).msgMax = s.msgMax := rfl
@[simp] theorem setCursor_moves (s : State) (n : Nat) : (setCursor n s).moves = s.moves := rfl
@[simp] theorem setCursor_returned (s : State) (n : Nat) : (setCursor n s).returned = s.returned := rfl

/-! ### writePoly -/

@[simp] theorem writePoly_a (s : State) (k : PReg) (v : Poly) : (writePoly k v s).a = s.a := rfl
@[simp] theorem writePoly_b (s : State) (k : PReg) (v : Poly) : (writePoly k v s).b = s.b := rfl
@[simp] theorem writePoly_r (s : State) (k : PReg) (v : Poly) : (writePoly k v s).r = s.r := rfl
@[simp] theorem writePoly_p (s : State) (k : PReg) (v : Poly) : (writePoly k v s).p = s.p.set k v := rfl
@[simp] theorem writePoly_pWritten (s : State) (k : PReg) (v : Poly) : (writePoly k v s).pWritten = s.pWritten.set k (Vector.replicate 512 true) := rfl
@[simp] theorem writePoly_pkbuf (s : State) (k : PReg) (v : Poly) : (writePoly k v s).pkbuf = s.pkbuf := rfl
@[simp] theorem writePoly_sigbuf (s : State) (k : PReg) (v : Poly) : (writePoly k v s).sigbuf = s.sigbuf := rfl
@[simp] theorem writePoly_msgbuf (s : State) (k : PReg) (v : Poly) : (writePoly k v s).msgbuf = s.msgbuf := rfl
@[simp] theorem writePoly_salt (s : State) (k : PReg) (v : Poly) : (writePoly k v s).salt = s.salt := rfl
@[simp] theorem writePoly_pklen (s : State) (k : PReg) (v : Poly) : (writePoly k v s).pklen = s.pklen := rfl
@[simp] theorem writePoly_siglen (s : State) (k : PReg) (v : Poly) : (writePoly k v s).siglen = s.siglen := rfl
@[simp] theorem writePoly_mlen (s : State) (k : PReg) (v : Poly) : (writePoly k v s).mlen = s.mlen := rfl
@[simp] theorem writePoly_ks (s : State) (k : PReg) (v : Poly) : (writePoly k v s).ks = s.ks := rfl
@[simp] theorem writePoly_kcur (s : State) (k : PReg) (v : Poly) : (writePoly k v s).kcur = s.kcur := rfl
@[simp] theorem writePoly_kmode (s : State) (k : PReg) (v : Poly) : (writePoly k v s).kmode = s.kmode := rfl
@[simp] theorem writePoly_byteix (s : State) (k : PReg) (v : Poly) : (writePoly k v s).byteix = s.byteix := rfl
@[simp] theorem writePoly_bitoff (s : State) (k : PReg) (v : Poly) : (writePoly k v s).bitoff = s.bitoff := rfl
@[simp] theorem writePoly_normsq (s : State) (k : PReg) (v : Poly) : (writePoly k v s).normsq = s.normsq := rfl
@[simp] theorem writePoly_busy (s : State) (k : PReg) (v : Poly) : (writePoly k v s).busy = s.busy := rfl
@[simp] theorem writePoly_done (s : State) (k : PReg) (v : Poly) : (writePoly k v s).done = s.done := rfl
@[simp] theorem writePoly_accept (s : State) (k : PReg) (v : Poly) : (writePoly k v s).accept = s.accept := rfl
@[simp] theorem writePoly_err (s : State) (k : PReg) (v : Poly) : (writePoly k v s).err = s.err := rfl
@[simp] theorem writePoly_phase (s : State) (k : PReg) (v : Poly) : (writePoly k v s).phase = s.phase := rfl
@[simp] theorem writePoly_msgMax (s : State) (k : PReg) (v : Poly) : (writePoly k v s).msgMax = s.msgMax := rfl
@[simp] theorem writePoly_moves (s : State) (k : PReg) (v : Poly) : (writePoly k v s).moves = s.moves := rfl
@[simp] theorem writePoly_returned (s : State) (k : PReg) (v : Poly) : (writePoly k v s).returned = s.returned := rfl

/-! ### writeLane -/

@[simp] theorem writeLane_a (s : State) (k : PReg) (i : Fin 512) (v : Word16) : (writeLane k i v s).a = s.a := rfl
@[simp] theorem writeLane_b (s : State) (k : PReg) (i : Fin 512) (v : Word16) : (writeLane k i v s).b = s.b := rfl
@[simp] theorem writeLane_r (s : State) (k : PReg) (i : Fin 512) (v : Word16) : (writeLane k i v s).r = s.r := rfl
@[simp] theorem writeLane_p (s : State) (k : PReg) (i : Fin 512) (v : Word16) : (writeLane k i v s).p = s.p.set k (s.p[k].set i v) := rfl
@[simp] theorem writeLane_pWritten (s : State) (k : PReg) (i : Fin 512) (v : Word16) : (writeLane k i v s).pWritten = s.pWritten.set k (s.pWritten[k].set i true) := rfl
@[simp] theorem writeLane_pkbuf (s : State) (k : PReg) (i : Fin 512) (v : Word16) : (writeLane k i v s).pkbuf = s.pkbuf := rfl
@[simp] theorem writeLane_sigbuf (s : State) (k : PReg) (i : Fin 512) (v : Word16) : (writeLane k i v s).sigbuf = s.sigbuf := rfl
@[simp] theorem writeLane_msgbuf (s : State) (k : PReg) (i : Fin 512) (v : Word16) : (writeLane k i v s).msgbuf = s.msgbuf := rfl
@[simp] theorem writeLane_salt (s : State) (k : PReg) (i : Fin 512) (v : Word16) : (writeLane k i v s).salt = s.salt := rfl
@[simp] theorem writeLane_pklen (s : State) (k : PReg) (i : Fin 512) (v : Word16) : (writeLane k i v s).pklen = s.pklen := rfl
@[simp] theorem writeLane_siglen (s : State) (k : PReg) (i : Fin 512) (v : Word16) : (writeLane k i v s).siglen = s.siglen := rfl
@[simp] theorem writeLane_mlen (s : State) (k : PReg) (i : Fin 512) (v : Word16) : (writeLane k i v s).mlen = s.mlen := rfl
@[simp] theorem writeLane_ks (s : State) (k : PReg) (i : Fin 512) (v : Word16) : (writeLane k i v s).ks = s.ks := rfl
@[simp] theorem writeLane_kcur (s : State) (k : PReg) (i : Fin 512) (v : Word16) : (writeLane k i v s).kcur = s.kcur := rfl
@[simp] theorem writeLane_kmode (s : State) (k : PReg) (i : Fin 512) (v : Word16) : (writeLane k i v s).kmode = s.kmode := rfl
@[simp] theorem writeLane_byteix (s : State) (k : PReg) (i : Fin 512) (v : Word16) : (writeLane k i v s).byteix = s.byteix := rfl
@[simp] theorem writeLane_bitoff (s : State) (k : PReg) (i : Fin 512) (v : Word16) : (writeLane k i v s).bitoff = s.bitoff := rfl
@[simp] theorem writeLane_normsq (s : State) (k : PReg) (i : Fin 512) (v : Word16) : (writeLane k i v s).normsq = s.normsq := rfl
@[simp] theorem writeLane_busy (s : State) (k : PReg) (i : Fin 512) (v : Word16) : (writeLane k i v s).busy = s.busy := rfl
@[simp] theorem writeLane_done (s : State) (k : PReg) (i : Fin 512) (v : Word16) : (writeLane k i v s).done = s.done := rfl
@[simp] theorem writeLane_accept (s : State) (k : PReg) (i : Fin 512) (v : Word16) : (writeLane k i v s).accept = s.accept := rfl
@[simp] theorem writeLane_err (s : State) (k : PReg) (i : Fin 512) (v : Word16) : (writeLane k i v s).err = s.err := rfl
@[simp] theorem writeLane_phase (s : State) (k : PReg) (i : Fin 512) (v : Word16) : (writeLane k i v s).phase = s.phase := rfl
@[simp] theorem writeLane_msgMax (s : State) (k : PReg) (i : Fin 512) (v : Word16) : (writeLane k i v s).msgMax = s.msgMax := rfl
@[simp] theorem writeLane_moves (s : State) (k : PReg) (i : Fin 512) (v : Word16) : (writeLane k i v s).moves = s.moves := rfl
@[simp] theorem writeLane_returned (s : State) (k : PReg) (i : Fin 512) (v : Word16) : (writeLane k i v s).returned = s.returned := rfl

/-! ### setSponge -/

@[simp] theorem setSponge_a (s : State) (sp : Sponge) : (s.setSponge sp).a = s.a := rfl
@[simp] theorem setSponge_b (s : State) (sp : Sponge) : (s.setSponge sp).b = s.b := rfl
@[simp] theorem setSponge_r (s : State) (sp : Sponge) : (s.setSponge sp).r = s.r := rfl
@[simp] theorem setSponge_p (s : State) (sp : Sponge) : (s.setSponge sp).p = s.p := rfl
@[simp] theorem setSponge_pWritten (s : State) (sp : Sponge) : (s.setSponge sp).pWritten = s.pWritten := rfl
@[simp] theorem setSponge_pkbuf (s : State) (sp : Sponge) : (s.setSponge sp).pkbuf = s.pkbuf := rfl
@[simp] theorem setSponge_sigbuf (s : State) (sp : Sponge) : (s.setSponge sp).sigbuf = s.sigbuf := rfl
@[simp] theorem setSponge_msgbuf (s : State) (sp : Sponge) : (s.setSponge sp).msgbuf = s.msgbuf := rfl
@[simp] theorem setSponge_salt (s : State) (sp : Sponge) : (s.setSponge sp).salt = s.salt := rfl
@[simp] theorem setSponge_pklen (s : State) (sp : Sponge) : (s.setSponge sp).pklen = s.pklen := rfl
@[simp] theorem setSponge_siglen (s : State) (sp : Sponge) : (s.setSponge sp).siglen = s.siglen := rfl
@[simp] theorem setSponge_mlen (s : State) (sp : Sponge) : (s.setSponge sp).mlen = s.mlen := rfl
@[simp] theorem setSponge_ks (s : State) (sp : Sponge) : (s.setSponge sp).ks = sp.ks := rfl
@[simp] theorem setSponge_kcur (s : State) (sp : Sponge) : (s.setSponge sp).kcur = sp.cur := rfl
@[simp] theorem setSponge_kmode (s : State) (sp : Sponge) : (s.setSponge sp).kmode = s.kmode := rfl
@[simp] theorem setSponge_byteix (s : State) (sp : Sponge) : (s.setSponge sp).byteix = s.byteix := rfl
@[simp] theorem setSponge_bitoff (s : State) (sp : Sponge) : (s.setSponge sp).bitoff = s.bitoff := rfl
@[simp] theorem setSponge_normsq (s : State) (sp : Sponge) : (s.setSponge sp).normsq = s.normsq := rfl
@[simp] theorem setSponge_busy (s : State) (sp : Sponge) : (s.setSponge sp).busy = s.busy := rfl
@[simp] theorem setSponge_done (s : State) (sp : Sponge) : (s.setSponge sp).done = s.done := rfl
@[simp] theorem setSponge_accept (s : State) (sp : Sponge) : (s.setSponge sp).accept = s.accept := rfl
@[simp] theorem setSponge_err (s : State) (sp : Sponge) : (s.setSponge sp).err = s.err := rfl
@[simp] theorem setSponge_phase (s : State) (sp : Sponge) : (s.setSponge sp).phase = s.phase := rfl
@[simp] theorem setSponge_msgMax (s : State) (sp : Sponge) : (s.setSponge sp).msgMax = s.msgMax := rfl
@[simp] theorem setSponge_moves (s : State) (sp : Sponge) : (s.setSponge sp).moves = s.moves := rfl
@[simp] theorem setSponge_returned (s : State) (sp : Sponge) : (s.setSponge sp).returned = s.returned := rfl

/-! ### setSpace -/

@[simp] theorem setSpace_a (s : State) (sp : ByteSpace) (m : Memory) : (s.setSpace sp m).a = s.a := by
  cases sp <;> rfl
@[simp] theorem setSpace_b (s : State) (sp : ByteSpace) (m : Memory) : (s.setSpace sp m).b = s.b := by
  cases sp <;> rfl
@[simp] theorem setSpace_r (s : State) (sp : ByteSpace) (m : Memory) : (s.setSpace sp m).r = s.r := by
  cases sp <;> rfl
@[simp] theorem setSpace_p (s : State) (sp : ByteSpace) (m : Memory) : (s.setSpace sp m).p = s.p := by
  cases sp <;> rfl
@[simp] theorem setSpace_pWritten (s : State) (sp : ByteSpace) (m : Memory) : (s.setSpace sp m).pWritten = s.pWritten := by
  cases sp <;> rfl
@[simp] theorem setSpace_pklen (s : State) (sp : ByteSpace) (m : Memory) : (s.setSpace sp m).pklen = s.pklen := by
  cases sp <;> rfl
@[simp] theorem setSpace_siglen (s : State) (sp : ByteSpace) (m : Memory) : (s.setSpace sp m).siglen = s.siglen := by
  cases sp <;> rfl
@[simp] theorem setSpace_mlen (s : State) (sp : ByteSpace) (m : Memory) : (s.setSpace sp m).mlen = s.mlen := by
  cases sp <;> rfl
@[simp] theorem setSpace_ks (s : State) (sp : ByteSpace) (m : Memory) : (s.setSpace sp m).ks = s.ks := by
  cases sp <;> rfl
@[simp] theorem setSpace_kcur (s : State) (sp : ByteSpace) (m : Memory) : (s.setSpace sp m).kcur = s.kcur := by
  cases sp <;> rfl
@[simp] theorem setSpace_kmode (s : State) (sp : ByteSpace) (m : Memory) : (s.setSpace sp m).kmode = s.kmode := by
  cases sp <;> rfl
@[simp] theorem setSpace_byteix (s : State) (sp : ByteSpace) (m : Memory) : (s.setSpace sp m).byteix = s.byteix := by
  cases sp <;> rfl
@[simp] theorem setSpace_bitoff (s : State) (sp : ByteSpace) (m : Memory) : (s.setSpace sp m).bitoff = s.bitoff := by
  cases sp <;> rfl
@[simp] theorem setSpace_normsq (s : State) (sp : ByteSpace) (m : Memory) : (s.setSpace sp m).normsq = s.normsq := by
  cases sp <;> rfl
@[simp] theorem setSpace_busy (s : State) (sp : ByteSpace) (m : Memory) : (s.setSpace sp m).busy = s.busy := by
  cases sp <;> rfl
@[simp] theorem setSpace_done (s : State) (sp : ByteSpace) (m : Memory) : (s.setSpace sp m).done = s.done := by
  cases sp <;> rfl
@[simp] theorem setSpace_accept (s : State) (sp : ByteSpace) (m : Memory) : (s.setSpace sp m).accept = s.accept := by
  cases sp <;> rfl
@[simp] theorem setSpace_err (s : State) (sp : ByteSpace) (m : Memory) : (s.setSpace sp m).err = s.err := by
  cases sp <;> rfl
@[simp] theorem setSpace_phase (s : State) (sp : ByteSpace) (m : Memory) : (s.setSpace sp m).phase = s.phase := by
  cases sp <;> rfl
@[simp] theorem setSpace_msgMax (s : State) (sp : ByteSpace) (m : Memory) : (s.setSpace sp m).msgMax = s.msgMax := by
  cases sp <;> rfl
@[simp] theorem setSpace_moves (s : State) (sp : ByteSpace) (m : Memory) : (s.setSpace sp m).moves = s.moves := by
  cases sp <;> rfl
@[simp] theorem setSpace_returned (s : State) (sp : ByteSpace) (m : Memory) : (s.setSpace sp m).returned = s.returned := by
  cases sp <;> rfl

/-- A space reads back as what it was set to. -/
@[simp] theorem space_setSpace_same (s : State) (sp : ByteSpace) (m : Memory) : (s.setSpace sp m).space sp = m := by
  cases sp <;> rfl

/-- Setting one space leaves the others. -/
theorem space_setSpace_other (s : State) (sp sp' : ByteSpace) (m : Memory) (h : sp' ≠ sp) :
    (s.setSpace sp m).space sp' = s.space sp' := by
  cases sp <;> cases sp' <;> first | rfl | exact absurd rfl h

/-- Setting a space changes no size. -/
@[simp] theorem spaceSize_setSpace (s : State) (sp sp' : ByteSpace) (m : Memory) :
    (s.setSpace sp m).spaceSize sp' = s.spaceSize sp' := by
  cases sp <;> cases sp' <;> rfl

/-! ### Views -/

@[simp] theorem poly_writePoly_same (s : State) (k : PReg) (v : Poly) : (writePoly k v s).poly k = v := by
  simp [State.poly]

theorem poly_writePoly_other (s : State) (k j : PReg) (v : Poly) (h : j ≠ k) :
    (writePoly k v s).poly j = s.poly j := by
  have hv : (k : Nat) ≠ j := fun e => h (Fin.ext e.symm)
  simp [State.poly, hv]

@[simp] theorem sponge_setSponge (s : State) (sp : Sponge) : (s.setSponge sp).sponge = sp := rfl

@[simp] theorem poly_complete (s : State) (k : PReg) : (complete s).poly k = s.poly k := rfl
@[simp] theorem poly_raise (s : State) (e : ErrorKind) (k : PReg) : (raise e s).poly k = s.poly k := rfl
@[simp] theorem poly_setPhase (s : State) (n : Fin 7) (k : PReg) : (setPhase n s).poly k = s.poly k := rfl
@[simp] theorem poly_setAccept (s : State) (v : Bool) (k : PReg) : (setAccept v s).poly k = s.poly k := rfl
@[simp] theorem poly_setCursor (s : State) (n : Nat) (k : PReg) : (setCursor n s).poly k = s.poly k := rfl
@[simp] theorem poly_setSponge (s : State) (sp : Sponge) (k : PReg) : (s.setSponge sp).poly k = s.poly k := rfl

end Sys2Proof.Machine
end

