-- ==== Sys2Proof/Safety.lean ====
section
/-! DEFINITION. What counts as a safe run: the invariant every step keeps, and which steps read only lanes that have
been written since reset (70_reset_and_hazards.md R262). -/

namespace Sys2Proof.Safety

open Sys2Proof.Machine

/-- The invariant of a core between two host moves. -/
structure Inv (s : State) : Prop where
  /-- `PKBUF` is in canonical form, inside its space (20_memory.md R50). -/
  pkbuf : Memory.wf Config.pkLen s.pkbuf = true
  /-- `SIGBUF` likewise. -/
  sigbuf : Memory.wf Config.sigLen s.sigbuf = true
  /-- `MSGBUF` likewise. -/
  msgbuf : Memory.wf s.msgMax s.msgbuf = true
  /-- `SALT` likewise. -/
  salt : Memory.wf Config.saltLen s.salt = true
  /-- While absorbing, the rate cursor is in `0 .. 135` (43_sponge_keccak.md R151). -/
  cursor : s.kmode = .absorbing → s.kcur.val < Config.rate
  /-- No command is in progress between two moves (10_state.md R32). -/
  idle : s.busy = false
  /-- The codec cursor points into the signature or just past it (45_codec.md R196). -/
  position : 8 * s.byteix.toNat + s.bitoff.toNat ≤ Config.sigEndBit
  /-- The norm accumulator has not wrapped (10_state.md R31). -/
  norm : s.normsq.toNat ≤ Config.normMax
  /-- `ACCEPT = 1` only with a squared norm within the bound (46_norm_check.md R213, 47_verify_orchestrator.md R228). -/
  accepted : s.accept = true → s.normsq.toNat ≤ 34034726
  /-- `PHASE` is never 4 between commands (47_verify_orchestrator.md R226). -/
  phase : s.phase ≠ 4

/-- The polynomial registers a command reads (10_state.md R42). `VERIFY` reads those it has itself written first. -/
def registersRead (i : Instr) : List PReg :=
  match i with
  | .nttf rd => [rd]
  | .ntti rd => [rd]
  | .nttmul _ rs1 rs2 => [rs1, rs2]
  | .pmul _ rs1 rs2 => [rs1, rs2]
  | .psub _ rs1 rs2 => [rs1, rs2]
  | .pctr _ rs1 => [rs1]
  | .pcan _ rs1 => [rs1]
  | .norm rs1 rs2 => [rs1, rs2]
  | .fadd => []
  | .fsub => []
  | .fmul => []
  | .fctr => []
  | .fcan => []
  | .kecf => []
  | .shinit => []
  | .shabs _ => []
  | .shfin => []
  | .shsqz => []
  | .h2p _ => []
  | .pkdec _ => []
  | .sigdec _ => []
  | .verify => []

/-- Every lane of register `k` has been written since reset. -/
def registerWritten (s : State) (k : PReg) : Bool := (s.pWritten[k]).toList.all id

/-- The command reads no polynomial lane that is marked never written. -/
def readsWrittenLanes (i : Instr) (s : State) : Bool := (registersRead i).all (registerWritten s)

/-- The next step reads no polynomial lane that is marked never written: neither the command of a command word (an illegal word and
one that is dropped read nothing) nor a `HostRead`. Of a run in which some step does, R262 claims nothing; such a step runs on with
the bits the lane holds (log 1), and a claim that is to hold of the core has this as a premise. -/
def meaningful (s : State) : Bool :=
  match s.moves with
  | .cmd w :: _ =>
    if s.busy then true
    else
      match decode w with
      | .ok i => readsWrittenLanes i s
      | .error _ => true
  | .read (.p k i) :: _ => if h : i < 512 then (s.pWritten[k])[i] else true
  | _ => true

end Sys2Proof.Safety
end

