-- ==== Sys2Proof/Certificates/Slice0/Obligations.lean ====
section
/-! DEFINITION. The statements for the provers, each a Prop about the machine, and first the notions they are written in. -/

namespace Sys2Proof.Cert

open Sys2Proof.Machine

/-! ### Notions the statements use -/

/-- The state a command leaves that ends with the error kind `k` and writes nothing else: `ERR`, `ST.busy`, `ST.done`
(60_exceptions.md R241; with kind `ok`, the end of a command without error, 30_encoding.md R70). -/
def ended (k : ErrorKind) (s : State) : State := { s with err := k, busy := false, done := true }

/-- Lane `i` of a register read with `sext_16` (00_scope.md R13); only `i < 512` is used. -/
def laneInt (v : Poly) (i : Nat) : Int := (v.toList.getD i 0).toInt

/-- Every lane is in `lo .. hi`. -/
def Within (lo hi : Int) (v : Poly) : Prop := ∀ i < 512, lo ≤ laneInt v i ∧ laneInt v i ≤ hi

/-- A canonical register (41_ntt_engine.md R116). -/
def Canonical (v : Poly) : Prop := Within 0 12288 v

/-- The lanes of a register as unsigned numbers. -/
def coefs (v : Poly) : List Nat := v.toList.map BitVec.toNat

/-- The command wrote `f i` to every lane `i` of register `rd`, ended without error, and changed nothing else. -/
def WritesLanes (s t : State) (rd : PReg) (f : Nat → Int) : Prop :=
  (∀ i < 512, laneInt (t.poly rd) i = f i) ∧
    t = { s with
      p := s.p.set rd (t.poly rd), pWritten := s.pWritten.set rd (Vector.replicate 512 true),
      err := .ok, busy := false, done := true }

/-- The memory holds the bytes `l` from index 0 on. -/
def Holds (m : Memory) (l : List Byte) : Prop := ∀ j, ∀ h : j < l.length, Memory.read m j = some l[j]

/-- 512 canonical coefficients. -/
def IsCanonicalList (a : List Nat) : Prop := a.length = 512 ∧ ∀ x ∈ a, x < 12289

/-- `brv9` (00_scope.md, glossary): bit `k` of the result is bit `8 - k` of `i`. -/
def brv9 (i : Nat) : Nat := ∑ k ∈ Finset.range 9, i / 2 ^ k % 2 * 2 ^ (8 - k)

/-- The negacyclic convolution (41_ntt_engine.md R110). -/
def negacyclic (a b : List Nat) (k : Nat) : Int :=
  (∑ i ∈ Finset.range 512, ∑ j ∈ Finset.range 512,
    (if i + j = k then (a.getD i 0 : Int) * b.getD j 0
     else if i + j = k + 512 then -((a.getD i 0 : Int) * b.getD j 0) else 0)) % 12289

/-- `bit(B, p)` (20_memory.md R54). -/
def bitAt (l : List Byte) (p : Nat) : Nat := (l.getD (p / 8) 0).toNat / 2 ^ (7 - p % 8) % 2

/-- The value of a `w`-bit field at stream position `p` (20_memory.md R54). -/
def fieldAt (l : List Byte) (w p : Nat) : Nat := ∑ k ∈ Finset.range w, bitAt l (p + k) * 2 ^ (w - 1 - k)

/-- The unary run at position `p`, `k` zeros seen so far (45_codec.md R189), with at most `fuel` bits still to look at; the 16
of `specCoeff` are never used up, since the sixteenth zero fails. -/
def specRun (l : List Byte) : (fuel p k : Nat) → Except (ErrorKind × Nat) (Nat × Nat)
  | 0, p, _ => .error (.internalBoundExceeded, p)
  | fuel + 1, p, k =>
    if 5328 ≤ p then .error (.codecDesync, p)
    else if bitAt l p = 1 then .ok (k, p + 1)
    else if 15 < k + 1 then .error (.internalBoundExceeded, p + 1)
    else specRun l fuel (p + 1) (k + 1)

/-- `decode_coeff(B, p)` by stream positions (45_codec.md R189). -/
def specCoeff (l : List Byte) (p : Nat) : Except (ErrorKind × Nat) (Int × Nat) :=
  if 5328 - p < 8 then .error (.codecDesync, p)
  else
    match specRun l 16 (p + 8) 0 with
    | .error e => .error e
    | .ok (k, p') =>
      if 2047 < fieldAt l 7 (p + 1) + 128 * k then .error (.codecOverflow, p')
      else if bitAt l p = 1 ∧ fieldAt l 7 (p + 1) + 128 * k = 0 then .error (.badCoefficient, p')
      else .ok (if bitAt l p = 1 then -((fieldAt l 7 (p + 1) + 128 * k : Nat) : Int)
        else ((fieldAt l 7 (p + 1) + 128 * k : Nat) : Int), p')

/-- `k` coefficient codes from position `p` on (45_codec.md R194). -/
def specCoeffs (l : List Byte) : (k p : Nat) → Except (ErrorKind × Nat) (List Int × Nat)
  | 0, p => .ok ([], p)
  | k + 1, p =>
    match specCoeff l p with
    | .error e => .error e
    | .ok (v, p1) =>
      match specCoeffs l k p1 with
      | .error e => .error e
      | .ok (vs, p2) => .ok (v :: vs, p2)

/-- `decode_sig` on the 666 bytes, after the length check (45_codec.md R194, R196). -/
def specSig (l : List Byte) : Except (ErrorKind × Nat) (List Int × Nat) :=
  if l.getD 0 0 ≠ 0x39 then .error (.badHeader, 0)
  else
    match specCoeffs l 512 328 with
    | .error e => .error e
    | .ok (vs, p) =>
      if (List.range 5328).any (fun t => decide (p ≤ t) && decide (bitAt l t = 1)) then .error (.codecDesync, p)
      else .ok (vs, p)

/-- The `w` bits of a number, high bit first. -/
def natBits (w x : Nat) : List Bool := (List.range w).map fun k => decide (x / 2 ^ (w - 1 - k) % 2 = 1)

/-- Bits packed eight to a byte, first bit in bit 7 (45_codec.md R199). -/
def packBits (bits : List Bool) : List Byte :=
  (List.range (bits.length / 8)).map fun i =>
    BitVec.ofNat 8 (((bits.drop (8 * i)).take 8).foldl (fun v x => 2 * v + (if x then 1 else 0)) 0)

/-- `encode_pk` (45_codec.md R199). -/
def encodePk (h : List Nat) : List Byte := 0x09#8 :: packBits (h.flatMap (natBits 14))

/-- The code of one coefficient (30_encoding.md R82, 45_codec.md R199). -/
def coeffCode (v : Int) : List Bool :=
  decide (v < 0) :: natBits 7 (v.natAbs % 128) ++ List.replicate (v.natAbs / 128) false ++ [true]

/-- The codes of `s2`, before they are filled up with zeros. -/
def sigBody (s2 : List Int) : List Bool := s2.flatMap coeffCode

/-- `encode_sig` (45_codec.md R199), for codes of at most 5000 bits. -/
def encodeSig (salt : List Byte) (s2 : List Int) : List Byte :=
  0x39#8 :: salt ++ packBits (sigBody s2 ++ List.replicate (5000 - (sigBody s2).length) false)

/-- `k` times `squeeze_byte` (43_sponge_keccak.md R151): the bytes in order, and the sponge after them. -/
def squeezed : Nat → Sponge → List Byte × Sponge
  | 0, sp => ([], sp)
  | k + 1, sp => ((squeezeByte sp).1 :: (squeezed k (squeezeByte sp).2).1, (squeezed k (squeezeByte sp).2).2)

/-- Bytes taken two by two, first byte high (44_hash_to_point.md R170). -/
def chunks : List Byte → List Nat
  | x :: y :: rest => (256 * x.toNat + y.toNat) :: chunks rest
  | _ => []

/-- The accepted ones among the first `k` chunks of the stream of a sponge (44_hash_to_point.md R170). -/
def accepted (k : Nat) (sp : Sponge) : List Nat := (chunks (squeezed (2 * k) sp).1).filter fun w => decide (w < 61445)

/-- The centered value of a lane for the norm (46_norm_check.md R210). -/
def centered (v : Int) : Int := if v ≤ 6144 then v else v - 12289

/-- `normsq` of two polynomials given lane by lane (46_norm_check.md R211). -/
def normOf (u v : Nat → Int) : Nat :=
  ∑ i ∈ Finset.range 512, (centered (u i)).natAbs ^ 2 + ∑ i ∈ Finset.range 512, (centered (v i)).natAbs ^ 2

/-- Rows of the opcode map (30_encoding.md R73): match, mask, and the command its operand bits give (R71, R72, R74). -/
def opcodeRows : List (CommandWord × CommandWord × (CommandWord → Instr)) :=
  let rd := fun w : CommandWord => (w.extractLsb' 8 2).toFin
  let rs1 := fun w : CommandWord => (w.extractLsb' 10 2).toFin
  let rs2 := fun w : CommandWord => (w.extractLsb' 12 2).toFin
  [(0x0001, 0xFFFF, fun _ => .fadd), (0x0002, 0xFFFF, fun _ => .fsub), (0x0003, 0xFFFF, fun _ => .fmul),
   (0x0004, 0xFFFF, fun _ => .fctr), (0x0005, 0xFFFF, fun _ => .fcan),
   (0x0010, 0xFCFF, fun w => .nttf (rd w)), (0x0011, 0xFCFF, fun w => .ntti (rd w)),
   (0x0012, 0xC0FF, fun w => .nttmul (rd w) (rs1 w) (rs2 w)),
   (0x0020, 0xC0FF, fun w => .pmul (rd w) (rs1 w) (rs2 w)), (0x0021, 0xC0FF, fun w => .psub (rd w) (rs1 w) (rs2 w)),
   (0x0022, 0xF0FF, fun w => .pctr (rd w) (rs1 w)), (0x0023, 0xF0FF, fun w => .pcan (rd w) (rs1 w)),
   (0x0030, 0xFFFF, fun _ => .kecf), (0x0031, 0xFFFF, fun _ => .shinit), (0x0032, 0xFBFF, fun w => .shabs (rs1 w)),
   (0x0033, 0xFFFF, fun _ => .shfin), (0x0034, 0xFFFF, fun _ => .shsqz),
   (0x0040, 0xFCFF, fun w => .h2p (rd w)), (0x0050, 0xFCFF, fun w => .pkdec (rd w)),
   (0x0051, 0xFCFF, fun w => .sigdec (rd w)), (0x0060, 0xC3FF, fun w => .norm (rs1 w) (rs2 w)),
   (0x0070, 0xFFFF, fun _ => .verify)]

/-- The word `(rs2 << 12) or (rs1 << 10) or (rd << 8) or op` (30_encoding.md R71, R79). -/
def wordOf (op rd rs1 rs2 : Nat) : CommandWord := BitVec.ofNat 16 (rs2 <<< 12 ||| rs1 <<< 10 ||| rd <<< 8 ||| op)

/-- No row of the opcode map matches the word. -/
def NoRowMatches (w : CommandWord) : Prop := ∀ r ∈ opcodeRows, w &&& r.2.1 ≠ r.1

/-- The numbers of the error kinds (60_exceptions.md R240). -/
def codeOf (k : ErrorKind) : Nat :=
  match k with
  | .ok => 0
  | .badLength => 1
  | .badHeader => 2
  | .badCoefficient => 3
  | .codecDesync => 4
  | .codecOverflow => 5
  | .verificationFailed => 6
  | .internalBoundExceeded => 7
  | .illegalCommand => 8
  | .operandRange => 9
  | .spongeMode => 10
  | .lengthRange => 11

/-- `RHO` by lane number, row by row as the table of 43_sponge_keccak.md R144 is printed (`y` = 0 to 4, in each `x` = 0 to 4). -/
def rho : List Nat :=
  [[0, 1, 62, 28, 27], [36, 44, 6, 55, 20], [3, 10, 43, 25, 39], [41, 45, 15, 21, 8], [18, 2, 61, 56, 14]].flatten

/-- The table of 43_sponge_keccak.md R143, row by row as it is printed: in each row three rounds with their constants. -/
def rcTable : List ((Nat × Word64) × (Nat × Word64) × (Nat × Word64)) :=
  [((0, 0x0000000000000001), (8, 0x000000000000008A), (16, 0x8000000000008002)),
   ((1, 0x0000000000008082), (9, 0x0000000000000088), (17, 0x8000000000000080)),
   ((2, 0x800000000000808A), (10, 0x0000000080008009), (18, 0x000000000000800A)),
   ((3, 0x8000000080008000), (11, 0x000000008000000A), (19, 0x800000008000000A)),
   ((4, 0x000000000000808B), (12, 0x000000008000808B), (20, 0x8000000080008081)),
   ((5, 0x0000000080000001), (13, 0x800000000000008B), (21, 0x8000000000008080)),
   ((6, 0x8000000080008081), (14, 0x8000000000008089), (22, 0x0000000080000001)),
   ((7, 0x8000000000008009), (15, 0x8000000000008003), (23, 0x8000000080008008))]

/-- `RC[r]`: the constant the table of 43_sponge_keccak.md R143 gives for round `r`. -/
def rc (r : Nat) : Word64 := ((rcTable.flatMap fun row => [row.1, row.2.1, row.2.2]).lookup r).getD 0

/-- The permutation of the all-zero state, one row of the state (`y` = 0 to 4) a line (43_sponge_keccak.md R149). -/
def permutedZero : List (List Word64) :=
  [[0xF1258F7940E1DDE7, 0x84D5CCF933C0478A, 0xD598261EA65AA9EE, 0xBD1547306F80494D, 0x8B284E056253D057],
   [0xFF97A42D7F8E6FD4, 0x90FEE5A0A44647C4, 0x8C5BDA0CD6192E76, 0xAD30A6F71B19059C, 0x30935AB7D08FFC64],
   [0xEB5AA93F2317D635, 0xA9A6E6260D712103, 0x81A57C16DBCF555F, 0x43B831CD0347C826, 0x01F22F1A11A5569F],
   [0x05E5635A21D9AE61, 0x64BEFEF28CC970F2, 0x613670957BC46611, 0xB87C5A554FD00ECB, 0x8C3EE88A1CCF32C8],
   [0x940C7922AE3A2614, 0x1841F924A2C509E4, 0x16F53526E70465C2, 0x75F644E97F30A13B, 0xEAF1FF7B5CECA249]]

/-- Two cores that differ at most in polynomial lanes that are marked never written (70_reset_and_hazards.md R262). -/
def AgreeWhereWritten (s s' : State) : Prop :=
  s' = { s with p := s'.p } ∧
    ∀ (k : PReg) (i : Nat) (h : i < 512), (s.pWritten[k])[i] = true → (s'.poly k)[i] = (s.poly k)[i]

/-- The commands that write polynomial register `k` (10_state.md R42). -/
def WritesPoly (k : PReg) (i : Instr) : Prop :=
  i = .nttf k ∨ i = .ntti k ∨ (∃ rs1 rs2, i = .nttmul k rs1 rs2) ∨ (∃ rs1 rs2, i = .pmul k rs1 rs2) ∨
    (∃ rs1 rs2, i = .psub k rs1 rs2) ∨ (∃ rs1, i = .pctr k rs1) ∨ (∃ rs1, i = .pcan k rs1) ∨ i = .h2p k ∨ i = .pkdec k ∨
    i = .sigdec k ∨ i = .verify

/-- The four byte buffers are canonical and inside their spaces (20_memory.md R50). -/
def CanonicalBuffers (s : State) : Prop :=
  Memory.wf 897 s.pkbuf = true ∧ Memory.wf 666 s.sigbuf = true ∧ Memory.wf s.msgMax s.msgbuf = true ∧
    Memory.wf 40 s.salt = true

/-- The key buffer holds a key that decodes: step 1 of `VERIFY` goes through. -/
def KeyDecodes (s : State) : Prop :=
  s.pklen.toNat = 897 ∧ ∃ l h, l.length = 897 ∧ Holds s.pkbuf l ∧ decodePk params 897 l = .ok h

/-- The signature buffer holds a signature that decodes: step 2 of `VERIFY` goes through. -/
def SignatureDecodes (s : State) : Prop :=
  s.siglen.toNat = 666 ∧ ∃ l d, l.length = 666 ∧ Holds s.sigbuf l ∧ decodeSig params 666 l = .ok d

/-- The rule of the command reads a byte of the space that nothing has written: what each command reads
(10_state.md R42, 45_codec.md R184, R195, 43_sponge_keccak.md R154, 47_verify_orchestrator.md R222). -/
def ReadsUnwritten (i : Instr) (s : State) (sp : ByteSpace) : Prop :=
  match sp with
  | .pkbuf => ((∃ rd, i = .pkdec rd) ∨ i = .verify) ∧ s.pklen.toNat = 897 ∧ ∃ j < 897, Memory.read s.pkbuf j = none
  | .sigbuf => ((∃ rd, i = .sigdec rd) ∨ i = .verify ∧ KeyDecodes s) ∧ s.siglen.toNat = 666 ∧
      ∃ j < 666, Memory.read s.sigbuf j = none
  | .salt => i = .shabs 0 ∧ s.kmode = .absorbing ∧ ∃ j < 40, Memory.read s.salt j = none
  | .msgbuf => (i = .shabs 1 ∧ s.kmode = .absorbing ∨ i = .verify ∧ KeyDecodes s ∧ SignatureDecodes s) ∧
      s.mlen.toNat ≤ s.msgMax ∧ ∃ j < s.mlen.toNat, Memory.read s.msgbuf j = none

/-- The values `verify` computes from a decoded key and signature and a challenge polynomial: the lanes of `s1`
(47_verify_orchestrator.md R220, step 4). -/
def s1Of (h : List Nat) (s2 : List Int) (c : List Nat) (i : Nat) : Int :=
  center (fsub (c.getD i 0) ((mulring (s2.map canon) h).getD i 0))

end Sys2Proof.Cert

open Sys2Proof
open Sys2Proof.Machine
open Sys2Proof.Cert

/-! ### Encoding -/

/-- Decoding the word of any well-formed command gives the command back (30_encoding.md R71 to R74). -/
def Obligations.EncodeThenDecodeIsIdentity : Prop :=
  ∀ i : Instr, i.wellFormed = true → decode (encode i) = .ok i

/-- A word that decodes is the one encoding of its command, and the command is well formed (30_encoding.md R76, D37). -/
def Obligations.DecodedWordIsItsEncoding : Prop :=
  ∀ (w : CommandWord) (i : Instr), decode w = .ok i → encode i = w ∧ i.wellFormed = true

/-- Decode is the opcode map: a matching row gives the command and its operands, no matching row means illegal, and at most
one row matches a word (30_encoding.md R74). -/
def Obligations.DecodeFollowsTheOpcodeMap : Prop :=
  ∀ w : CommandWord,
    (∀ r ∈ opcodeRows, w &&& r.2.1 = r.1 → decode w = .ok (r.2.2 w)) ∧
    (NoRowMatches w → ∃ e, decode w = .error e) ∧
    (opcodeRows.filter fun r => decide (w &&& r.2.1 = r.1)).length ≤ 1

/-- The two worked encodings of 30_encoding.md R79, both ways. -/
def Obligations.WorkedEncodings : Prop :=
  encode (.psub 3 2 3) = 0x3B21 ∧ decode 0x3B21 = .ok (.psub 3 2 3) ∧
    encode (.norm 3 1) = 0x1C60 ∧ decode 0x1C60 = .ok (.norm 3 1)

/-! ### Steps and host moves -/

/-- A step makes the next host move: with none, nothing changes; with a command word, while the core is idle, it is the
command the word decodes to, run on the state that has accepted it (30_encoding.md R70, 60_exceptions.md R255). -/
def Obligations.StepRunsTheDecodedCommand : Prop :=
  (∀ s : State, s.moves = [] → step s = .next s) ∧
    ∀ (s : State) (w : CommandWord) (rest : List HostMove) (i : Instr),
      s.moves = .cmd w :: rest → s.busy = false → decode w = .ok i →
        step s = exec i { s with moves := rest, busy := true, done := false }

/-- A word placed with `withFetchWord` is the one the next step runs (the model's convention, log 17). -/
def Obligations.PlacedWordRuns : Prop :=
  ∀ (s : State) (w : Nat) (i : Instr), decodeTableWord 16 w = some i →
    step (s.withFetchWord 16 w) = exec i { s with busy := true, done := false }

/-- An illegal word is accepted and completed with `IllegalCommand`, and no other location changes (30_encoding.md R76). -/
def Obligations.IllegalWordOnlyReports : Prop :=
  ∀ (s : State) (w : CommandWord) (rest : List HostMove), s.moves = .cmd w :: rest → s.busy = false → NoRowMatches w →
    step s = .next { s with moves := rest, err := .illegalCommand, busy := false, done := true }

/-- A command word offered while the core is busy is dropped (70_reset_and_hazards.md R267). -/
def Obligations.WordWhileBusyIsDropped : Prop :=
  ∀ (s : State) (w : CommandWord) (rest : List HostMove), s.moves = .cmd w :: rest → s.busy = true →
    step s = .next { s with moves := rest }

/-- `HostWrite` to an idle core: a writable location takes the low bits of the value and nothing else changes; a location that
is read-only to the host ignores the write (20_memory.md R59, 10_state.md R42). The marks of R262 are set for a lane. -/
def Obligations.HostWriteStoresTheLowBits : Prop :=
  ∀ (s : State) (v : Word64) (rest : List HostMove) (loc : Loc), s.moves = .write loc v :: rest → s.busy = false →
    (loc = .a → step s = .next { s with moves := rest, a := v.setWidth 16 }) ∧
    (loc = .b → step s = .next { s with moves := rest, b := v.setWidth 16 }) ∧
    (loc = .pklen → step s = .next { s with moves := rest, pklen := v.setWidth 32 }) ∧
    (loc = .siglen → step s = .next { s with moves := rest, siglen := v.setWidth 32 }) ∧
    (loc = .mlen → step s = .next { s with moves := rest, mlen := v.setWidth 32 }) ∧
    (∀ (k : PReg) (i : Nat) (h : i < 512), loc = .p k i →
      step s = .next { s with
        moves := rest, p := s.p.set k (s.p[k].set i (v.setWidth 16)),
        pWritten := s.pWritten.set k (s.pWritten[k].set i true) }) ∧
    (∀ (j : Nat) (h : j < 25), loc = .ks j → step s = .next { s with moves := rest, ks := s.ks.set j v }) ∧
    (∀ (sp : ByteSpace) (i : Nat), loc = .byte sp i → i < s.spaceSize sp →
      ∃ m, step s = .next (({ s with moves := rest } : State).setSpace sp m) ∧
        Memory.read m i = some (v.setWidth 8) ∧ ∀ j, j ≠ i → Memory.read m j = Memory.read (s.space sp) j) ∧
    (loc ∈ [Loc.r, .kcur, .kmode, .byteix, .bitoff, .normsq, .st, .accept, .err, .phase] →
      step s = .next { s with moves := rest })

/-- `HostRead` of an idle core returns the value of the location, zero-extended (the model's record of it, log 4), and changes
nothing (20_memory.md R59, R60); `ERR` reads as the number 60_exceptions.md R240 gives its kind. A byte answers where it has been
written. A polynomial lane answers whether or not it has been: where it has not, R262 claims nothing of the run, and that it goes on
is the model's choice (log 1). -/
def Obligations.HostReadReturnsAndChangesNothing : Prop :=
  ∀ (s : State) (rest : List HostMove) (loc : Loc), s.moves = .read loc :: rest → s.busy = false →
    (∀ v : Nat,
      (loc, v) ∈ [(Loc.a, s.a.toNat), (.b, s.b.toNat), (.r, s.r.toNat), (.pklen, s.pklen.toNat),
        (.siglen, s.siglen.toNat), (.mlen, s.mlen.toNat), (.kcur, s.kcur.val),
        (.kmode, if s.kmode = .squeezing then 1 else 0), (.byteix, s.byteix.toNat), (.bitoff, s.bitoff.toNat),
        (.normsq, s.normsq.toNat), (.st, if s.done then 2 else 0), (.accept, if s.accept then 1 else 0),
        (.err, codeOf s.err), (.phase, s.phase.val)] →
      step s = .next { s with moves := rest, returned := BitVec.ofNat 64 v :: s.returned }) ∧
    (∀ (k : PReg) (i : Nat) (h : i < 512), loc = .p k i →
      step s = .next { s with moves := rest, returned := ((s.poly k)[i]).setWidth 64 :: s.returned }) ∧
    (∀ (j : Nat) (h : j < 25), loc = .ks j →
      step s = .next { s with moves := rest, returned := s.ks[j] :: s.returned }) ∧
    (∀ (sp : ByteSpace) (i : Nat) (b : Byte), loc = .byte sp i → i < s.spaceSize sp →
      Memory.read (s.space sp) i = some b →
        step s = .next { s with moves := rest, returned := b.setWidth 64 :: s.returned })

/-- Where a host access stops: an index outside the space (20_memory.md R58, U6; that a write is refused too is the model's
choice, log 10), a never-written byte (70_reset_and_hazards.md R262, U1), and, while busy, any move but `HostRead(ST)`, a command
word and reset: R266 does not define it and U2 treats it as stuck; the refusal `hostMoveWhileBusy` is the model's choice
(log 11, DESIGN CHOICE). -/
def Obligations.HostAccessStops : Prop :=
  ∀ (s : State) (rest : List HostMove) (v : Word64) (sp : ByteSpace) (k : PReg) (i : Nat),
    (s.busy = false → s.spaceSize sp ≤ i →
      (s.moves = .write (.byte sp i) v :: rest → step s = .refused .indexOutOfRange) ∧
      (s.moves = .read (.byte sp i) :: rest → step s = .refused .indexOutOfRange)) ∧
    (s.busy = false → 512 ≤ i →
      (s.moves = .write (.p k i) v :: rest → step s = .refused .indexOutOfRange) ∧
      (s.moves = .read (.p k i) :: rest → step s = .refused .indexOutOfRange)) ∧
    (s.busy = false → 25 ≤ i →
      (s.moves = .write (.ks i) v :: rest → step s = .refused .indexOutOfRange) ∧
      (s.moves = .read (.ks i) :: rest → step s = .refused .indexOutOfRange)) ∧
    (s.busy = false → i < s.spaceSize sp → Memory.read (s.space sp) i = none →
      s.moves = .read (.byte sp i) :: rest → step s = .refused (.neverWritten sp)) ∧
    (s.busy = true → ∀ loc : Loc,
      (s.moves = .write loc v :: rest → step s = .refused .hostMoveWhileBusy) ∧
      (loc ≠ .st → s.moves = .read loc :: rest → step s = .refused .hostMoveWhileBusy) ∧
      (loc = .st → s.moves = .read loc :: rest →
        step s = .next { s with
          moves := rest, returned := BitVec.ofNat 64 (if s.done then 3 else 1) :: s.returned }))

/-- The reset input, at any moment, gives every location of the core its reset value (70_reset_and_hazards.md R260). The host's
coming moves, the values it has read, and the buffer size stay: the model's convention (log 5); the polynomial lanes of the
reset state are the model's choice (log 1). -/
def Obligations.ResetInputGivesTheResetState : Prop :=
  ∀ (s : State) (rest : List HostMove), s.moves = .reset :: rest →
    step s = .next { State.resetFor s.msgMax with moves := rest, returned := s.returned }

/-- The reset values 10_state.md R39 gives, for a buffer of any size: what R39 leaves unspecified is marked never written
(70_reset_and_hazards.md R262). -/
def Obligations.ResetValues : Prop :=
  State.reset = State.resetFor Config.msgMax ∧
  ∀ m : Nat, ∀ s : State, s = State.resetFor m →
    s.a = 0 ∧ s.b = 0 ∧ s.r = 0 ∧ s.pklen = 0 ∧ s.siglen = 0 ∧ s.mlen = 0 ∧
    (∀ j < 25, lane s.ks j = 0) ∧ s.kcur = 0 ∧ s.kmode = .absorbing ∧ s.byteix = 0 ∧ s.bitoff = 0 ∧ s.normsq = 0 ∧
    s.busy = false ∧ s.done = false ∧ s.accept = false ∧ s.err = .ok ∧ s.phase = 0 ∧
    (∀ sp i, Memory.read (s.space sp) i = none) ∧ (∀ (k : PReg) (i : Nat) (h : i < 512), (s.pWritten[k])[i] = false) ∧
    s.moves = []

/-- A `VERIFY` right after reset ends with `BadLength` in step 1, rejecting, and reads no buffer byte (10_state.md R43). -/
def Obligations.VerifyRightAfterReset : Prop :=
  ∀ m : Nat, (State.resetFor m).accept = false ∧ (State.resetFor m).pklen = 0 ∧ (State.resetFor m).siglen = 0 ∧
    step ((State.resetFor m).withFetchWord 16 0x0070) =
      .next { State.resetFor m with phase := 1, err := .badLength, accept := false, done := true }

/-! ### The field unit -/

/-- `fadd`, `fsub`, `fmul` on canonical values: the residue, the select form, and the range
(40_field_arithmetic.md R91, R92, R93). -/
def Obligations.FieldFunctionsAreModular : Prop :=
  ∀ a b : Nat, a < 12289 → b < 12289 →
    (fadd a b = (a + b) % 12289 ∧ fadd a b = (if a + b < 12289 then a + b else a + b - 12289) ∧ fadd a b < 12289 ∧
      a + b ≤ 24576) ∧
    ((fsub a b : Int) = ((a : Int) - b) % 12289 ∧ fsub a b = (if b ≤ a then a - b else a + 12289 - b) ∧
      fsub a b < 12289) ∧
    (fmul a b = a * b % 12289 ∧ fmul a b < 12289 ∧ a * b ≤ 150994944)

/-- The arithmetic laws of 40_field_arithmetic.md R102. -/
def Obligations.FieldLaws : Prop :=
  ∀ a b c : Nat, a < 12289 → b < 12289 → c < 12289 →
    fadd a b = fadd b a ∧ fmul a b = fmul b a ∧ fadd (fadd a b) c = fadd a (fadd b c) ∧
    fmul (fmul a b) c = fmul a (fmul b c) ∧ fmul a (fadd b c) = fadd (fmul a b) (fmul a c) ∧
    fadd a 0 = a ∧ fmul a 1 = a ∧ fmul a 0 = 0 ∧ fsub a a = 0 ∧ fsub a b = fadd a (fsub 0 b) ∧
    fsub 0 b = (if b = 0 then 0 else 12289 - b) ∧ fadd (fsub a b) b = a ∧
    (fmul a b = 0 → a = 0 ∨ b = 0) ∧ (a ≠ 0 → fmul a (a ^ (12289 - 2) % 12289) = 1)

/-- `center` and `canon`: values, ranges, congruence, bijection, and that each undoes the other
(40_field_arithmetic.md R94, R95). -/
def Obligations.CenterAndCanonAreInverse : Prop :=
  (∀ x : Nat, x < 12289 →
    center x = (if x ≤ 6144 then (x : Int) else (x : Int) - 12289) ∧ -6144 ≤ center x ∧ center x ≤ 6144 ∧
      (center x - x) % 12289 = 0 ∧ canon (center x) = x) ∧
  (∀ v : Int, -12289 < v → v < 12289 →
    (canon v : Int) = v % 12289 ∧ (canon v : Int) = (if 0 ≤ v then v else v + 12289)) ∧
  (∀ v : Int, -6144 ≤ v → v ≤ 6144 → center (canon v) = v ∧ ∃ x < 12289, center x = v) ∧
  center 6144 = 6144 ∧ center 6145 = -6144 ∧ center 12288 = -1 ∧ center 0 = 0

/-- `FADD` (40_field_arithmetic.md R97): the sum modulo 12289 in `R`, or `OperandRange`; nothing else changes. -/
def Obligations.FaddResult : Prop :=
  decode 0x0001 = .ok .fadd ∧ ∀ s : State, exec .fadd s =
    if 12289 ≤ s.a.toNat ∨ 12289 ≤ s.b.toNat then .next (ended .operandRange s)
    else .next (ended .ok { s with r := BitVec.ofNat 16 ((s.a.toNat + s.b.toNat) % 12289) })

/-- `FSUB` (40_field_arithmetic.md R98). -/
def Obligations.FsubResult : Prop :=
  decode 0x0002 = .ok .fsub ∧ ∀ s : State, exec .fsub s =
    if 12289 ≤ s.a.toNat ∨ 12289 ≤ s.b.toNat then .next (ended .operandRange s)
    else .next (ended .ok { s with r := BitVec.ofInt 16 (((s.a.toNat : Int) - s.b.toNat) % 12289) })

/-- `FMUL` (40_field_arithmetic.md R99). -/
def Obligations.FmulResult : Prop :=
  decode 0x0003 = .ok .fmul ∧ ∀ s : State, exec .fmul s =
    if 12289 ≤ s.a.toNat ∨ 12289 ≤ s.b.toNat then .next (ended .operandRange s)
    else .next (ended .ok { s with r := BitVec.ofNat 16 ((s.a.toNat * s.b.toNat) % 12289) })

/-- `FCTR` (40_field_arithmetic.md R100): `R` is the centered value in two's complement. -/
def Obligations.FctrResult : Prop :=
  decode 0x0004 = .ok .fctr ∧ ∀ s : State,
    (12289 ≤ s.a.toNat → exec .fctr s = .next (ended .operandRange s)) ∧
    (s.a.toNat < 12289 → ∃ t, exec .fctr s = .next t ∧ t = ended .ok { s with r := t.r } ∧
      t.r.toInt = if s.a.toNat ≤ 6144 then (s.a.toNat : Int) else (s.a.toNat : Int) - 12289)

/-- `FCAN` (40_field_arithmetic.md R101): `R` is the residue of the signed operand. -/
def Obligations.FcanResult : Prop :=
  decode 0x0005 = .ok .fcan ∧ ∀ s : State,
    (s.a.toInt ≤ -12289 ∨ 12289 ≤ s.a.toInt → exec .fcan s = .next (ended .operandRange s)) ∧
    (-12289 < s.a.toInt → s.a.toInt < 12289 → ∃ t, exec .fcan s = .next t ∧ t = ended .ok { s with r := t.r } ∧
      (t.r.toNat : Int) = s.a.toInt % 12289)

/-! ### The transform engine -/

/-- `NTTF rd` (41_ntt_engine.md R118): the transform of the register in place, or `OperandRange`. -/
def Obligations.NttfResult : Prop :=
  ∀ (rd : PReg) (s : State), decode (wordOf 0x10 rd 0 0) = .ok (.nttf rd) ∧
    (Canonical (s.poly rd) → ∃ t, exec (.nttf rd) s = .next t ∧
      WritesLanes s t rd fun i => ((ntt (coefs (s.poly rd))).getD i 0 : Nat)) ∧
    (¬Canonical (s.poly rd) → exec (.nttf rd) s = .next (ended .operandRange s))

/-- `NTTI rd` (41_ntt_engine.md R119). -/
def Obligations.NttiResult : Prop :=
  ∀ (rd : PReg) (s : State), decode (wordOf 0x11 rd 0 0) = .ok (.ntti rd) ∧
    (Canonical (s.poly rd) → ∃ t, exec (.ntti rd) s = .next t ∧
      WritesLanes s t rd fun i => ((intt (coefs (s.poly rd))).getD i 0 : Nat)) ∧
    (¬Canonical (s.poly rd) → exec (.ntti rd) s = .next (ended .operandRange s))

/-- `NTTMUL rd, rs1, rs2` (41_ntt_engine.md R121): the ring product of the values the sources held, whichever registers
coincide; the sources are unchanged unless one is the destination. -/
def Obligations.NttmulResult : Prop :=
  ∀ (rd rs1 rs2 : PReg) (s : State), decode (wordOf 0x12 rd rs1 rs2) = .ok (.nttmul rd rs1 rs2) ∧
    (Canonical (s.poly rs1) → Canonical (s.poly rs2) → ∃ t, exec (.nttmul rd rs1 rs2) s = .next t ∧
      WritesLanes s t rd fun i => ((mulring (coefs (s.poly rs1)) (coefs (s.poly rs2))).getD i 0 : Nat)) ∧
    (¬(Canonical (s.poly rs1) ∧ Canonical (s.poly rs2)) → exec (.nttmul rd rs1 rs2) s = .next (ended .operandRange s))

/-- The forward transform evaluates the polynomial at the odd powers of 49, in bit-reversed order (41_ntt_engine.md R117). -/
def Obligations.ForwardTransformEvaluates : Prop :=
  ∀ a : List Nat, IsCanonicalList a → ∀ i < 512,
    (ntt a).getD i 0 = (∑ j ∈ Finset.range 512, a.getD j 0 * 49 ^ ((2 * brv9 i + 1) * j)) % 12289

/-- The two transforms are inverse to each other on canonical values (41_ntt_engine.md R117). -/
def Obligations.TransformsAreInverse : Prop :=
  ∀ a : List Nat, IsCanonicalList a → intt (ntt a) = a ∧ ntt (intt a) = a

/-- The ring product by transforms is the negacyclic convolution (41_ntt_engine.md R110, R120). -/
def Obligations.RingProductIsNegacyclic : Prop :=
  ∀ a b : List Nat, IsCanonicalList a → IsCanonicalList b →
    mulring a b = intt (List.zipWith fmul (ntt a) (ntt b)) ∧ (mulring a b).length = 512 ∧
      ∀ k < 512, ((mulring a b).getD k 0 : Int) = negacyclic a b k

/-! ### The pointwise unit -/

/-- `PMUL rd, rs1, rs2` (42_pointwise.md R132). -/
def Obligations.PmulResult : Prop :=
  ∀ (rd rs1 rs2 : PReg) (s : State), decode (wordOf 0x20 rd rs1 rs2) = .ok (.pmul rd rs1 rs2) ∧
    (Canonical (s.poly rs1) → Canonical (s.poly rs2) → ∃ t, exec (.pmul rd rs1 rs2) s = .next t ∧
      WritesLanes s t rd fun i => laneInt (s.poly rs1) i * laneInt (s.poly rs2) i % 12289) ∧
    (¬(Canonical (s.poly rs1) ∧ Canonical (s.poly rs2)) → exec (.pmul rd rs1 rs2) s = .next (ended .operandRange s))

/-- `PSUB rd, rs1, rs2` (42_pointwise.md R133): `P[rs1] - P[rs2]`. -/
def Obligations.PsubResult : Prop :=
  ∀ (rd rs1 rs2 : PReg) (s : State), decode (wordOf 0x21 rd rs1 rs2) = .ok (.psub rd rs1 rs2) ∧
    (Canonical (s.poly rs1) → Canonical (s.poly rs2) → ∃ t, exec (.psub rd rs1 rs2) s = .next t ∧
      WritesLanes s t rd fun i => (laneInt (s.poly rs1) i - laneInt (s.poly rs2) i) % 12289) ∧
    (¬(Canonical (s.poly rs1) ∧ Canonical (s.poly rs2)) → exec (.psub rd rs1 rs2) s = .next (ended .operandRange s))

/-- `PCTR rd, rs1` (42_pointwise.md R134). -/
def Obligations.PctrResult : Prop :=
  ∀ (rd rs1 : PReg) (s : State), decode (wordOf 0x22 rd rs1 0) = .ok (.pctr rd rs1) ∧
    (Canonical (s.poly rs1) → ∃ t, exec (.pctr rd rs1) s = .next t ∧
      WritesLanes s t rd fun i =>
        if laneInt (s.poly rs1) i ≤ 6144 then laneInt (s.poly rs1) i else laneInt (s.poly rs1) i - 12289) ∧
    (¬Canonical (s.poly rs1) → exec (.pctr rd rs1) s = .next (ended .operandRange s))

/-- `PCAN rd, rs1` (42_pointwise.md R135). -/
def Obligations.PcanResult : Prop :=
  ∀ (rd rs1 : PReg) (s : State), decode (wordOf 0x23 rd rs1 0) = .ok (.pcan rd rs1) ∧
    (Within (-12288) 12288 (s.poly rs1) → ∃ t, exec (.pcan rd rs1) s = .next t ∧
      WritesLanes s t rd fun i => laneInt (s.poly rs1) i % 12289) ∧
    (¬Within (-12288) 12288 (s.poly rs1) → exec (.pcan rd rs1) s = .next (ended .operandRange s))

/-- `PCAN` then `PCTR` restores a centered register, `PCTR` then `PCAN` a canonical one (42_pointwise.md R136). -/
def Obligations.PcanPctrRestore : Prop :=
  ∀ (rd rs1 : PReg) (s : State),
    (Within (-6144) 6144 (s.poly rs1) → ∃ t u, exec (.pcan rd rs1) s = .next t ∧ exec (.pctr rd rd) t = .next u ∧
      u.poly rd = s.poly rs1) ∧
    (Canonical (s.poly rs1) → ∃ t u, exec (.pctr rd rs1) s = .next t ∧ exec (.pcan rd rd) t = .next u ∧
      u.poly rd = s.poly rs1)

/-! ### The sponge unit -/

/-- State byte `k` is bits `8*(k mod 8) + 7` down to `8*(k mod 8)` of lane `KS[k div 8]`, and changing it by exclusive-or
changes that byte alone (20_memory.md R55). -/
def Obligations.StateByteView : Prop :=
  ∀ (v : Lanes) (k : Nat), k < 200 →
    (∀ b < 8, (stateByte v k).getLsbD b = (lane v (k / 8)).getLsbD (8 * (k % 8) + b)) ∧
    ∀ (x : Byte), ∀ j < 200,
      stateByte (xorStateByte v k x) j = if j = k then stateByte v k ^^^ x else stateByte v j

/-- The five steps of a round, lane by lane (43_sponge_keccak.md R142, R146, R147, R148), with the rotation amounts of R144
and the slot formula of R145. -/
def Obligations.KeccakStepsFollowTheirFormulas : Prop :=
  ∀ (v : Lanes) (x y : Nat), x < 5 → y < 5 →
    let c := fun i => lane v i ^^^ lane v (i + 5) ^^^ lane v (i + 10) ^^^ lane v (i + 15) ^^^ lane v (i + 20)
    lane (theta v) (x + 5 * y) =
        lane v (x + 5 * y) ^^^ (c ((x + 4) % 5) ^^^ (c ((x + 1) % 5)).rotateLeft 1) ∧
      lane (piRho v) (y + 5 * ((2 * x + 3 * y) % 5)) =
        (lane v (x + 5 * y)).rotateLeft (rho.getD (x + 5 * y) 0) ∧
      lane (chi v) (x + 5 * y) =
        lane v (x + 5 * y) ^^^ (~~~(lane v ((x + 1) % 5 + 5 * y)) &&& lane v ((x + 2) % 5 + 5 * y)) ∧
      ∀ rc : Word64, lane (iota rc v) (x + 5 * y) =
        if x + 5 * y = 0 then lane v 0 ^^^ rc else lane v (x + 5 * y)

/-- `KECF` (43_sponge_keccak.md R152): the permutation on `KS`, with its 24 rounds and their constants (R141, R143), and
nothing else; and the check values of R149. -/
def Obligations.KecfResult : Prop :=
  decode 0x0030 = .ok .kecf ∧ (∀ s : State, exec .kecf s = .next (ended .ok { s with ks := keccakF s.ks })) ∧
    (∀ v : Lanes, keccakF v = (List.range 24).foldl (fun x r => iota (rc r) (chi (piRho (theta x)))) v) ∧
    let zero : Lanes := Vector.replicate 25 0
    (iota (rc 0) (chi (piRho (theta zero)))).toList = 1 :: List.replicate 24 0 ∧
      (keccakF zero).toList = permutedZero.flatten ∧
      (keccakF (keccakF zero)).toList.take 3 = [0x2D5C954DF96ECB3C, 0x6A332CD07057B56D, 0x093D8D1270D76B6C]

/-- `SHINIT` (43_sponge_keccak.md R153): the zero sponge, absorbing, in either mode. -/
def Obligations.ShinitResult : Prop :=
  decode 0x0031 = .ok .shinit ∧ ∀ s : State, exec .shinit s =
    .next (ended .ok { s with ks := Vector.replicate 25 0, kcur := 0, kmode := .absorbing })

/-- `SHABS sel` (43_sponge_keccak.md R154): the salt or the message is absorbed, or the command ends with `SpongeMode` or
`LengthRange` and nothing changes. A selector no word encodes ends like an illegal word (log 16). -/
def Obligations.ShabsResult : Prop :=
  decode 0x0032 = .ok (.shabs 0) ∧ decode 0x0432 = .ok (.shabs 1) ∧ ∀ (s : State) (l : List Byte),
    (s.kmode = .squeezing → exec (.shabs 0) s = .next (ended .spongeMode s) ∧
      exec (.shabs 1) s = .next (ended .spongeMode s)) ∧
    (s.kmode = .absorbing → Memory.wf 40 s.salt = true → l.length = 40 → Holds s.salt l →
      exec (.shabs 0) s = .next (ended .ok
        { s with ks := (absorb ⟨s.ks, s.kcur⟩ l).ks, kcur := (absorb ⟨s.ks, s.kcur⟩ l).cur })) ∧
    (s.kmode = .absorbing → s.msgMax < s.mlen.toNat → exec (.shabs 1) s = .next (ended .lengthRange s)) ∧
    (s.kmode = .absorbing → s.mlen.toNat ≤ s.msgMax → Memory.wf s.msgMax s.msgbuf = true →
      l.length = s.mlen.toNat → Holds s.msgbuf l →
      exec (.shabs 1) s = .next (ended .ok
        { s with ks := (absorb ⟨s.ks, s.kcur⟩ l).ks, kcur := (absorb ⟨s.ks, s.kcur⟩ l).cur })) ∧
    exec (.shabs 2) s = .next (ended .illegalCommand s) ∧ exec (.shabs 3) s = .next (ended .illegalCommand s)

/-- `absorb`, byte by byte: into the state byte at the cursor; the 136th byte permutes and starts a new block
(43_sponge_keccak.md R151). -/
def Obligations.AbsorbIsByteWise : Prop :=
  ∀ (sp : Sponge) (x : Byte) (l : List Byte), sp.cur.val < 136 →
    absorb sp [] = sp ∧ absorb sp (x :: l) = absorb (absorb sp [x]) l ∧
    (sp.cur.val < 135 → (absorb sp [x]).cur.val = sp.cur.val + 1 ∧ ∀ k < 200,
      stateByte (absorb sp [x]).ks k = if k = sp.cur.val then stateByte sp.ks k ^^^ x else stateByte sp.ks k) ∧
    (sp.cur.val = 135 → (absorb sp [x]).cur.val = 0 ∧
      (absorb sp [x]).ks = keccakF (xorStateByte sp.ks 135 x))

/-- `SHFIN` (43_sponge_keccak.md R156, R157): the suffix at the cursor and `0x80` in byte 135, both in one byte when the
cursor is there; the cursor is 136 and the sponge squeezes. -/
def Obligations.ShfinResult : Prop :=
  decode 0x0033 = .ok .shfin ∧ ∀ s : State,
    (s.kmode = .squeezing → exec .shfin s = .next (ended .spongeMode s)) ∧
    (s.kmode = .absorbing → ∃ t, exec .shfin s = .next t ∧
      t = ended .ok { s with ks := t.ks, kcur := 136, kmode := .squeezing } ∧
      ∀ k < 200, stateByte t.ks k =
        stateByte s.ks k ^^^ (if k = s.kcur.val then 0x1F#8 else 0#8) ^^^ (if k = 135 then 0x80#8 else 0#8))

/-- `SHSQZ` (43_sponge_keccak.md R158): the byte at the cursor, zero-extended, in `R`, after a permutation where the rate
portion is exhausted. -/
def Obligations.ShsqzResult : Prop :=
  decode 0x0034 = .ok .shsqz ∧ ∀ s : State,
    (s.kmode = .absorbing → exec .shsqz s = .next (ended .spongeMode s)) ∧
    (s.kmode = .squeezing → s.kcur.val < 136 → ∃ t, exec .shsqz s = .next t ∧ t.kcur.val = s.kcur.val + 1 ∧
      t = ended .ok { s with r := (stateByte s.ks s.kcur.val).setWidth 16, kcur := t.kcur }) ∧
    (s.kmode = .squeezing → s.kcur.val = 136 →
      exec .shsqz s = .next (ended .ok
        { s with ks := keccakF s.ks, kcur := 1, r := (stateByte (keccakF s.ks) 0).setWidth 16 }))

/-- The modes of the sponge (43_sponge_keccak.md R150): what the wrong mode does, and which commands move `KMODE`. A `VERIFY`
moves it too, by the `SHINIT` and `SHFIN` among its lines. -/
def Obligations.SpongeModeRules : Prop :=
  (∀ s : State, s.kmode = .squeezing →
    (∀ sel : Fin 4, sel.val < 2 → exec (.shabs sel) s = .next (ended .spongeMode s)) ∧
      exec .shfin s = .next (ended .spongeMode s)) ∧
  (∀ s : State, s.kmode = .absorbing →
    exec .shsqz s = .next (ended .spongeMode s) ∧ ∀ rd : PReg, exec (.h2p rd) s = .next (ended .spongeMode s)) ∧
  (∀ s t : State, exec .shinit s = .next t → t.kmode = .absorbing) ∧
  (∀ s t : State, exec .shfin s = .next t → t.kmode = .squeezing) ∧
  (∀ s t : State, exec .kecf s = .next t → t.kmode = s.kmode ∧ t.kcur = s.kcur) ∧
  (∀ (i : Instr) (s t : State), exec i s = .next t → t.kmode ≠ s.kmode → i = .shinit ∨ i = .shfin ∨ i = .verify)

/-! ### Hash to point -/

/-- `H2P rd` (44_hash_to_point.md R170, R173): when `k` is the number of chunks at which 512 have been accepted, the register
holds the accepted chunks modulo 12289 in order and the sponge is where `2k` squeezed bytes leave it. -/
def Obligations.H2pResult : Prop :=
  ∀ (rd : PReg) (s : State), decode (wordOf 0x40 rd 0 0) = .ok (.h2p rd) ∧
    (s.kmode = .absorbing → exec (.h2p rd) s = .next (ended .spongeMode s)) ∧
    ∀ k : Nat, s.kmode = .squeezing → (accepted k s.sponge).length = 512 →
      (∀ j < k, (accepted j s.sponge).length < 512) →
      ∃ t, exec (.h2p rd) s = .next t ∧
        (∀ i < 512, laneInt (t.poly rd) i = ((accepted k s.sponge).getD i 0 % 12289 : Nat)) ∧
        t = ended .ok { s with
          p := s.p.set rd (t.poly rd), pWritten := s.pWritten.set rd (Vector.replicate 512 true),
          ks := (squeezed (2 * k) s.sponge).2.ks, kcur := (squeezed (2 * k) s.sponge).2.cur }

/-- `H2P` stops in the model exactly where the loop of 44_hash_to_point.md R170 never ends: the fuel of R172 cuts nothing
off (log 7). -/
def Obligations.H2pStopsOnlyWhereNothingEnds : Prop :=
  ∀ (rd : PReg) (s : State), s.kmode = .squeezing →
    (exec (.h2p rd) s = .fault .sampleNeverEnds ↔ ∀ k : Nat, (accepted k s.sponge).length < 512)

/-! ### The decoders -/

/-- `PKDEC rd` (45_codec.md R183, R184): the length, then the header, then the 512 fields of 14 bits at stream positions
`8 + 14*i`; on any failure the register keeps its value. -/
def Obligations.PkdecResult : Prop :=
  ∀ (rd : PReg) (s : State), decode (wordOf 0x50 rd 0 0) = .ok (.pkdec rd) ∧
    (s.pklen.toNat ≠ 897 → exec (.pkdec rd) s = .next (ended .badLength s)) ∧
    ∀ l : List Byte, s.pklen.toNat = 897 → Memory.wf 897 s.pkbuf = true → l.length = 897 → Holds s.pkbuf l →
      (l.getD 0 0 ≠ 0x09 → exec (.pkdec rd) s = .next (ended .badHeader s)) ∧
      (l.getD 0 0 = 0x09 → (∃ i < 512, 12289 ≤ fieldAt l 14 (8 + 14 * i)) →
        exec (.pkdec rd) s = .next (ended .badCoefficient s)) ∧
      (l.getD 0 0 = 0x09 → (∀ i < 512, fieldAt l 14 (8 + 14 * i) < 12289) →
        ∃ t, exec (.pkdec rd) s = .next t ∧ WritesLanes s t rd fun i => (fieldAt l 14 (8 + 14 * i) : Nat))

/-- `SIGDEC rd` (45_codec.md R194, R195, R196), against the decoder written by stream positions: on success the salt and the
register are written, on failure only the cursor, `ERR` and `ST`. -/
def Obligations.SigdecResult : Prop :=
  ∀ (rd : PReg) (s : State), decode (wordOf 0x51 rd 0 0) = .ok (.sigdec rd) ∧
    (s.siglen.toNat ≠ 666 → exec (.sigdec rd) s = .next (ended .badLength { s with byteix := 0, bitoff := 0 })) ∧
    ∀ l : List Byte, s.siglen.toNat = 666 → Memory.wf 666 s.sigbuf = true → l.length = 666 → Holds s.sigbuf l →
      (∀ k p, specSig l = .error (k, p) → exec (.sigdec rd) s =
        .next (ended k { s with byteix := BitVec.ofNat 16 (p / 8), bitoff := BitVec.ofNat 3 (p % 8) })) ∧
      (∀ vs p, specSig l = .ok (vs, p) → ∃ t, exec (.sigdec rd) s = .next t ∧
        (∀ i < 512, laneInt (t.poly rd) i = vs.getD i 0) ∧
        (∀ j < 40, Memory.read t.salt j = some (l.getD (1 + j) 0)) ∧
        (∀ j, 40 ≤ j → Memory.read t.salt j = Memory.read s.salt j) ∧
        t = ended .ok { s with
          p := s.p.set rd (t.poly rd), pWritten := s.pWritten.set rd (Vector.replicate 512 true), salt := t.salt,
          byteix := BitVec.ofNat 16 (p / 8), bitoff := BitVec.ofNat 3 (p % 8) })

/-- Decoding an encoded key, or an encoded signature whose code fits, gives it back (45_codec.md R199). -/
def Obligations.DecodeUndoesEncode : Prop :=
  (∀ h : List Nat, IsCanonicalList h → decodePk params 897 (encodePk h) = .ok h) ∧
    ∀ (salt : List Byte) (s2 : List Int), salt.length = 40 → s2.length = 512 →
      (∀ v ∈ s2, -2047 ≤ v ∧ v ≤ 2047) → (sigBody s2).length ≤ 5000 →
      decodeSig params 666 (encodeSig salt s2) = .ok ⟨salt, s2, 328 + (sigBody s2).length⟩

/-- An accepted key or signature is the one encoding of what it decodes to, so that two different accepted byte strings never
decode to the same result (45_codec.md R199, R192). -/
def Obligations.AcceptedBytesAreTheOnlyEncoding : Prop :=
  (∀ (l : List Byte) (h : List Nat), l.length = 897 → decodePk params 897 l = .ok h → encodePk h = l) ∧
    ∀ (l : List Byte) (d : DecodedSig), l.length = 666 → decodeSig params 666 l = .ok d →
      encodeSig d.salt d.s2 = l ∧ d.pos = 328 + (sigBody d.s2).length ∧ (sigBody d.s2).length ≤ 5000 ∧
        ∀ v ∈ d.s2, -2047 ≤ v ∧ v ≤ 2047

/-! ### The norm checker -/

/-- `NORM rs1, rs2` (46_norm_check.md R211, R213): the sum in `NORMSQ`, which it fits without wrapping, `ACCEPT` and `ERR` by
the bound; or `OperandRange` with `ACCEPT` cleared and `NORMSQ` kept. -/
def Obligations.NormResult : Prop :=
  ∀ (rs1 rs2 : PReg) (s : State), decode (wordOf 0x60 0 rs1 rs2) = .ok (.norm rs1 rs2) ∧
    let n := normOf (laneInt (s.poly rs1)) (laneInt (s.poly rs2))
    (Within (-6144) 12288 (s.poly rs1) → Within (-6144) 12288 (s.poly rs2) →
      n ≤ 38654705664 ∧ ∃ t, exec (.norm rs1 rs2) s = .next t ∧ t.normsq.toNat = n ∧
        t = ended (if n ≤ 34034726 then .ok else .verificationFailed)
          { s with normsq := t.normsq, accept := decide (n ≤ 34034726) }) ∧
    (¬(Within (-6144) 12288 (s.poly rs1) ∧ Within (-6144) 12288 (s.poly rs2)) →
      exec (.norm rs1 rs2) s = .next (ended .operandRange { s with accept := false }))

/-! ### The orchestrator -/

/-- `VERIFY` computes the `verify` function of 47_verify_orchestrator.md R220 and leaves the end state of R223, or, above the
bound, that of a stop in step 5 (R222, R224): with a key and a signature that decode, a message that fits, and a sampling loop
that ends, it completes, and accepts exactly when the squared norm is within the bound. -/
def Obligations.VerifyComputesVerify : Prop :=
  ∀ (s : State) (pk sg m : List Byte) (h : List Nat) (d : DecodedSig) (c : List Nat) (sp : Sponge),
    Memory.wf 897 s.pkbuf = true → Memory.wf 666 s.sigbuf = true → Memory.wf s.msgMax s.msgbuf = true →
    Memory.wf 40 s.salt = true →
    s.pklen.toNat = 897 → pk.length = 897 → Holds s.pkbuf pk →
    s.siglen.toNat = 666 → sg.length = 666 → Holds s.sigbuf sg →
    s.mlen.toNat ≤ s.msgMax → m.length = s.mlen.toNat → Holds s.msgbuf m →
    decodePk params 897 pk = .ok h → decodeSig params 666 sg = .ok d →
    sample sampleFuel 512 (finishSponge (absorb emptySponge (d.salt ++ m))) [] = some (c, sp) →
    let n := normOf (s1Of h d.s2 c) (fun i => d.s2.getD i 0)
    ∃ t, exec .verify s = .next t ∧
      t.accept = decide (n ≤ 34034726) ∧ t.err = (if n ≤ 34034726 then .ok else .verificationFailed) ∧
      t.phase = (if n ≤ 34034726 then 6 else 5) ∧ t.normsq.toNat = n ∧
      (∀ i < 512, laneInt (t.poly 0) i = (h.getD i 0 : Nat) ∧ laneInt (t.poly 1) i = d.s2.getD i 0 ∧
        laneInt (t.poly 2) i = (c.getD i 0 : Nat) ∧ laneInt (t.poly 3) i = s1Of h d.s2 c i) ∧
      (∀ j < 40, Memory.read t.salt j = some (d.salt.getD j 0)) ∧
      t = ended t.err { s with
        p := t.p, pWritten := Vector.replicate 4 (Vector.replicate 512 true), salt := t.salt, ks := sp.ks, kcur := sp.cur,
        kmode := .squeezing, byteix := BitVec.ofNat 16 (d.pos / 8), bitoff := BitVec.ofNat 3 (d.pos % 8),
        normsq := t.normsq, accept := t.accept, phase := t.phase }

/-- What a rejecting `VERIFY` has written, by the step that stopped it (47_verify_orchestrator.md R224): in step 3 the sponge is
the empty one with the 40 salt bytes of the signature absorbed; in step 3 and 5 `SALT` holds those bytes. -/
def Obligations.RejectingVerifyWrites : Prop :=
  ∀ s t : State, exec .verify s = .next t → t.accept = false →
    (t.phase = 1 ∧ t.err ∈ [ErrorKind.badLength, .badHeader, .badCoefficient] ∧
      t = ended t.err { s with phase := 1, accept := false }) ∨
    (t.phase = 2 ∧ t.err ∈ [ErrorKind.badLength, .badHeader, .badCoefficient, .codecDesync, .codecOverflow,
        .internalBoundExceeded] ∧
      t = ended t.err { s with
        phase := 2, accept := false, p := s.p.set 0 (t.poly 0),
        pWritten := s.pWritten.set 0 (Vector.replicate 512 true), byteix := t.byteix, bitoff := t.bitoff }) ∨
    (t.phase = 3 ∧ t.err = .lengthRange ∧ s.msgMax < s.mlen.toNat ∧
      (∃ salt : List Byte, salt.length = 40 ∧ (∀ j < 40, Memory.read s.sigbuf (1 + j) = some (salt.getD j 0)) ∧
        (∀ j < 40, Memory.read t.salt j = some (salt.getD j 0)) ∧ t.ks = (absorb emptySponge salt).ks) ∧
      t = ended t.err { s with
        phase := 3, accept := false, p := (s.p.set 0 (t.poly 0)).set 1 (t.poly 1),
        pWritten := (s.pWritten.set 0 (Vector.replicate 512 true)).set 1 (Vector.replicate 512 true),
        byteix := t.byteix, bitoff := t.bitoff, salt := t.salt, ks := t.ks, kcur := 40, kmode := .absorbing }) ∨
    (t.phase = 5 ∧ t.err = .verificationFailed ∧ 34034726 < t.normsq.toNat ∧
      (∀ j < 40, Memory.read t.salt j = Memory.read s.sigbuf (1 + j)) ∧
      t = ended t.err { s with
        phase := 5, accept := false, p := t.p, pWritten := Vector.replicate 4 (Vector.replicate 512 true),
        byteix := t.byteix, bitoff := t.bitoff, salt := t.salt, ks := t.ks, kcur := t.kcur, kmode := .squeezing,
        normsq := t.normsq })

/-- After a completed `VERIFY` exactly one of accept and reject holds, each in one form (47_verify_orchestrator.md R228). -/
def Obligations.VerifyAcceptsOrRejects : Prop :=
  ∀ s t : State, exec .verify s = .next t →
    (t.accept = true ∧ t.err = .ok ∧ t.phase = 6 ∧ t.normsq.toNat ≤ 34034726) ∨
    (t.accept = false ∧
      t.err ∈ [ErrorKind.badLength, .badHeader, .badCoefficient, .codecDesync, .codecOverflow, .verificationFailed,
        .internalBoundExceeded, .lengthRange] ∧ t.phase ∈ [(1 : Fin 7), 2, 3, 5])

/-- The outcome of a `VERIFY` depends on its six inputs alone (47_verify_orchestrator.md R229), for one buffer size: two cores
that agree on them end alike, and agree on `ACCEPT`, `ERR`, `PHASE`, and on `NORMSQ` where step 5 was reached. (R229 also lists
`NORMSQ`; R224 leaves it unwritten before step 5, so that nothing is said of it there, log 14.) The salt buffers are canonical. -/
def Obligations.VerifyDependsOnSixInputs : Prop :=
  ∀ s s' : State, s.pklen = s'.pklen → s.pkbuf = s'.pkbuf → s.siglen = s'.siglen → s.sigbuf = s'.sigbuf →
    s.mlen = s'.mlen → s.msgbuf = s'.msgbuf → s.msgMax = s'.msgMax →
    Memory.wf 40 s.salt = true → Memory.wf 40 s'.salt = true →
    (∀ t, exec .verify s = .next t → ∃ t', exec .verify s' = .next t' ∧ t.accept = t'.accept ∧ t.err = t'.err ∧
      t.phase = t'.phase ∧ ((t.phase = 5 ∨ t.phase = 6) → t.normsq = t'.normsq)) ∧
    (∀ r, exec .verify s = .fault r → exec .verify s' = .fault r) ∧
    (∀ r, exec .verify s = .refused r → exec .verify s' = .refused r)

/-! ### The whole machine -/

/-- What no command writes, and which commands alone write each other location (10_state.md R42, R21, R33, R35). `ERR` and `ST`
are written by every command. Of a polynomial register the marks of 70_reset_and_hazards.md R262 are written with its lanes. -/
def Obligations.CommandsWriteOnlyTheirLocations : Prop :=
  ∀ (i : Instr) (s t : State), exec i s = .next t →
    t.a = s.a ∧ t.b = s.b ∧ t.pkbuf = s.pkbuf ∧ t.sigbuf = s.sigbuf ∧ t.msgbuf = s.msgbuf ∧ t.pklen = s.pklen ∧
    t.siglen = s.siglen ∧ t.mlen = s.mlen ∧ t.msgMax = s.msgMax ∧ t.moves = s.moves ∧ t.returned = s.returned ∧
    (t.r ≠ s.r → i = .fadd ∨ i = .fsub ∨ i = .fmul ∨ i = .fctr ∨ i = .fcan ∨ i = .shsqz) ∧
    (∀ k : PReg, t.poly k ≠ s.poly k ∨ t.pWritten[k] ≠ s.pWritten[k] → WritesPoly k i) ∧
    (t.salt ≠ s.salt → i = .verify ∨ ∃ rd, i = .sigdec rd) ∧
    (t.byteix ≠ s.byteix ∨ t.bitoff ≠ s.bitoff → i = .verify ∨ ∃ rd, i = .sigdec rd) ∧
    (t.ks ≠ s.ks → i = .kecf ∨ i = .shinit ∨ (∃ sel, i = .shabs sel) ∨ i = .shfin ∨ i = .shsqz ∨
      (∃ rd, i = .h2p rd) ∨ i = .verify) ∧
    (t.kcur ≠ s.kcur → i = .shinit ∨ (∃ sel, i = .shabs sel) ∨ i = .shfin ∨ i = .shsqz ∨ (∃ rd, i = .h2p rd) ∨
      i = .verify) ∧
    (t.kmode ≠ s.kmode → i = .shinit ∨ i = .shfin ∨ i = .verify) ∧
    (t.accept ≠ s.accept ∨ t.normsq ≠ s.normsq → i = .verify ∨ ∃ rs1 rs2, i = .norm rs1 rs2) ∧
    (t.phase ≠ s.phase → i = .verify)

/-- Every command ends in a next state with `ST` idle and done, but for the stops the spec gives: the sampling loop that never
ends (60_exceptions.md R245), and a never-written byte of a buffer (70_reset_and_hazards.md R262). A command that reads a
polynomial lane never written, of which R262 claims nothing, ends as well: the model's choice (log 1). -/
def Obligations.EveryCommandEnds : Prop :=
  ∀ (i : Instr) (s : State),
    (∃ t, exec i s = .next t ∧ t.busy = false ∧ t.done = true) ∨
    (exec i s = .fault .sampleNeverEnds ∧ (i = .verify ∨ ∃ rd, i = .h2p rd)) ∨
    (∃ sp, exec i s = .refused (.neverWritten sp) ∧
      (i = .verify ∨ (∃ sel, i = .shabs sel) ∨ (∃ rd, i = .pkdec rd) ∨ ∃ rd, i = .sigdec rd))

/-- A command that ends with an error writes `ERR` and `ST` and nothing else, but for the three commands that say so
(60_exceptions.md R241); the steps a `VERIFY` completed keep their results by `RejectingVerifyWrites`. -/
def Obligations.FailingCommandsWriteNothingElse : Prop :=
  ∀ (i : Instr) (s t : State), exec i s = .next t → t.err ≠ .ok →
    ((∀ rd, i ≠ .sigdec rd) → (∀ rs1 rs2, i ≠ .norm rs1 rs2) → i ≠ .verify → t = ended t.err s) ∧
    (∀ rd, i = .sigdec rd → t = ended t.err { s with byteix := t.byteix, bitoff := t.bitoff }) ∧
    (∀ rs1 rs2, i = .norm rs1 rs2 → t.err ≠ .verificationFailed → t = ended t.err { s with accept := false }) ∧
    (i = .verify → t.accept = false ∧ t.phase.val ≠ 0 ∧ t.phase.val ≠ 6)

/-- A command whose rule reads a never-written byte of a buffer is refused, before any check that would read it, and a command
that does not read the buffer is not: with canonical buffers a command is refused for a space exactly where it reads such a byte
of it, and for nothing else (70_reset_and_hazards.md R262). That it is not refused for a polynomial lane never written is the
model's choice (log 1); of those `NeverWrittenLanesHaveNoInfluence` speaks. -/
def Obligations.NeverWrittenBytesAreRefused : Prop :=
  ∀ (s : State) (rd : PReg),
    (Memory.wf 897 s.pkbuf = true → s.pklen.toNat = 897 → (∃ j < 897, Memory.read s.pkbuf j = none) →
      exec (.pkdec rd) s = .refused (.neverWritten .pkbuf) ∧ exec .verify s = .refused (.neverWritten .pkbuf)) ∧
    (Memory.wf 666 s.sigbuf = true → s.siglen.toNat = 666 → (∃ j < 666, Memory.read s.sigbuf j = none) →
      exec (.sigdec rd) s = .refused (.neverWritten .sigbuf)) ∧
    (Memory.wf 40 s.salt = true → s.kmode = .absorbing → (∃ j < 40, Memory.read s.salt j = none) →
      exec (.shabs 0) s = .refused (.neverWritten .salt)) ∧
    (Memory.wf s.msgMax s.msgbuf = true → s.kmode = .absorbing → s.mlen.toNat ≤ s.msgMax →
      (∃ j < s.mlen.toNat, Memory.read s.msgbuf j = none) → exec (.shabs 1) s = .refused (.neverWritten .msgbuf)) ∧
    (CanonicalBuffers s → ∀ i : Instr,
      (∀ sp, exec i s = .refused (.neverWritten sp) ↔ ReadsUnwritten i s sp) ∧
      ∀ r, exec i s = .refused r → ∃ sp, r = .neverWritten sp)

/-- The reset state meets the invariant, whatever the buffer size. -/
def Obligations.ResetStateIsSafe : Prop := ∀ m : Nat, Safety.Inv (State.resetFor m)

/-- Every step keeps the invariant: canonical buffers, the cursor inside the rate portion while absorbing, an idle core, the
codec cursor inside the signature, a norm that has not wrapped, `ACCEPT` only within the bound, `PHASE` never 4 (20_memory.md
R50, 43_sponge_keccak.md R151, 10_state.md R31, 45_codec.md R196, 46_norm_check.md R213, 47_verify_orchestrator.md R226). -/
def Obligations.StepKeepsTheInvariant : Prop :=
  ∀ s t : State, Safety.Inv s → step s = .next t → Safety.Inv t

/-- What a never-written polynomial lane holds has no influence on a step to which 70_reset_and_hazards.md R262 gives a meaning: two
cores that differ only in such lanes step alike, and afterwards differ only in lanes that are still never written. So the bits
the model gives such a lane at reset (log 1) can show in no run of such steps. -/
def Obligations.NeverWrittenLanesHaveNoInfluence : Prop :=
  ∀ s s' : State, AgreeWhereWritten s s' → Safety.meaningful s = true →
    (∀ t, step s = .next t → ∃ t', step s' = .next t' ∧ AgreeWhereWritten t t') ∧
    (∀ r, step s = .fault r → step s' = .fault r) ∧
    (∀ r, step s = .refused r → step s' = .refused r)
end

