-- ==== Sys2Proof/Laws/Memory.lean ====
section
/-! SUPPORT. The laws of byte memory: a read after a write, the canonical form, and what `memRead` and `memWrite` do. -/

namespace Sys2Proof.Machine

theorem read_write_same (m : Memory) (i : Nat) (b : Byte) : Memory.read (Memory.write m i b) i = some b := by
  induction m with
  | nil => simp [Memory.write, Memory.read]
  | cons c rest ih =>
    obtain ⟨x, v⟩ := c
    unfold Memory.write
    split
    · simp [Memory.read]
    · split
      · simp [Memory.read]
      · rename_i h1 h2
        simp [Memory.read, Ne.symm h2, ih]

theorem read_write_other (m : Memory) (i j : Nat) (b : Byte) (h : j ≠ i) :
    Memory.read (Memory.write m i b) j = Memory.read m j := by
  induction m with
  | nil => simp [Memory.write, Memory.read, Ne.symm h]
  | cons c rest ih =>
    obtain ⟨x, v⟩ := c
    unfold Memory.write
    split
    · simp [Memory.read, Ne.symm h]
    · split
      · rename_i h1 h2
        subst h2
        simp [Memory.read, Ne.symm h]
      · simp [Memory.read, ih]

theorem sortedFrom_mono (m : Memory) (lo lo' : Nat) (h : lo' ≤ lo) (hs : Memory.sortedFrom lo m = true) :
    Memory.sortedFrom lo' m = true := by
  cases m with
  | nil => rfl
  | cons c rest =>
    obtain ⟨x, v⟩ := c
    simp only [Memory.sortedFrom, Bool.and_eq_true, decide_eq_true_eq] at hs ⊢
    exact ⟨by omega, hs.2⟩

theorem sortedFrom_write (m : Memory) (lo i : Nat) (b : Byte) (h : lo ≤ i) (hs : Memory.sortedFrom lo m = true) :
    Memory.sortedFrom lo (Memory.write m i b) = true := by
  induction m generalizing lo with
  | nil => simp [Memory.write, Memory.sortedFrom, h]
  | cons c rest ih =>
    obtain ⟨x, v⟩ := c
    simp only [Memory.sortedFrom, Bool.and_eq_true, decide_eq_true_eq] at hs
    unfold Memory.write
    split
    · simp only [Memory.sortedFrom, Bool.and_eq_true, decide_eq_true_eq]
      exact ⟨h, by omega, hs.2⟩
    · split
      · rename_i h1 h2
        subst h2
        simp only [Memory.sortedFrom, Bool.and_eq_true, decide_eq_true_eq]
        exact ⟨h, hs.2⟩
      · simp only [Memory.sortedFrom, Bool.and_eq_true, decide_eq_true_eq]
        exact ⟨hs.1, ih _ (by omega) hs.2⟩

theorem mem_write (m : Memory) (i : Nat) (b : Byte) (c : Host.Cell) (h : c ∈ Memory.write m i b) :
    c = (i, b) ∨ c ∈ m := by
  induction m with
  | nil => simpa [Memory.write] using h
  | cons d rest ih =>
    obtain ⟨x, v⟩ := d
    unfold Memory.write at h
    split at h
    · simpa using h
    · split at h
      · rcases List.mem_cons.mp h with h | h
        · exact .inl h
        · exact .inr (List.mem_cons_of_mem _ h)
      · rcases List.mem_cons.mp h with h | h
        · exact .inr (h ▸ List.mem_cons_self)
        · rcases ih h with h | h
          · exact .inl h
          · exact .inr (List.mem_cons_of_mem _ h)

/-- A write inside the space keeps the canonical form. -/
theorem write_wf (size : Nat) (m : Memory) (i : Nat) (b : Byte) (hi : i < size) (h : Memory.wf size m = true) :
    Memory.wf size (Memory.write m i b) = true := by
  simp only [Memory.wf, Bool.and_eq_true, List.all_eq_true, decide_eq_true_eq] at h ⊢
  refine ⟨sortedFrom_write m 0 i b (Nat.zero_le _) h.1, fun c hc => ?_⟩
  rcases mem_write m i b c hc with rfl | hc
  · exact hi
  · exact h.2 c hc

/-- Writing a run of bytes inside the space keeps the canonical form. -/
theorem memWrite_wf (size : Nat) (m : Memory) (i : Nat) (l : List Byte) (hi : i + l.length ≤ size)
    (h : Memory.wf size m = true) : Memory.wf size (memWrite m i l) = true := by
  induction l generalizing m i with
  | nil => exact h
  | cons v rest ih =>
    simp only [List.length_cons] at hi
    exact ih _ _ (by omega) (write_wf size m i v (by omega) h)

theorem read_memWrite_before (m : Memory) (i j : Nat) (l : List Byte) (h : j < i) :
    Memory.read (memWrite m i l) j = Memory.read m j := by
  induction l generalizing m i with
  | nil => rfl
  | cons v rest ih =>
    rw [memWrite, ih _ _ (by omega), read_write_other _ _ _ _ (by omega)]

/-- What a run of bytes reads as after it is written: the bytes inside the run, the old contents outside it. -/
theorem read_memWrite (m : Memory) (i j : Nat) (l : List Byte) :
    Memory.read (memWrite m i l) j = if h : i ≤ j ∧ j < i + l.length then some (l[j - i]'(by omega)) else Memory.read m j := by
  induction l generalizing m i with
  | nil =>
    have : ¬(i ≤ j ∧ j < i + ([] : List Byte).length) := by simp
    rw [dif_neg this]
    rfl
  | cons v rest ih =>
    rw [memWrite]
    by_cases hj : j = i
    · subst hj
      rw [read_memWrite_before _ _ _ _ (by omega), read_write_same]
      simp
    · rw [ih, read_write_other _ _ _ _ hj]
      by_cases h : i + 1 ≤ j ∧ j < i + 1 + rest.length
      · have h' : i ≤ j ∧ j < i + (v :: rest).length := by simp only [List.length_cons]; omega
        rw [dif_pos h, dif_pos h']
        have e : j - i = (j - (i + 1)) + 1 := by omega
        simp [e]
      · have h' : ¬(i ≤ j ∧ j < i + (v :: rest).length) := by simp only [List.length_cons]; omega
        rw [dif_neg h, dif_neg h']

theorem read_none_of_sortedFrom (m : Memory) (lo i : Nat) (h : i < lo) (hs : Memory.sortedFrom lo m = true) :
    Memory.read m i = none := by
  induction m generalizing lo with
  | nil => rfl
  | cons c rest ih =>
    obtain ⟨x, v⟩ := c
    simp only [Memory.sortedFrom, Bool.and_eq_true, decide_eq_true_eq] at hs
    have : x ≠ i := by omega
    simp [Memory.read, this, ih (x + 1) (by omega) hs.2]

/-- `Memory.scan` in one sentence: it answers `l` exactly when `l` are the `k` bytes the memory reads as from `i` on. -/
theorem scan_eq_some (m : Memory) (i k : Nat) (l : List Byte) (hs : Memory.sortedFrom i m = true) :
    Memory.scan m i k = some l ↔ l.length = k ∧ ∀ j (h : j < l.length), Memory.read m (i + j) = some l[j] := by
  induction k generalizing m i l with
  | zero =>
    have e : Memory.scan m i 0 = some [] := by cases m <;> rfl
    rw [e]
    constructor
    · intro h
      cases h
      exact ⟨rfl, fun j hj => absurd hj (by simp)⟩
    · rintro ⟨hl, -⟩
      rw [List.length_eq_zero_iff.mp hl]
  | succ k ih =>
    cases m with
    | nil =>
      simp only [Memory.scan, Memory.read, reduceCtorEq, false_iff]
      rintro ⟨hl, h⟩
      exact absurd (h 0 (by omega)) (by simp)
    | cons c rest =>
      obtain ⟨x, v⟩ := c
      simp only [Memory.sortedFrom, Bool.and_eq_true, decide_eq_true_eq] at hs
      have hrest : ∀ j, i + 1 ≤ j → x = i → Memory.read ((x, v) :: rest) j = Memory.read rest j := by
        intro j hj hx
        have : x ≠ j := by omega
        simp [Memory.read, this]
      simp only [Memory.scan]
      split
      · rename_i hx
        have hs' : Memory.sortedFrom (i + 1) rest = true := hx ▸ hs.2
        rw [Option.map_eq_some_iff]
        constructor
        · rintro ⟨t, ht, rfl⟩
          obtain ⟨hl, h⟩ := (ih rest (i + 1) t hs').mp ht
          refine ⟨by simp [hl], fun j hj => ?_⟩
          cases j with
          | zero => simp [Memory.read, hx]
          | succ j =>
            rw [hrest _ (by omega) hx]
            have := h j (by simpa using hj)
            rw [show i + 1 + j = i + (j + 1) by omega] at this
            simpa using this
        · rintro ⟨hl, h⟩
          cases l with
          | nil => simp at hl
          | cons w t =>
            have h0 := h 0 (by simp)
            simp [Memory.read, hx] at h0
            refine ⟨t, (ih rest (i + 1) t hs').mpr ⟨by simpa using hl, fun j hj => ?_⟩, by rw [h0]⟩
            have := h (j + 1) (by simpa using hj)
            rw [hrest _ (by omega) hx] at this
            rw [show i + 1 + j = i + (j + 1) by omega, this]
            simp
      · rename_i hx
        simp only [reduceCtorEq, false_iff]
        rintro ⟨hl, h⟩
        have h0 := h 0 (by omega)
        rw [show i + 0 = i by omega, Memory.read, if_neg hx,
          read_none_of_sortedFrom rest (x + 1) i (by omega) hs.2] at h0
        simp at h0

/-- What `memRead` answers: `l` exactly when `l` are the bytes `0 .. k-1` (00_scope.md R13). -/
theorem memRead_eq_some (size : Nat) (m : Memory) (k : Nat) (l : List Byte) (hw : Memory.wf size m = true) :
    memRead m k = some l ↔ l.length = k ∧ ∀ j (h : j < l.length), Memory.read m j = some l[j] := by
  simp only [Memory.wf, Bool.and_eq_true] at hw
  have := scan_eq_some m 0 k l hw.1
  simpa [memRead] using this

/-- `memRead` fails exactly when one of its bytes has never been written (70_reset_and_hazards.md R262). -/
theorem memRead_eq_none (size : Nat) (m : Memory) (k : Nat) (hw : Memory.wf size m = true) :
    memRead m k = none ↔ ∃ j < k, Memory.read m j = none := by
  constructor
  · intro h
    by_contra hc
    push Not at hc
    have hex : ∀ j (hj : j < k), ∃ v, Memory.read m j = some v := fun j hj =>
      Option.ne_none_iff_exists'.mp (hc j hj)
    have : memRead m k = some ((List.range k).map fun j => (Memory.read m j).getD 0) := by
      refine (memRead_eq_some size m k _ hw).mpr ⟨by simp, fun j hj => ?_⟩
      obtain ⟨v, hv⟩ := hex j (by simpa using hj)
      simp [hv]
    rw [h] at this
    simp at this
  · rintro ⟨j, hj, hn⟩
    cases h : memRead m k with
    | none => rfl
    | some l =>
      obtain ⟨hl, hr⟩ := (memRead_eq_some size m k l hw).mp h
      have := hr j (by omega)
      rw [hn] at this
      simp at this

/-- The bytes of a successful `memRead` are as many as asked for, whatever the memory. -/
theorem length_scan (m : Memory) (i k : Nat) (l : List Byte) (h : Memory.scan m i k = some l) : l.length = k := by
  induction k generalizing m i l with
  | zero => cases m <;> simp [Memory.scan] at h <;> simp [h]
  | succ k ih =>
    cases m with
    | nil => simp [Memory.scan] at h
    | cons c rest =>
      obtain ⟨x, v⟩ := c
      simp only [Memory.scan] at h
      split at h
      · obtain ⟨t, ht, rfl⟩ := Option.map_eq_some_iff.mp h
        simp [ih rest _ t ht]
      · simp at h

theorem length_memRead (m : Memory) (k : Nat) (l : List Byte) (h : memRead m k = some l) : l.length = k :=
  length_scan m 0 k l h

/-- Everything `readDeclared` can answer (45_codec.md R182). -/
theorem readDeclared_cases (m : Memory) (declared fixed : Nat) :
    (declared ≠ fixed ∧ readDeclared m declared fixed = some []) ∨
      (declared = fixed ∧ readDeclared m declared fixed = memRead m fixed) := by
  unfold readDeclared
  split
  · exact .inr ⟨by assumption, rfl⟩
  · exact .inl ⟨by assumption, rfl⟩

end Sys2Proof.Machine
end

