-- ==== Sys2Proof/Laws/Vectors.lean ====
section
/-! SUPPORT. What `tabulate`, `fitVector` and the lane readers and writers give, element by element. -/

namespace Sys2Proof.Machine

@[simp] theorem getElem_tabulate {α : Type} (n : Nat) (f : Nat → α) (i : Nat) (h : i < n) :
    (tabulate n f)[i] = f i := by
  simp [tabulate]

@[simp] theorem toList_tabulate {α : Type} (n : Nat) (f : Nat → α) :
    (tabulate n f).toList = (List.range n).map f := rfl

/-- A list of the right length is stored whole. -/
theorem toList_fitVector {α : Type} (n : Nat) (d : α) (l : List α) (h : l.length = n) :
    (fitVector n d l).toList = l := by
  show (l ++ List.replicate n d).take n = l
  simp [← h]

theorem getElem_fitVector {α : Type} (n : Nat) (d : α) (l : List α) (h : l.length = n) (i : Nat) (hi : i < n) :
    (fitVector n d l)[i] = l[i] := by
  have e := toList_fitVector n d l h
  have : (fitVector n d l)[i] = (fitVector n d l).toList[i]'(by simpa using hi) := by simp
  rw [this]
  simp [e]

/-- A small natural number survives the trip through a 16-bit lane. -/
theorem toInt_ofNat16 (x : Nat) (h : x < 2 ^ 15) : (BitVec.ofNat 16 x).toInt = x := by
  rw [BitVec.toInt_eq_toNat_of_lt] <;> simp <;> omega

/-- A small integer survives the trip through a 16-bit lane. -/
theorem toInt_ofInt16 (v : Int) (h1 : -(2 ^ 15) ≤ v) (h2 : v < 2 ^ 15) : (BitVec.ofInt 16 v).toInt = v := by
  rw [BitVec.toInt_ofInt, Int.bmod_def]
  omega

@[simp] theorem length_signedLanes (v : Poly) : (signedLanes v).length = 512 := by simp [signedLanes]

theorem getElem_signedLanes (v : Poly) (i : Nat) (h : i < 512) :
    (signedLanes v)[i]'(by simpa using h) = v[i].toInt := by
  simp [signedLanes]

/-- Lanes written from small non-negative coefficients read back. -/
theorem toInt_polyOfNats (l : List Nat) (h : l.length = 512) (hb : ∀ x ∈ l, x < 2 ^ 15) (i : Nat) (hi : i < 512) :
    (polyOfNats l)[i].toInt = (l[i] : Nat) := by
  unfold polyOfNats
  rw [getElem_fitVector _ _ _ (by simpa using h)]
  simp only [List.getElem_map]
  exact toInt_ofNat16 _ (hb _ (List.getElem_mem _))

/-- Lanes written from small signed coefficients read back. -/
theorem toInt_polyOfInts (l : List Int) (h : l.length = 512) (hb : ∀ x ∈ l, -(2 ^ 15) ≤ x ∧ x < 2 ^ 15) (i : Nat)
    (hi : i < 512) : (polyOfInts l)[i].toInt = l[i] := by
  unfold polyOfInts
  rw [getElem_fitVector _ _ _ (by simpa using h)]
  simp only [List.getElem_map]
  exact toInt_ofInt16 _ (hb _ (List.getElem_mem _)).1 (hb _ (List.getElem_mem _)).2

theorem signedLanes_polyOfNats (l : List Nat) (h : l.length = 512) (hb : ∀ x ∈ l, x < 2 ^ 15) :
    signedLanes (polyOfNats l) = l.map fun x : Nat => (x : Int) := by
  apply List.ext_getElem (by simp [h])
  intro i h1 h2
  rw [getElem_signedLanes _ _ (by simpa using h1), toInt_polyOfNats l h hb]
  simp

theorem signedLanes_polyOfInts (l : List Int) (h : l.length = 512) (hb : ∀ x ∈ l, -(2 ^ 15) ≤ x ∧ x < 2 ^ 15) :
    signedLanes (polyOfInts l) = l := by
  apply List.ext_getElem (by simp [h])
  intro i h1 h2
  rw [getElem_signedLanes _ _ (by simpa using h1), toInt_polyOfInts l h hb]

/-! ### Operand ranges -/

theorem lanesWithin_iff (lo hi : Int) (l : List Int) :
    lanesWithin lo hi l = true ↔ ∀ v ∈ l, lo ≤ v ∧ v ≤ hi := by
  simp [lanesWithin, List.all_eq_true]

/-- Everything `rangedLanes` can answer. -/
theorem rangedLanes_eq_some (lo hi : Int) (v : Poly) (l : List Int) :
    rangedLanes lo hi v = some l ↔ l = signedLanes v ∧ ∀ x ∈ l, lo ≤ x ∧ x ≤ hi := by
  unfold rangedLanes
  split
  · rename_i h
    rw [lanesWithin_iff] at h
    constructor
    · intro e
      cases e
      exact ⟨rfl, h⟩
    · rintro ⟨rfl, -⟩
      rfl
  · rename_i h
    rw [lanesWithin_iff] at h
    simp only [reduceCtorEq, false_iff]
    rintro ⟨rfl, h'⟩
    exact h h'

theorem rangedLanes_eq_none (lo hi : Int) (v : Poly) :
    rangedLanes lo hi v = none ↔ ∃ i, ∃ h : i < 512, v[i].toInt < lo ∨ hi < v[i].toInt := by
  unfold rangedLanes
  split
  · rename_i h
    rw [lanesWithin_iff] at h
    simp only [reduceCtorEq, false_iff]
    rintro ⟨i, hi', hb⟩
    have := h _ (List.getElem_mem (l := signedLanes v) (by simpa using hi'))
    rw [getElem_signedLanes v i hi'] at this
    omega
  · rename_i h
    rw [lanesWithin_iff] at h
    simp only [true_iff]
    push Not at h
    obtain ⟨x, hx, hb⟩ := h
    obtain ⟨i, hi', rfl⟩ := List.getElem_of_mem hx
    refine ⟨i, by simpa using hi', ?_⟩
    rw [getElem_signedLanes v i (by simpa using hi')] at hb
    omega

/-- Everything `canonicalLanes` can answer: the unsigned lanes of a canonical register. -/
theorem canonicalLanes_eq_some (v : Poly) (l : List Nat) :
    canonicalLanes v = some l ↔ l.length = 512 ∧ (∀ x ∈ l, x < Config.q) ∧ signedLanes v = l.map fun x : Nat => (x : Int) := by
  unfold canonicalLanes
  constructor
  · intro h
    obtain ⟨z, hz, rfl⟩ := Option.map_eq_some_iff.mp h
    obtain ⟨rfl, hb⟩ := (rangedLanes_eq_some _ _ _ _).mp hz
    refine ⟨by simp, ?_, ?_⟩
    · intro x hx
      obtain ⟨y, hy, rfl⟩ := List.mem_map.mp hx
      have := hb y hy
      simp only [Config.q]
      omega
    · rw [List.map_map]
      symm
      apply (List.map_congr_left (g := id) fun y hy => _).trans (List.map_id _)
      intro y hy
      have := hb y hy
      show ((y.toNat : Nat) : Int) = y
      omega
  · rintro ⟨hl, hb, he⟩
    apply Option.map_eq_some_iff.mpr
    refine ⟨signedLanes v, (rangedLanes_eq_some _ _ _ _).mpr ⟨rfl, ?_⟩, ?_⟩
    · rw [he]
      intro x hx
      obtain ⟨y, hy, rfl⟩ := List.mem_map.mp hx
      have := hb y hy
      simp only [Config.q] at this
      omega
    · rw [he, List.map_map]
      simp [Function.comp_def]

theorem canonicalLanes_eq_none (v : Poly) :
    canonicalLanes v = none ↔ ∃ i, ∃ h : i < 512, v[i].toInt < 0 ∨ 12288 < v[i].toInt := by
  unfold canonicalLanes
  rw [Option.map_eq_none_iff, rangedLanes_eq_none]

/-- A register written from canonical coefficients is read back as canonical. -/
theorem canonicalLanes_polyOfNats (l : List Nat) (h : l.length = 512) (hb : ∀ x ∈ l, x < Config.q) :
    canonicalLanes (polyOfNats l) = some l := by
  have hb' : ∀ x ∈ l, x < 2 ^ 15 := fun x hx => by
    have := hb x hx
    simp only [Config.q] at this
    omega
  exact (canonicalLanes_eq_some _ _).mpr ⟨h, hb, signedLanes_polyOfNats l h hb'⟩

/-- Everything `canonicalPair` can answer. -/
theorem canonicalPair_cases (u v : Poly) :
    (∃ x y, canonicalLanes u = some x ∧ canonicalLanes v = some y ∧ canonicalPair u v = some (x, y)) ∨
      ((canonicalLanes u = none ∨ canonicalLanes v = none) ∧ canonicalPair u v = none) := by
  unfold canonicalPair
  cases hu : canonicalLanes u <;> cases hv : canonicalLanes v <;> simp

/-- Everything `canonicalScalar` can answer. -/
theorem canonicalScalar_cases (x : Word16) :
    (x.toNat < Config.q ∧ canonicalScalar x = some x.toNat) ∨ (Config.q ≤ x.toNat ∧ canonicalScalar x = none) := by
  unfold canonicalScalar
  split
  · exact .inl ⟨by assumption, rfl⟩
  · exact .inr ⟨by omega, rfl⟩

/-- Everything `signedScalar` can answer. -/
theorem signedScalar_cases (x : Word16) :
    (-(Config.q : Int) < x.toInt ∧ x.toInt < Config.q ∧ signedScalar x = some x.toInt) ∨
      ((x.toInt ≤ -(Config.q : Int) ∨ (Config.q : Int) ≤ x.toInt) ∧ signedScalar x = none) := by
  unfold signedScalar
  split
  · rename_i h
    exact .inl ⟨h.1, h.2, rfl⟩
  · rename_i h
    exact .inr ⟨by omega, rfl⟩

end Sys2Proof.Machine
end

