-- ==== Sys2Proof/Laws/Codec.lean ====
section
/-! SUPPORT. What the decoders can answer: lengths, ranges, positions (45_codec.md R183, R194, R196); and what `PKDEC`,
`SIGDEC` and `NORM` can do. -/

namespace Sys2Proof.Machine

theorem length_streamBits (l : List Byte) : (streamBits l).length = 8 * l.length := by
  induction l with
  | nil => rfl
  | cons x rest ih =>
    simp only [streamBits, List.flatMap_cons, List.length_append, List.length_cons] at ih ⊢
    rw [ih]
    simp [byteBits]
    omega

/-- Decoded key fields are as many as asked for, each canonical. -/
theorem keyFields_some (k : Nat) (bits : List Bool) (h : List Nat) (e : keyFields k bits = some h) :
    h.length = k ∧ ∀ x ∈ h, x < Config.q := by
  induction k generalizing bits h with
  | zero =>
    simp only [keyFields, Option.some.injEq] at e
    subst e
    simp
  | succ k ih =>
    simp only [keyFields] at e
    split at e
    · rename_i hv
      obtain ⟨t, ht, rfl⟩ := Option.map_eq_some_iff.mp e
      obtain ⟨hl, hb⟩ := ih _ t ht
      refine ⟨by simp [hl], fun x hx => ?_⟩
      rcases List.mem_cons.mp hx with rfl | hx
      · exact hv
      · exact hb x hx
    · simp at e

/-- A decoded key has 512 canonical coefficients. -/
theorem decodePk_ok (prm : Config.Params) (len : Nat) (l : List Byte) (h : List Nat) (e : decodePk prm len l = .ok h) :
    len = 897 ∧ h.length = 512 ∧ ∀ x ∈ h, x < Config.q := by
  unfold decodePk at e
  split at e
  · simp at e
  · rename_i hlen
    split at e
    · simp at e
    · split at e
      · simp at e
      · rename_i hk
        cases e
        exact ⟨by simpa using hlen, keyFields_some _ _ _ hk⟩

/-- A cursor that points into the signature buffer: its position and the bits left add up to the end (R187). -/
def Cursor.Inside (c : Cursor) : Prop := c.pos + c.rest.length = Config.sigEndBit

/-- Everything `getBit` can answer. -/
theorem getBit_cases (c : Cursor) :
    (c.rest = [] ∧ getBit c = .error (.codecDesync, c.pos)) ∨
      ∃ x rest, c.rest = x :: rest ∧ getBit c = .ok (x, ⟨c.pos + 1, rest⟩) := by
  unfold getBit
  cases h : c.rest <;> simp

theorem getField_ok (k v : Nat) (c c' : Cursor) (w : Nat) (h : c.Inside) (e : getField k v c = .ok (w, c')) :
    c'.Inside ∧ c'.pos = c.pos + k ∧ w < (v + 1) * 2 ^ k := by
  induction k generalizing v c with
  | zero =>
    simp only [getField, Except.ok.injEq, Prod.mk.injEq] at e
    obtain ⟨rfl, rfl⟩ := e
    exact ⟨h, rfl, by omega⟩
  | succ k ih =>
    simp only [getField] at e
    rcases getBit_cases c with ⟨-, hg⟩ | ⟨x, rest, hr, hg⟩
    · simp [hg] at e
    · simp only [hg] at e
      have hi : (Cursor.mk (c.pos + 1) rest).Inside := by
        simp only [Cursor.Inside, hr, List.length_cons] at h ⊢
        omega
      obtain ⟨h1, h2, h3⟩ := ih _ _ hi e
      refine ⟨h1, by rw [h2]; simp; omega, Nat.lt_of_lt_of_le h3 ?_⟩
      have : 2 * v + (if x = true then 1 else 0) + 1 ≤ (v + 1) * 2 := by split <;> omega
      calc (2 * v + (if x = true then 1 else 0) + 1) * 2 ^ k ≤ (v + 1) * 2 * 2 ^ k := Nat.mul_le_mul_right _ this
        _ = (v + 1) * 2 ^ (k + 1) := by ring

theorem getField_error (k v : Nat) (c : Cursor) (e : ErrorKind) (p : Nat) (h : c.Inside)
    (he : getField k v c = .error (e, p)) : e = .codecDesync ∧ p = Config.sigEndBit := by
  induction k generalizing v c with
  | zero => simp [getField] at he
  | succ k ih =>
    simp only [getField] at he
    rcases getBit_cases c with ⟨hr, hg⟩ | ⟨x, rest, hr, hg⟩
    · simp only [hg, Except.error.injEq, Prod.mk.injEq] at he
      simp only [Cursor.Inside, hr, List.length_nil] at h
      exact ⟨he.1.symm, by omega⟩
    · simp only [hg] at he
      refine ih _ _ ?_ he
      simp only [Cursor.Inside, hr, List.length_cons] at h ⊢
      omega

/-- Everything the unary run can answer (R189, R190). -/
theorem unaryRun_cases (maxRun : Nat) (bits : List Bool) (p k : Nat) (hk : k ≤ maxRun)
    (h : p + bits.length = Config.sigEndBit) :
    (∃ j c, unaryRun maxRun bits p k = .ok (j, c) ∧ k ≤ j ∧ j ≤ maxRun ∧ c.Inside ∧ c.pos = p + (j - k) + 1) ∨
      (unaryRun maxRun bits p k = .error (.codecDesync, Config.sigEndBit)) ∨
      (∃ p', unaryRun maxRun bits p k = .error (.internalBoundExceeded, p') ∧ p ≤ p' ∧ p' ≤ Config.sigEndBit) := by
  induction bits generalizing p k with
  | nil =>
    right; left
    simp only [List.length_nil] at h
    simp only [unaryRun]
    rw [show p = Config.sigEndBit by omega]
  | cons x rest ih =>
    simp only [List.length_cons] at h
    cases x with
    | true =>
      left
      exact ⟨k, ⟨p + 1, rest⟩, rfl, le_refl _, hk, by simp only [Cursor.Inside]; omega, by simp⟩
    | false =>
      simp only [unaryRun]
      split
      · right; right
        exact ⟨p + 1, rfl, by omega, by omega⟩
      · rename_i hm
        rcases ih (p + 1) (k + 1) (by omega) (by omega) with ⟨j, c, h1, h2, h3, h4, h5⟩ | h1 | ⟨p', h1, h2, h3⟩
        · exact .inl ⟨j, c, h1, by omega, h3, h4, by omega⟩
        · exact .inr (.inl h1)
        · exact .inr (.inr ⟨p', h1, by omega, h3⟩)

/-- Everything the last checks can answer (R189). -/
theorem signedCoefficient_cases (prm : Config.Params) (negative : Bool) (m p : Nat) :
    (∃ v, signedCoefficient prm negative m p = .ok v ∧ v.natAbs = m ∧ m ≤ prm.magMax) ∨
      signedCoefficient prm negative m p = .error (.codecOverflow, p) ∧ prm.magMax < m ∨
      signedCoefficient prm negative m p = .error (.badCoefficient, p) := by
  unfold signedCoefficient
  split
  · exact .inr (.inl ⟨rfl, by assumption⟩)
  · split
    · exact .inr (.inr rfl)
    · left
      refine ⟨_, rfl, ?_, by omega⟩
      split <;> simp

/-- What one coefficient code can decode to: on success the cursor has moved forward inside the buffer; a failure's position
is inside the buffer (R189). -/
theorem decodeCoeff_cases (prm : Config.Params) (c : Cursor) (h : c.Inside) :
    (∃ v c', decodeCoeff prm c = .ok (v, c') ∧ c'.Inside ∧ c.pos + prm.lowBits + 2 ≤ c'.pos ∧
        v.natAbs ≤ prm.magMax) ∨
      (∃ k p, decodeCoeff prm c = .error (k, p) ∧ p ≤ Config.sigEndBit ∧
        (k = .codecDesync ∨ k = .internalBoundExceeded ∨ k = .badCoefficient ∨ k = .codecOverflow)) := by
  have hpos : c.pos ≤ Config.sigEndBit := by simp only [Cursor.Inside] at h; omega
  unfold decodeCoeff
  split
  · exact .inr ⟨_, _, rfl, hpos, .inl rfl⟩
  · rcases getBit_cases c with ⟨hr, hg⟩ | ⟨x, rest, hr, hg⟩
    · simp only [hg]
      exact .inr ⟨_, _, rfl, hpos, .inl rfl⟩
    · simp only [hg]
      have hi : (Cursor.mk (c.pos + 1) rest).Inside := by
        simp only [Cursor.Inside, hr, List.length_cons] at h ⊢
        omega
      cases hf : getField prm.lowBits 0 ⟨c.pos + 1, rest⟩ with
      | error e =>
        obtain ⟨he, hp⟩ := getField_error _ _ _ e.1 e.2 hi hf
        exact .inr ⟨e.1, e.2, rfl, by omega, .inl he⟩
      | ok r =>
        obtain ⟨low, c2⟩ := r
        obtain ⟨h1, h2, -⟩ := getField_ok _ _ _ _ _ hi hf
        simp only
        have h1' : c2.pos + c2.rest.length = Config.sigEndBit := h1
        rcases unaryRun_cases prm.unaryMax c2.rest c2.pos 0 (Nat.zero_le _) h1' with
          ⟨j, c3, e3, -, -, i3, p3⟩ | e3 | ⟨p', e3, -, l3⟩
        · simp only [e3]
          have l3 : c3.pos ≤ Config.sigEndBit := by simp only [Cursor.Inside] at i3; omega
          rcases signedCoefficient_cases prm x (low + 2 ^ prm.lowBits * j) c3.pos with
            ⟨v, e4, b4, m4⟩ | ⟨e4, -⟩ | e4
          · simp only [e4]
            exact .inl ⟨v, c3, rfl, i3, by simp only [h2] at p3; omega, by omega⟩
          · simp only [e4]
            exact .inr ⟨_, _, rfl, l3, .inr (.inr (.inr rfl))⟩
          · simp only [e4]
            exact .inr ⟨_, _, rfl, l3, .inr (.inr (.inl rfl))⟩
        · simp only [e3]
          exact .inr ⟨_, _, rfl, le_refl _, .inl rfl⟩
        · simp only [e3]
          exact .inr ⟨_, _, rfl, l3, .inr (.inl rfl)⟩

/-- What a run of coefficient codes can decode to (R194). -/
theorem decodeCoeffs_cases (prm : Config.Params) (k : Nat) (c : Cursor) (h : c.Inside) :
    (∃ vs c', decodeCoeffs prm k c = .ok (vs, c') ∧ c'.Inside ∧ c.pos + k * (prm.lowBits + 2) ≤ c'.pos ∧
        vs.length = k ∧ ∀ v ∈ vs, v.natAbs ≤ prm.magMax) ∨
      (∃ e p, decodeCoeffs prm k c = .error (e, p) ∧ p ≤ Config.sigEndBit ∧
        (e = .codecDesync ∨ e = .internalBoundExceeded ∨ e = .badCoefficient ∨ e = .codecOverflow)) := by
  induction k generalizing c with
  | zero => exact .inl ⟨[], c, rfl, h, by omega, rfl, by simp⟩
  | succ k ih =>
    simp only [decodeCoeffs]
    rcases decodeCoeff_cases prm c h with ⟨v, c1, e1, i1, p1, b1⟩ | ⟨e, p, e1, l1, k1⟩
    · simp only [e1]
      rcases ih c1 i1 with ⟨vs, c2, e2, i2, p2, n2, b2⟩ | ⟨e, p, e2, l2, k2⟩
      · simp only [e2]
        refine .inl ⟨v :: vs, c2, rfl, i2, ?_, by simp [n2], ?_⟩
        · rw [Nat.add_mul]
          omega
        · intro w hw
          rcases List.mem_cons.mp hw with rfl | hw
          · exact b1
          · exact b2 w hw
      · simp only [e2]
        exact .inr ⟨e, p, rfl, l2, k2⟩
    · simp only [e1]
      exact .inr ⟨e, p, rfl, l1, k1⟩

/-- What the signature decoder can answer on a buffer of 666 bytes, or on a wrong length (R194, R196, R197). -/
theorem decodeSig_cases (prm : Config.Params) (len : Nat) (l : List Byte) (h : len = 666 → l.length = 666) :
    (∃ d, decodeSig prm len l = .ok d ∧ len = 666 ∧ d.salt = (l.drop 1).take 40 ∧ d.salt.length = 40 ∧
        d.s2.length = 512 ∧ (∀ v ∈ d.s2, v.natAbs ≤ prm.magMax) ∧
        328 + 512 * (prm.lowBits + 2) ≤ d.pos ∧ d.pos ≤ 5328) ∨
      (∃ k p, decodeSig prm len l = .error (k, p) ∧ p ≤ 5328 ∧
        (k = .badLength ∨ k = .badHeader ∨ k = .codecDesync ∨ k = .internalBoundExceeded ∨ k = .badCoefficient ∨
          k = .codecOverflow)) := by
  unfold decodeSig
  split
  · exact .inr ⟨_, _, rfl, by omega, .inl rfl⟩
  · rename_i hlen
    have hlen' : len = 666 := by simpa using hlen
    split
    · exact .inr ⟨_, _, rfl, by omega, .inr (.inl rfl)⟩
    · have hi : (Cursor.mk Config.sigBodyBit (streamBits (l.drop (1 + Config.saltLen)))).Inside := by
        simp [Cursor.Inside, length_streamBits, List.length_drop, h hlen']
      rcases decodeCoeffs_cases prm Config.n _ hi with ⟨vs, c, e, i, p, n, b⟩ | ⟨k, p, e, l1, k1⟩
      · simp only [e]
        have hp : c.pos ≤ 5328 := by simp only [Cursor.Inside, Config.sigEndBit] at i; omega
        split
        · exact .inr ⟨_, _, rfl, hp, .inr (.inr (.inl rfl))⟩
        · exact .inl ⟨_, rfl, hlen', rfl, by simp [h hlen'], n, b, by simpa using p, hp⟩
      · simp only [e]
        refine .inr ⟨k, p, rfl, l1, ?_⟩
        rcases k1 with rfl | rfl | rfl | rfl <;> simp

/-- Everything `PKDEC` can do. -/
theorem execPkdec_cases (rd : PReg) (s : State) :
    (readDeclared s.pkbuf s.pklen.toNat 897 = none ∧ execPkdec rd s = .refused (.neverWritten .pkbuf)) ∨
      ∃ l, readDeclared s.pkbuf s.pklen.toNat 897 = some l ∧
        ((∃ k, decodePk params s.pklen.toNat l = .error k ∧ execPkdec rd s = .next (raise k s)) ∨
          (∃ h, decodePk params s.pklen.toNat l = .ok h ∧
            execPkdec rd s = .next (complete (writePoly rd (polyOfNats h) s)))) := by
  unfold execPkdec
  cases hr : readDeclared s.pkbuf s.pklen.toNat Config.pkLen with
  | none => simp
  | some l =>
    right
    refine ⟨l, rfl, ?_⟩
    cases hd : decodePk params s.pklen.toNat l with
    | error k => exact .inl ⟨k, rfl, by simp [hd]⟩
    | ok h => exact .inr ⟨h, rfl, by simp [hd]⟩

/-- Everything `SIGDEC` can do. -/
theorem execSigdec_cases (rd : PReg) (s : State) :
    (readDeclared s.sigbuf s.siglen.toNat 666 = none ∧ execSigdec rd s = .refused (.neverWritten .sigbuf)) ∨
      ∃ l, readDeclared s.sigbuf s.siglen.toNat 666 = some l ∧
        ((∃ k p, decodeSig params s.siglen.toNat l = .error (k, p) ∧
            execSigdec rd s = .next (raise k (setCursor p s))) ∨
          (∃ d, decodeSig params s.siglen.toNat l = .ok d ∧
            execSigdec rd s = .next (complete (writePoly rd (polyOfInts d.s2)
              { setCursor d.pos s with salt := memWrite s.salt 0 d.salt })))) := by
  unfold execSigdec
  cases hr : readDeclared s.sigbuf s.siglen.toNat Config.sigLen with
  | none => simp
  | some l =>
    right
    refine ⟨l, rfl, ?_⟩
    cases hd : decodeSig params s.siglen.toNat l with
    | error e => exact .inl ⟨e.1, e.2, rfl, by simp [hd]⟩
    | ok d => exact .inr ⟨d, rfl, by simp [hd]⟩

/-- Everything `NORM` can do. -/
theorem execNorm_cases (rs1 rs2 : PReg) (s : State) :
    (∃ u v, rangedLanes (-6144) 12288 (s.poly rs1) = some u ∧ rangedLanes (-6144) 12288 (s.poly rs2) = some v ∧
        execNorm rs1 rs2 s = .next (normResult params (normSquare u v) s)) ∨
      ((rangedLanes (-6144) 12288 (s.poly rs1) = none ∨ rangedLanes (-6144) 12288 (s.poly rs2) = none) ∧
        execNorm rs1 rs2 s = .next (raise .operandRange (setAccept false s))) := by
  unfold execNorm
  cases h1 : rangedLanes (-6144) 12288 (s.poly rs1) <;> cases h2 : rangedLanes (-6144) 12288 (s.poly rs2) <;> simp

end Sys2Proof.Machine
end

