-- ==== Sys2Proof/Laws/Field.lean ====
section
/-! SUPPORT. The ranges of the field functions (40_field_arithmetic.md R91 to R95) and the lengths and ranges of the
transforms (41_ntt_engine.md R116), and what the field, transform and pointwise commands can answer. -/

namespace Sys2Proof.Machine

/-! ### Ranges of the field functions -/

theorem fadd_lt (x y : Nat) : fadd x y < Config.q := Nat.mod_lt _ (by decide)

theorem fsub_lt (x y : Nat) : fsub x y < Config.q := Nat.mod_lt _ (by decide)

theorem fmul_lt (x y : Nat) : fmul x y < Config.q := Nat.mod_lt _ (by decide)

theorem center_range (x : Nat) (h : x < Config.q) : -6144 ≤ center x ∧ center x ≤ 6144 := by
  simp only [Config.q] at h
  unfold center
  simp only [Config.halfQ, Config.q]
  split <;> omega

theorem canon_lt (v : Int) (h1 : -12288 ≤ v) (h2 : v ≤ 12288) : canon v < Config.q := by
  unfold canon
  simp only [Config.q]
  split <;> omega

/-! ### The transforms keep 512 canonical values -/

/-- All values are canonical. -/
def AllCanonical (l : List Nat) : Prop := ∀ x ∈ l, x < Config.q

theorem allCanonical_zipWith (f : Nat → Nat → Nat) (hf : ∀ x y, f x y < Config.q) (u v : List Nat) :
    AllCanonical (List.zipWith f u v) := by
  intro x hx
  rw [List.mem_iff_getElem] at hx
  obtain ⟨i, hi, rfl⟩ := hx
  rw [List.getElem_zipWith]
  exact hf _ _

theorem allCanonical_map_fmul (s : Nat) (l : List Nat) : AllCanonical (l.map fun w => fmul w s) := by
  intro x hx
  obtain ⟨y, -, rfl⟩ := List.mem_map.mp hx
  exact fmul_lt _ _

theorem AllCanonical.append {u v : List Nat} (hu : AllCanonical u) (hv : AllCanonical v) : AllCanonical (u ++ v) := by
  intro x hx
  rcases List.mem_append.mp hx with h | h
  · exact hu x h
  · exact hv x h

theorem length_nttGroup (ht s : Nat) (g : List Nat) (h : g.length = 2 * ht) : (nttGroup ht s g).length = 2 * ht := by
  simp [nttGroup, h]
  omega

theorem length_inttGroup (t s : Nat) (g : List Nat) (h : g.length = 2 * t) : (inttGroup t s g).length = 2 * t := by
  simp [inttGroup, h]
  omega

theorem length_nttStage (ht : Nat) (ss a : List Nat) (h : a.length = ss.length * (2 * ht)) :
    (nttStage ht ss a).length = a.length := by
  induction ss generalizing a with
  | nil => simpa [nttStage] using h.symm
  | cons s rest ih =>
    rw [List.length_cons, Nat.add_mul, Nat.one_mul] at h
    have hd : (a.drop (2 * ht)).length = rest.length * (2 * ht) := by rw [List.length_drop]; omega
    have ht' : (a.take (2 * ht)).length = 2 * ht := by rw [List.length_take]; omega
    rw [nttStage, List.length_append, length_nttGroup _ _ _ ht', ih _ hd, hd]
    omega

theorem length_inttStage (t : Nat) (ss a : List Nat) (h : a.length = ss.length * (2 * t)) :
    (inttStage t ss a).length = a.length := by
  induction ss generalizing a with
  | nil => simpa [inttStage] using h.symm
  | cons s rest ih =>
    rw [List.length_cons, Nat.add_mul, Nat.one_mul] at h
    have hd : (a.drop (2 * t)).length = rest.length * (2 * t) := by rw [List.length_drop]; omega
    have ht' : (a.take (2 * t)).length = 2 * t := by rw [List.length_take]; omega
    rw [inttStage, List.length_append, length_inttGroup _ _ _ ht', ih _ hd, hd]
    omega

theorem nttStage_canonical (ht : Nat) (ss a : List Nat) : AllCanonical (nttStage ht ss a) := by
  induction ss generalizing a with
  | nil => intro x hx; simp [nttStage] at hx
  | cons s rest ih =>
    exact ((allCanonical_zipWith _ fadd_lt _ _).append (allCanonical_zipWith _ fsub_lt _ _)).append (ih _)

@[simp] theorem length_rootTable (root : Nat) : (rootTable root).length = 512 := by simp [rootTable]

theorem length_stageEntries (table : List Nat) (m : Nat) (h : 2 * m ≤ table.length) :
    (stageEntries table m).length = m := by
  simp [stageEntries]
  omega

/-- The forward transform of 512 values has 512 values. -/
theorem length_ntt (a : List Nat) (h : a.length = 512) : (ntt a).length = 512 := by
  have key : ∀ l : List (Nat × Nat), (∀ st ∈ l, 2 * st.1 ≤ 512 ∧ st.1 * (2 * st.2) = 512) → ∀ x : List Nat,
      x.length = 512 → (l.foldl (fun x st => nttStage st.2 (stageEntries tw st.1) x) x).length = 512 := by
    intro l
    induction l with
    | nil => intro _ x hx; exact hx
    | cons st rest ih =>
      intro hl x hx
      have hst := hl st List.mem_cons_self
      refine ih (fun s hs => hl s (List.mem_cons_of_mem _ hs)) _ ?_
      rw [length_nttStage, hx]
      rw [length_stageEntries _ _ (by rw [tw, length_rootTable]; exact hst.1), hx, hst.2]
  exact key nttStages (by decide) a h

/-- The inverse transform of 512 values has 512 values. -/
theorem length_intt (a : List Nat) (h : a.length = 512) : (intt a).length = 512 := by
  have key : ∀ l : List (Nat × Nat), (∀ st ∈ l, 2 * st.1 ≤ 512 ∧ st.1 * (2 * st.2) = 512) → ∀ x : List Nat,
      x.length = 512 → (l.foldl (fun x st => inttStage st.2 (stageEntries itw st.1) x) x).length = 512 := by
    intro l
    induction l with
    | nil => intro _ x hx; exact hx
    | cons st rest ih =>
      intro hl x hx
      have hst := hl st List.mem_cons_self
      refine ih (fun s hs => hl s (List.mem_cons_of_mem _ hs)) _ ?_
      rw [length_inttStage, hx]
      rw [length_stageEntries _ _ (by rw [itw, length_rootTable]; exact hst.1), hx, hst.2]
  rw [intt, List.length_map]
  exact key inttStages (by decide) a h

/-- Every value of a forward transform is canonical. -/
theorem ntt_canonical (a : List Nat) : AllCanonical (ntt a) := by
  unfold ntt nttStages
  simp only [List.foldl_cons, List.foldl_nil]
  exact nttStage_canonical _ _ _

/-- Every value of an inverse transform is canonical. -/
theorem intt_canonical (a : List Nat) : AllCanonical (intt a) := allCanonical_map_fmul _ _

theorem length_mulring (a b : List Nat) (ha : a.length = 512) (hb : b.length = 512) :
    (mulring a b).length = 512 :=
  length_intt _ (by simp [length_ntt a ha, length_ntt b hb])

theorem mulring_canonical (a b : List Nat) : AllCanonical (mulring a b) := intt_canonical _

/-! ### What the commands can answer -/

/-- Everything a binary field command can do. -/
theorem fieldBinary_cases (f : Nat → Nat → Nat) (s : State) :
    (s.a.toNat < Config.q ∧ s.b.toNat < Config.q ∧
        fieldBinary f s = .next (complete { s with r := BitVec.ofNat 16 (f s.a.toNat s.b.toNat) })) ∨
      ((Config.q ≤ s.a.toNat ∨ Config.q ≤ s.b.toNat) ∧ fieldBinary f s = .next (raise .operandRange s)) := by
  unfold fieldBinary scalarPair
  rcases canonicalScalar_cases s.a with ⟨ha, ea⟩ | ⟨ha, ea⟩ <;>
    rcases canonicalScalar_cases s.b with ⟨hb, eb⟩ | ⟨hb, eb⟩ <;> simp [ea, eb, ha, hb]

/-- Everything a command in place on a canonical register can do (`NTTF`, `NTTI`). -/
theorem transformInPlace_cases (f : List Nat → List Nat) (rd : PReg) (s : State) :
    (∃ a, canonicalLanes (s.poly rd) = some a ∧
        transformInPlace f rd s = .next (complete (writePoly rd (polyOfNats (f a)) s))) ∨
      (canonicalLanes (s.poly rd) = none ∧ transformInPlace f rd s = .next (raise .operandRange s)) := by
  unfold transformInPlace
  cases h : canonicalLanes (s.poly rd) <;> simp

/-- Everything a command of two canonical registers can do (`NTTMUL`, `PMUL`, `PSUB`). -/
theorem canonicalBinary_cases (f : List Nat → List Nat → List Nat) (rd rs1 rs2 : PReg) (s : State) :
    (∃ a b, canonicalLanes (s.poly rs1) = some a ∧ canonicalLanes (s.poly rs2) = some b ∧
        canonicalBinary f rd rs1 rs2 s = .next (complete (writePoly rd (polyOfNats (f a b)) s))) ∨
      ((canonicalLanes (s.poly rs1) = none ∨ canonicalLanes (s.poly rs2) = none) ∧
        canonicalBinary f rd rs1 rs2 s = .next (raise .operandRange s)) := by
  unfold canonicalBinary
  rcases canonicalPair_cases (s.poly rs1) (s.poly rs2) with ⟨x, y, hx, hy, h⟩ | ⟨hn, h⟩
  · exact .inl ⟨x, y, hx, hy, by rw [h]⟩
  · exact .inr ⟨hn, by rw [h]⟩

/-- Everything `PCTR` can do. -/
theorem execPctr_cases (rd rs1 : PReg) (s : State) :
    (∃ a, canonicalLanes (s.poly rs1) = some a ∧
        execPctr rd rs1 s = .next (complete (writePoly rd (polyOfInts (a.map center)) s))) ∨
      (canonicalLanes (s.poly rs1) = none ∧ execPctr rd rs1 s = .next (raise .operandRange s)) := by
  unfold execPctr
  cases h : canonicalLanes (s.poly rs1) <;> simp

/-- Everything `PCAN` can do. -/
theorem execPcan_cases (rd rs1 : PReg) (s : State) :
    (∃ v, rangedLanes (-12288) 12288 (s.poly rs1) = some v ∧
        execPcan rd rs1 s = .next (complete (writePoly rd (polyOfNats (v.map canon)) s))) ∨
      (rangedLanes (-12288) 12288 (s.poly rs1) = none ∧ execPcan rd rs1 s = .next (raise .operandRange s)) := by
  unfold execPcan
  cases h : rangedLanes (-12288) 12288 (s.poly rs1) <;> simp

end Sys2Proof.Machine
end

