-- ==== Sys2Proof/Laws/Sponge.lean ====
section
/-! SUPPORT. Lanes and state bytes, how the rate cursor moves, what the sponge commands and `H2P` can answer, and what
the sampling loop gives. -/

namespace Sys2Proof.Machine

theorem laneAt_eq_getD (l : List Word64) (j : Nat) : laneAt l j = l.getD j 0 := by
  induction l generalizing j with
  | nil => rfl
  | cons x rest ih =>
    cases j with
    | zero => rfl
    | succ j => simp [laneAt, ih]

/-- `lane` is the element of the vector. -/
theorem lane_eq_getElem (v : Lanes) (j : Nat) (h : j < 25) : lane v j = v[j] := by
  rw [lane, laneAt_eq_getD, List.getD_eq_getElem _ _ (by simpa using h)]
  simp

@[simp] theorem lane_tabulate (f : Nat → Word64) (j : Nat) (h : j < 25) : lane (tabulate 25 f) j = f j := by
  rw [lane_eq_getElem _ _ h, getElem_tabulate]

/-- Two sponge states with the same lanes are the same. -/
theorem lanes_ext (u v : Lanes) (h : ∀ j < 25, lane u j = lane v j) : u = v := by
  apply Vector.ext
  intro j hj
  rw [← lane_eq_getElem u j hj, ← lane_eq_getElem v j hj, h j hj]

/-- The lanes after one state byte is changed (20_memory.md R55). -/
theorem lane_xorStateByte (v : Lanes) (k : Nat) (x : Byte) (j : Nat) (h : j < 25) :
    lane (xorStateByte v k x) j =
      if j = k / 8 then lane v j ^^^ (x.setWidth 64 <<< (8 * (k % 8))) else lane v j := by
  rw [xorStateByte, lane_tabulate _ _ h]

/-! ### The cursor -/

theorem absorbByte_full (sp : Sponge) (x : Byte) (h : sp.cur.val + 1 = 136) :
    absorbByte sp x = ⟨keccakF (xorStateByte sp.ks sp.cur.val x), 0⟩ := by
  simp [absorbByte, h]

theorem absorbByte_part (sp : Sponge) (x : Byte) (h : sp.cur.val + 1 < 136) :
    absorbByte sp x = ⟨xorStateByte sp.ks sp.cur.val x, ⟨sp.cur.val + 1, by omega⟩⟩ := by
  have h' : sp.cur.val + 1 ≠ Config.rate := by simp only [Config.rate]; omega
  simp only [absorbByte, if_neg h']
  congr 1
  apply Fin.ext
  simp [Fin.ofNat, Nat.mod_eq_of_lt (show sp.cur.val + 1 < 137 by omega)]

/-- Absorbing keeps the cursor inside the rate portion (R151). -/
theorem absorbByte_cur_lt (sp : Sponge) (x : Byte) (h : sp.cur.val < 136) : (absorbByte sp x).cur.val < 136 := by
  rcases Nat.lt_or_ge (sp.cur.val + 1) 136 with h' | h'
  · rw [absorbByte_part sp x h']
    exact h'
  · rw [absorbByte_full sp x (by omega)]
    exact Nat.zero_lt_succ _

theorem absorb_cur_lt (sp : Sponge) (l : List Byte) (h : sp.cur.val < 136) : (absorb sp l).cur.val < 136 := by
  induction l generalizing sp with
  | nil => exact h
  | cons x rest ih => exact ih _ (absorbByte_cur_lt sp x h)

/-- The sponge after a byte is squeezed, where the rate portion is exhausted (R151). -/
theorem squeezeByte_exhausted (sp : Sponge) (h : sp.cur.val = 136) :
    squeezeByte sp = (stateByte (keccakF sp.ks) 0, ⟨keccakF sp.ks, 1⟩) := by
  simp [squeezeByte, refill, h]
  rfl

/-- The sponge after a byte is squeezed, where the rate portion is not exhausted (R151). -/
theorem squeezeByte_inside (sp : Sponge) (h : sp.cur.val < 136) :
    squeezeByte sp = (stateByte sp.ks sp.cur.val, ⟨sp.ks, ⟨sp.cur.val + 1, by omega⟩⟩) := by
  have h' : sp.cur.val ≠ Config.rate := by simp only [Config.rate]; omega
  simp only [squeezeByte, refill, if_neg h']
  congr 2
  apply Fin.ext
  simp [Fin.ofNat, Nat.mod_eq_of_lt (show sp.cur.val + 1 < 137 by omega)]

/-! ### What the commands can answer -/

/-- Everything the source of `SHABS` can be. -/
theorem sourceBytes_cases (s : State) (sp : ByteSpace) (k : Nat) :
    (∃ l, memRead (s.space sp) k = some l ∧ sourceBytes s sp k = .bytes l) ∨
      (memRead (s.space sp) k = none ∧ sourceBytes s sp k = .unwritten sp) := by
  unfold sourceBytes
  cases h : memRead (s.space sp) k <;> simp

/-- Everything `SHABS` can do. -/
theorem execShabs_cases (sel : Fin 4) (s : State) :
    (selectorLegal sel = false ∧ execShabs sel s = .next (raise .illegalCommand s)) ∨
      (selectorLegal sel = true ∧ s.kmode = .squeezing ∧ execShabs sel s = .next (raise .spongeMode s)) ∨
      (sel = 1 ∧ s.kmode = .absorbing ∧ s.msgMax < s.mlen.toNat ∧
        execShabs sel s = .next (raise .lengthRange s)) ∨
      (s.kmode = .absorbing ∧ (sel = 0 ∨ sel = 1 ∧ s.mlen.toNat ≤ s.msgMax) ∧
        ∃ sp k, sp = (if sel = 0 then ByteSpace.salt else ByteSpace.msgbuf) ∧
          k = (if sel = 0 then 40 else s.mlen.toNat) ∧
          ((∃ l, memRead (s.space sp) k = some l ∧
              execShabs sel s = .next (complete (s.setSponge (absorb s.sponge l)))) ∨
            (memRead (s.space sp) k = none ∧ execShabs sel s = .refused (.neverWritten sp)))) := by
  have split : sel = 0 ∨ sel = 1 ∨ selectorLegal sel = false := by
    revert sel
    decide
  rcases split with rfl | rfl | hl
  · right
    cases hm : s.kmode with
    | squeezing =>
      left
      exact ⟨rfl, rfl, by simp [execShabs, hm, selectorLegal]⟩
    | absorbing =>
      right; right
      refine ⟨rfl, .inl rfl, .salt, 40, rfl, rfl, ?_⟩
      rcases sourceBytes_cases s .salt 40 with ⟨l, h1, h2⟩ | ⟨h1, h2⟩
      · exact .inl ⟨l, h1, by simp [execShabs, hm, selectorLegal, absorbSource, h2]⟩
      · exact .inr ⟨h1, by simp [execShabs, hm, selectorLegal, absorbSource, h2]⟩
  · right
    cases hm : s.kmode with
    | squeezing =>
      left
      exact ⟨rfl, rfl, by simp [execShabs, hm, selectorLegal]⟩
    | absorbing =>
      right
      by_cases hlen : s.msgMax < s.mlen.toNat
      · left
        exact ⟨rfl, rfl, hlen, by simp [execShabs, hm, selectorLegal, absorbSource, hlen]⟩
      · right
        refine ⟨rfl, .inr ⟨rfl, by omega⟩, .msgbuf, s.mlen.toNat, rfl, rfl, ?_⟩
        rcases sourceBytes_cases s .msgbuf s.mlen.toNat with ⟨l, h1, h2⟩ | ⟨h1, h2⟩
        · exact .inl ⟨l, h1, by simp [execShabs, hm, selectorLegal, absorbSource, hlen, h2]⟩
        · exact .inr ⟨h1, by simp [execShabs, hm, selectorLegal, absorbSource, hlen, h2]⟩
  · left
    exact ⟨hl, by simp [execShabs, hl, illegalCommand]⟩

/-- Everything `SHFIN` can do. -/
theorem execShfin_cases (s : State) :
    (s.kmode = .squeezing ∧ execShfin s = .next (raise .spongeMode s)) ∨
      (s.kmode = .absorbing ∧
        execShfin s = .next (complete { s.setSponge (finishSponge s.sponge) with kmode := .squeezing })) := by
  unfold execShfin
  cases h : s.kmode <;> simp

/-- Everything `SHSQZ` can do. -/
theorem execShsqz_cases (s : State) :
    (s.kmode = .absorbing ∧ execShsqz s = .next (raise .spongeMode s)) ∨
      (s.kmode = .squeezing ∧ execShsqz s =
        .next (complete { s.setSponge (squeezeByte s.sponge).2 with r := (squeezeByte s.sponge).1.setWidth 16 })) := by
  unfold execShsqz
  cases h : s.kmode <;> simp

/-- Everything `H2P` can do. -/
theorem execH2p_cases (rd : PReg) (s : State) :
    (s.kmode = .absorbing ∧ execH2p rd s = .next (raise .spongeMode s)) ∨
      (s.kmode = .squeezing ∧ sample sampleFuel 512 s.sponge [] = none ∧ execH2p rd s = .fault .sampleNeverEnds) ∨
      (s.kmode = .squeezing ∧ ∃ c sp, sample sampleFuel 512 s.sponge [] = some (c, sp) ∧
        execH2p rd s = .next (complete (writePoly rd (polyOfNats c) (s.setSponge sp)))) := by
  unfold execH2p
  cases h : s.kmode with
  | absorbing => simp
  | squeezing =>
    cases hs : sample sampleFuel Config.n s.sponge [] with
    | none => simp
    | some r => exact .inr (.inr ⟨rfl, r.1, r.2, rfl, rfl⟩)

/-- What the sampling loop gives: as many canonical coefficients as were asked for, after those already found (R170). -/
theorem sample_some (fuel need : Nat) (sp : Sponge) (acc c : List Nat) (sp' : Sponge)
    (h : sample fuel need sp acc = some (c, sp')) :
    c.length = acc.length + need ∧ ((∀ x ∈ acc, x < Config.q) → ∀ x ∈ c, x < Config.q) := by
  induction fuel generalizing need sp acc with
  | zero =>
    cases need with
    | zero =>
      simp only [sample, Option.some.injEq, Prod.mk.injEq] at h
      obtain ⟨rfl, -⟩ := h
      simp
    | succ need => simp [sample] at h
  | succ fuel ih =>
    cases need with
    | zero =>
      simp only [sample, Option.some.injEq, Prod.mk.injEq] at h
      obtain ⟨rfl, -⟩ := h
      simp
    | succ need =>
      simp only [sample] at h
      split at h
      · obtain ⟨hl, hc⟩ := ih _ _ _ h
        refine ⟨by simp at hl; omega, fun ha => hc ?_⟩
        intro x hx
        rcases List.mem_cons.mp hx with rfl | hx
        · exact Nat.mod_lt _ (by decide)
        · exact ha x hx
      · exact ih _ _ _ h

end Sys2Proof.Machine
end

