-- ==== Sys2Proof/Laws/HashToPoint.lean ====
section
/-! SUPPORT. When the sampling loop of 44_hash_to_point.md R170 ends: the fuel of `H2P` cuts nothing off (R172; log 7). -/

namespace Sys2Proof.Machine

/-- The sponge after `k` chunks. -/
def afterChunks : Nat → Sponge → Sponge
  | 0, sp => sp
  | k + 1, sp => afterChunks k (nextChunk sp).2

/-- How many of the first `k` chunks are accepted (R170). -/
def acceptedCount : Nat → Sponge → Nat
  | 0, _ => 0
  | k + 1, sp => (if (nextChunk sp).1 < Config.h2pLimit then 1 else 0) + acceptedCount k (nextChunk sp).2

theorem afterChunks_add (j k : Nat) (sp : Sponge) : afterChunks (j + k) sp = afterChunks k (afterChunks j sp) := by
  induction j generalizing sp with
  | zero => rw [Nat.zero_add]; rfl
  | succ j ih => rw [Nat.succ_add]; exact ih _

theorem acceptedCount_add (j k : Nat) (sp : Sponge) :
    acceptedCount (j + k) sp = acceptedCount j sp + acceptedCount k (afterChunks j sp) := by
  induction j generalizing sp with
  | zero => simp [acceptedCount, afterChunks]
  | succ j ih =>
    rw [Nat.succ_add]
    simp only [acceptedCount, afterChunks, ih]
    omega

theorem acceptedCount_mono (j k : Nat) (sp : Sponge) (h : j ≤ k) : acceptedCount j sp ≤ acceptedCount k sp := by
  obtain ⟨d, rfl⟩ := Nat.exists_eq_add_of_le h
  rw [acceptedCount_add]
  omega

/-- The loop runs out of fuel exactly when that many chunks hold too few accepted ones. -/
theorem sample_eq_none (fuel need : Nat) (sp : Sponge) (acc : List Nat) :
    sample fuel need sp acc = none ↔ acceptedCount fuel sp < need := by
  induction fuel generalizing need sp acc with
  | zero => cases need <;> simp [sample, acceptedCount]
  | succ fuel ih =>
    cases need with
    | zero => simp [sample]
    | succ need =>
      simp only [sample, acceptedCount]
      split
      · rw [ih]
        omega
      · rw [ih]
        omega

/-- The number of values a sponge can have. -/
@[irreducible] def spongeValues : Nat := 137 * (2 ^ 64) ^ 25

theorem spongeValues_ge : 137 * (2 ^ 64) ^ 25 ≤ spongeValues := by
  unfold spongeValues
  exact Nat.le_refl _

/-- Among one more moment than there are values, two moments have the same sponge. -/
theorem sponge_repeats (f : Nat → Sponge) : ∃ i j, i < j ∧ j ≤ spongeValues ∧ f i = f j := by
  let g : Fin (spongeValues + 1) → Fin 137 × (Fin 25 → Fin (2 ^ 64)) := fun i =>
    ((f i).cur, fun x => (f i).ks[x].toFin)
  have hc : Fintype.card (Fin 137 × (Fin 25 → Fin (2 ^ 64))) < Fintype.card (Fin (spongeValues + 1)) := by
    rw [Fintype.card_fin, Fintype.card_prod, Fintype.card_fun, Fintype.card_fin, Fintype.card_fin, Fintype.card_fin]
    exact Nat.lt_succ_of_le spongeValues_ge
  obtain ⟨i, j, hij, he⟩ := Fintype.exists_ne_map_eq_of_card_lt g hc
  have heq : f i = f j := by
    have h1 : (f i).cur = (f j).cur := congrArg Prod.fst he
    have h2 : (f i).ks = (f j).ks := by
      apply Vector.ext
      intro x hx
      have h3 := congrFun (congrArg Prod.snd he) ⟨x, hx⟩
      exact BitVec.toFin_inj.mp h3
    cases hi : f i
    cases hj : f j
    simp_all
  rcases Nat.lt_or_gt_of_ne (fun h => hij (Fin.ext h)) with h | h
  · exact ⟨i, j, h, by omega, heq⟩
  · exact ⟨j, i, h, by omega, heq.symm⟩

/-- Chunk `k` of the stream is refused. -/
def Rejected (sp : Sponge) (k : Nat) : Prop := ¬(nextChunk (afterChunks k sp)).1 < Config.h2pLimit

theorem acceptedCount_eq_zero (k : Nat) (sp : Sponge) : acceptedCount k sp = 0 ↔ ∀ i < k, Rejected sp i := by
  induction k with
  | zero => simp [acceptedCount]
  | succ k ih =>
    rw [acceptedCount_add k 1]
    simp only [acceptedCount, Nat.add_zero, Nat.add_eq_zero_iff, ih, ite_eq_right_iff, one_ne_zero, imp_false]
    constructor
    · rintro ⟨h1, h2⟩ i hi
      rcases Nat.lt_or_eq_of_le (Nat.lt_succ_iff.mp hi) with h | rfl
      · exact h1 i h
      · exact h2
    · exact fun h => ⟨fun i hi => h i (by omega), h k (by omega)⟩

/-- A run of refused chunks as long as there are sponge values never ends. -/
theorem rejected_for_ever (sp : Sponge) (h : acceptedCount spongeValues sp = 0) (k : Nat) : acceptedCount k sp = 0 := by
  rw [acceptedCount_eq_zero] at h ⊢
  obtain ⟨i, j, hij, hj, he⟩ := sponge_repeats fun n => afterChunks n sp
  have all : ∀ n, Rejected sp n := by
    intro n
    induction n using Nat.strong_induction_on with
    | _ n ih =>
      by_cases hn : n < spongeValues
      · exact h n hn
      · have h1 : afterChunks n sp = afterChunks (n - (j - i)) sp := by
          rw [show n = j + (n - j) by omega, afterChunks_add, ← he, ← afterChunks_add]
          congr 1
          omega
        have := ih (n - (j - i)) (by omega)
        unfold Rejected at this ⊢
        rwa [h1]
  exact fun n _ => all n

/-- If so many times as many chunks as there are sponge values hold fewer accepted ones, no number of chunks holds more. -/
theorem acceptedCount_bounded (need : Nat) (sp : Sponge) (h : acceptedCount (need * spongeValues) sp < need) (k : Nat) :
    acceptedCount k sp < need := by
  induction need using Nat.strong_induction_on generalizing sp k with
  | _ need ih =>
    obtain ⟨m, rfl⟩ : ∃ m, need = m + 1 := ⟨need - 1, by omega⟩
    by_cases h0 : acceptedCount spongeValues sp = 0
    · rw [rejected_for_ever sp h0]
      omega
    · rw [show (m + 1) * spongeValues = spongeValues + m * spongeValues by ring, acceptedCount_add] at h
      have h1 : (m + 1 - acceptedCount spongeValues sp) * spongeValues ≤ m * spongeValues :=
        Nat.mul_le_mul_right _ (by omega)
      have h2 := acceptedCount_mono _ _ (afterChunks spongeValues sp) h1
      by_cases hk : k ≤ spongeValues
      · have := acceptedCount_mono _ _ sp hk
        omega
      · have h3 := ih (m + 1 - acceptedCount spongeValues sp) (by omega) (afterChunks spongeValues sp) (by omega)
          (k - spongeValues)
        rw [show k = spongeValues + (k - spongeValues) by omega, acceptedCount_add]
        omega

theorem spongeValues_le_fuel : 512 * spongeValues ≤ sampleFuel := by
  have h : ∀ m n, n = 8 + m → 512 * (137 * 2 ^ m) ≤ 512 * 2 ^ n := by
    rintro m n rfl
    rw [Nat.pow_add]
    exact Nat.mul_le_mul_left _ (Nat.mul_le_mul_right _ (by decide))
  have h' : ∀ a m n, a = 2 ^ m → n = 8 + m → 512 * (137 * a) ≤ 512 * 2 ^ n := by
    rintro a m n rfl e
    exact h m n e
  unfold spongeValues sampleFuel
  refine h' _ (64 * 25) _ ?_ (by decide)
  exact (Nat.pow_mul 2 64 25).symm

/-- `H2P` runs out of fuel exactly when no number of chunks holds 512 accepted ones (R172; log 7). -/
theorem sample_never_ends_iff (sp : Sponge) :
    sample sampleFuel 512 sp [] = none ↔ ∀ k, acceptedCount k sp < 512 := by
  rw [sample_eq_none]
  refine ⟨fun h k => acceptedCount_bounded 512 sp ?_ k, fun h => h _⟩
  have := acceptedCount_mono _ _ sp spongeValues_le_fuel
  omega

end Sys2Proof.Machine
end

