-- ==== Sys2Proof/Laws/PerInstr.lean ====
section
/-! SUPPORT. Facts stated for every command as syntax, one lemma per constructor. -/

namespace Sys2Proof.Laws.RowWord

/-- The row of the opcode map for a command: `match` and `mask` as 30_encoding.md R73 prints them. -/
def row (i : Instr) : CommandWord × CommandWord :=
  match i with
  | .fadd => (0x0001#16, 0xFFFF#16)
  | .fsub => (0x0002#16, 0xFFFF#16)
  | .fmul => (0x0003#16, 0xFFFF#16)
  | .fctr => (0x0004#16, 0xFFFF#16)
  | .fcan => (0x0005#16, 0xFFFF#16)
  | .nttf _ => (0x0010#16, 0xFCFF#16)
  | .ntti _ => (0x0011#16, 0xFCFF#16)
  | .nttmul _ _ _ => (0x0012#16, 0xC0FF#16)
  | .pmul _ _ _ => (0x0020#16, 0xC0FF#16)
  | .psub _ _ _ => (0x0021#16, 0xC0FF#16)
  | .pctr _ _ => (0x0022#16, 0xF0FF#16)
  | .pcan _ _ => (0x0023#16, 0xF0FF#16)
  | .kecf => (0x0030#16, 0xFFFF#16)
  | .shinit => (0x0031#16, 0xFFFF#16)
  | .shabs _ => (0x0032#16, 0xFBFF#16)
  | .shfin => (0x0033#16, 0xFFFF#16)
  | .shsqz => (0x0034#16, 0xFFFF#16)
  | .h2p _ => (0x0040#16, 0xFCFF#16)
  | .pkdec _ => (0x0050#16, 0xFCFF#16)
  | .sigdec _ => (0x0051#16, 0xFCFF#16)
  | .norm _ _ => (0x0060#16, 0xC3FF#16)
  | .verify => (0x0070#16, 0xFFFF#16)

/-- The word of a well-formed command matches the command's own row. -/
def Statement (i : Instr) : Prop := i.wellFormed = true → encode i &&& (row i).2 = (row i).1

theorem fadd : Statement .fadd := fun _ => by decide
theorem fsub : Statement .fsub := fun _ => by decide
theorem fmul : Statement .fmul := fun _ => by decide
theorem fctr : Statement .fctr := fun _ => by decide
theorem fcan : Statement .fcan := fun _ => by decide
theorem nttf (rd : PReg) : Statement (.nttf rd) := fun _ => by revert rd; decide
theorem ntti (rd : PReg) : Statement (.ntti rd) := fun _ => by revert rd; decide
theorem nttmul (rd rs1 rs2 : PReg) : Statement (.nttmul rd rs1 rs2) := fun _ => by revert rd rs1 rs2; decide
theorem pmul (rd rs1 rs2 : PReg) : Statement (.pmul rd rs1 rs2) := fun _ => by revert rd rs1 rs2; decide
theorem psub (rd rs1 rs2 : PReg) : Statement (.psub rd rs1 rs2) := fun _ => by revert rd rs1 rs2; decide
theorem pctr (rd rs1 : PReg) : Statement (.pctr rd rs1) := fun _ => by revert rd rs1; decide
theorem pcan (rd rs1 : PReg) : Statement (.pcan rd rs1) := fun _ => by revert rd rs1; decide
theorem kecf : Statement .kecf := fun _ => by decide
theorem shinit : Statement .shinit := fun _ => by decide
theorem shabs (sel : Fin 4) : Statement (.shabs sel) := by
  unfold Statement
  revert sel
  decide
theorem shfin : Statement .shfin := fun _ => by decide
theorem shsqz : Statement .shsqz := fun _ => by decide
theorem h2p (rd : PReg) : Statement (.h2p rd) := fun _ => by revert rd; decide
theorem pkdec (rd : PReg) : Statement (.pkdec rd) := fun _ => by revert rd; decide
theorem sigdec (rd : PReg) : Statement (.sigdec rd) := fun _ => by revert rd; decide
theorem norm (rs1 rs2 : PReg) : Statement (.norm rs1 rs2) := fun _ => by revert rs1 rs2; decide
theorem verify : Statement .verify := fun _ => by decide

end Sys2Proof.Laws.RowWord
end

