-- ==== Sys2Proof/Laws/Verify.lean ====
section
/-! SUPPORT. How `VERIFY` goes from one line to the next (47_verify_orchestrator.md R222), and how a step goes from the
host's move to the command. -/

namespace Sys2Proof.Machine

/-- A line that ends with `ERR = 0` hands on to the next line. -/
theorem runLines_goes_on (k : Fin 7) (line : State → Result) (rest : List (Fin 7 × (State → Result))) (s t : State)
    (h : line (setPhase k s) = .next t) (he : t.err = .ok) : runLines ((k, line) :: rest) s = runLines rest t := by
  simp [runLines, h, he]

/-- A line that ends with `ERR != 0` ends the sequence, with `ACCEPT = 0`. -/
theorem runLines_stops (k : Fin 7) (line : State → Result) (rest : List (Fin 7 × (State → Result))) (s t : State)
    (h : line (setPhase k s) = .next t) (he : t.err ≠ .ok) :
    runLines ((k, line) :: rest) s = .next (setAccept false t) := by
  simp [runLines, h, he]

/-- Everything one line can lead to when the sequence answers a next state. -/
theorem runLines_cons_next (k : Fin 7) (line : State → Result) (rest : List (Fin 7 × (State → Result))) (s t : State)
    (h : runLines ((k, line) :: rest) s = .next t) :
    ∃ u, line (setPhase k s) = .next u ∧
      (u.err = .ok ∧ runLines rest u = .next t ∨ u.err ≠ .ok ∧ t = setAccept false u) := by
  rw [runLines] at h
  cases hl : line (setPhase k s) with
  | next u =>
    rw [hl] at h
    refine ⟨u, rfl, ?_⟩
    by_cases he : u.err = .ok
    · exact .inl ⟨he, by simpa [he] using h⟩
    · refine .inr ⟨he, ?_⟩
      simpa [he] using h.symm
  | fault r =>
    rw [hl] at h
    cases h
  | refused r =>
    rw [hl] at h
    cases h

@[simp] theorem runLines_nil (s : State) : runLines [] s = .next (setPhase 6 s) := rfl

/-! ### The steps of `VERIFY` -/

/-- The steps 1 to 3 with a key and a signature that decode, a message that fits and a sampling that ends: what is left to run
are the lines of the steps 4 and 5, on a state that holds the three polynomials (R222). -/
theorem execVerify_reaches_step_four (s : State) (pk sg m : List Byte) (h : List Nat) (d : DecodedSig) (c : List Nat)
    (sp : Sponge) (hpl : s.pklen.toNat = 897) (hpk : memRead s.pkbuf 897 = some pk) (hsl : s.siglen.toNat = 666)
    (hsg : memRead s.sigbuf 666 = some sg) (hml : s.mlen.toNat ≤ s.msgMax)
    (hm : memRead s.msgbuf s.mlen.toNat = some m) (hh : decodePk params 897 pk = .ok h)
    (hd : decodeSig params 666 sg = .ok d) (hsalt : memRead (memWrite s.salt 0 d.salt) 40 = some d.salt)
    (hc : sample sampleFuel 512 (finishSponge (absorb emptySponge (d.salt ++ m))) [] = some (c, sp)) :
    ∃ u, execVerify s = runLines (verifyLines.drop 7) u ∧ u.poly regH = polyOfNats h ∧ u.poly regS2 = polyOfInts d.s2 ∧
      u.poly regC = polyOfNats c := by
  unfold execVerify verifyLines
  have e1 : execPkdec regH (setPhase 1 s) = .next (complete (writePoly regH (polyOfNats h) (setPhase 1 s))) := by
    simp [execPkdec, readDeclared, hpl, hpk, hh]
  rw [runLines_goes_on _ _ _ _ _ e1 rfl]
  generalize hu : complete (writePoly regH (polyOfNats h) (setPhase 1 s)) = u1
  have p1 : u1.poly regH = polyOfNats h := by rw [← hu]; simp [State.poly, complete, writePoly]
  obtain ⟨a1, a2, a3, a4, a5, a6⟩ : u1.siglen = s.siglen ∧ u1.sigbuf = s.sigbuf ∧ u1.mlen = s.mlen ∧
      u1.msgbuf = s.msgbuf ∧ u1.msgMax = s.msgMax ∧ u1.salt = s.salt := by rw [← hu]; exact ⟨rfl, rfl, rfl, rfl, rfl, rfl⟩
  clear hu e1
  have e2 : execSigdec regS2 (setPhase 2 u1) = .next (complete (writePoly regS2 (polyOfInts d.s2)
      { setCursor d.pos (setPhase 2 u1) with salt := memWrite (setPhase 2 u1).salt 0 d.salt })) := by
    simp [execSigdec, readDeclared, a1, a2, hsl, hsg, hd]
  rw [runLines_goes_on _ _ _ _ _ e2 rfl]
  generalize hu : complete (writePoly regS2 (polyOfInts d.s2) _) = u2
  obtain ⟨p2, p3⟩ : u2.poly regH = polyOfNats h ∧ u2.poly regS2 = polyOfInts d.s2 := by
    rw [← hu, ← p1]
    simp [State.poly, complete, writePoly, finishCommand, setCursor, setPhase]
  obtain ⟨b3, b4, b5, b6⟩ : u2.mlen = s.mlen ∧ u2.msgbuf = s.msgbuf ∧ u2.msgMax = s.msgMax ∧
      u2.salt = memWrite s.salt 0 d.salt := by
    rw [← hu, ← a3, ← a4, ← a5, ← a6]
    exact ⟨rfl, rfl, rfl, rfl⟩
  clear hu e2
  rw [runLines_goes_on _ _ _ _ (complete { (setPhase 3 u2).setSponge emptySponge with kmode := .absorbing }) rfl rfl]
  generalize hu : complete { (setPhase 3 u2).setSponge emptySponge with kmode := .absorbing } = u3
  obtain ⟨q1, q2, c3, c4, c5, c6, c7, c8⟩ : u3.poly regH = u2.poly regH ∧ u3.poly regS2 = u2.poly regS2 ∧ u3.mlen = u2.mlen ∧
      u3.msgbuf = u2.msgbuf ∧ u3.msgMax = u2.msgMax ∧ u3.salt = u2.salt ∧ u3.kmode = .absorbing ∧
      u3.sponge = emptySponge := by
    rw [← hu]
    exact ⟨rfl, rfl, rfl, rfl, rfl, rfl, rfl, rfl⟩
  clear hu
  have e4 : execShabs 0 (setPhase 3 u3) =
      .next (complete ((setPhase 3 u3).setSponge (absorb (setPhase 3 u3).sponge d.salt))) := by
    have hs : memRead ((setPhase 3 u3).space .salt) 40 = some d.salt := by
      rw [← hsalt, ← b6, ← c6]
      rfl
    simp [execShabs, selectorLegal, c7, absorbSource, sourceBytes, hs]
  rw [runLines_goes_on _ _ _ _ _ e4 rfl]
  generalize hu : complete ((setPhase 3 u3).setSponge (absorb (setPhase 3 u3).sponge d.salt)) = u4
  obtain ⟨r1, r2, d3, d4, d5, d7, d8⟩ : u4.poly regH = u3.poly regH ∧ u4.poly regS2 = u3.poly regS2 ∧ u4.mlen = u3.mlen ∧
      u4.msgbuf = u3.msgbuf ∧ u4.msgMax = u3.msgMax ∧ u4.kmode = .absorbing ∧
      u4.sponge = absorb emptySponge d.salt := by
    rw [← hu, ← c8]
    exact ⟨rfl, rfl, rfl, rfl, rfl, c7, rfl⟩
  clear hu e4
  have e5 : execShabs 1 (setPhase 3 u4) =
      .next (complete ((setPhase 3 u4).setSponge (absorb (setPhase 3 u4).sponge m))) := by
    have hs : memRead ((setPhase 3 u4).space .msgbuf) u4.mlen.toNat = some m := by
      rw [d3, c3, b3, ← hm, ← b4, ← c4, ← d4]
      rfl
    have hl : ¬u4.msgMax < u4.mlen.toNat := by
      rw [d3, c3, b3, d5, c5, b5]
      omega
    simp [execShabs, selectorLegal, d7, absorbSource, sourceBytes, hs, hl]
  rw [runLines_goes_on _ _ _ _ _ e5 rfl]
  generalize hu : complete ((setPhase 3 u4).setSponge (absorb (setPhase 3 u4).sponge m)) = u5
  obtain ⟨s1, s2, e7, e8⟩ : u5.poly regH = u4.poly regH ∧ u5.poly regS2 = u4.poly regS2 ∧ u5.kmode = .absorbing ∧
      u5.sponge = absorb emptySponge (d.salt ++ m) := by
    rw [← hu, show absorb emptySponge (d.salt ++ m) = absorb (absorb emptySponge d.salt) m from List.foldl_append .., ← d8]
    exact ⟨rfl, rfl, d7, rfl⟩
  clear hu e5
  have e6 : execShfin (setPhase 3 u5) =
      .next (complete { (setPhase 3 u5).setSponge (finishSponge (setPhase 3 u5).sponge) with kmode := .squeezing }) := by
    simp [execShfin, e7]
  rw [runLines_goes_on _ _ _ _ _ e6 rfl]
  generalize hu : complete { (setPhase 3 u5).setSponge (finishSponge (setPhase 3 u5).sponge) with kmode := .squeezing } = u6
  obtain ⟨t1, t2, f7, f8⟩ : u6.poly regH = u5.poly regH ∧ u6.poly regS2 = u5.poly regS2 ∧ u6.kmode = .squeezing ∧
      u6.sponge = finishSponge (absorb emptySponge (d.salt ++ m)) := by
    rw [← hu, ← e8]
    exact ⟨rfl, rfl, rfl, rfl⟩
  clear hu e6
  have e9 : execH2p regC (setPhase 3 u6) =
      .next (complete (writePoly regC (polyOfNats c) ((setPhase 3 u6).setSponge sp))) := by
    rcases execH2p_cases regC (setPhase 3 u6) with ⟨y, -⟩ | ⟨-, y, -⟩ | ⟨-, c', sp', y, z⟩
    · rw [setPhase_kmode, f7] at y
      cases y
    · rw [show (setPhase 3 u6).sponge = u6.sponge from rfl, f8, hc] at y
      cases y
    · rw [show (setPhase 3 u6).sponge = u6.sponge from rfl, f8, hc] at y
      cases y
      exact z
  rw [runLines_goes_on _ _ _ _ _ e9 rfl]
  refine ⟨_, rfl, ?_⟩
  rw [← p2, ← p3, ← q1, ← q2, ← r1, ← r2, ← s1, ← s2, ← t1, ← t2]
  simp [State.poly, complete, writePoly, finishCommand, setPhase, State.setSponge]

/-- The squared norm that the steps 4 and 5 of `VERIFY` compute from the three polynomials
(47_verify_orchestrator.md R220). -/
def verifyNorm (h : List Nat) (s2 : List Int) (c : List Nat) : Nat :=
  normSquare ((List.zipWith fsub c (mulring (s2.map canon) h)).map center) s2

/-- The steps 4 and 5 of `VERIFY` on the polynomials that the steps before leave: no line fails but `NORM`, and the end is
accept or reject by the squared norm (R222, R225). -/
theorem runLines_from_step_four (u : State) (h : List Nat) (s2 : List Int) (c : List Nat)
    (ph : u.poly regH = polyOfNats h) (ps : u.poly regS2 = polyOfInts s2) (pc : u.poly regC = polyOfNats c)
    (hh : h.length = 512 ∧ ∀ x ∈ h, x < Config.q) (hs : s2.length = 512 ∧ ∀ v ∈ s2, v.natAbs ≤ 2047)
    (hc : c.length = 512 ∧ ∀ x ∈ c, x < Config.q) :
    ∃ t, runLines (verifyLines.drop 7) u = .next t ∧
      (verifyNorm h s2 c ≤ 34034726 → t.accept = true ∧ t.err = .ok ∧ t.phase = 6) ∧
      (34034726 < verifyNorm h s2 c → t.accept = false ∧ t.err = .verificationFailed ∧ t.phase = 5) := by
  have bs : ∀ v ∈ s2, -2047 ≤ v ∧ v ≤ 2047 := fun v hv => by
    have := hs.2 v hv
    omega
  have l2 : signedLanes (polyOfInts s2) = s2 := signedLanes_polyOfInts s2 hs.1 fun v hv => by
    have := bs v hv
    omega
  have r2 : ∀ lo hi : Int, lo ≤ -2047 → 2047 ≤ hi → rangedLanes lo hi (polyOfInts s2) = some s2 := fun lo hi h1 h2 => by
    refine (rangedLanes_eq_some lo hi (polyOfInts s2) s2).mpr ⟨l2.symm, fun v hv => ?_⟩
    have := bs v hv
    omega
  have lh := canonicalLanes_polyOfNats h hh.1 hh.2
  have lc := canonicalLanes_polyOfNats c hc.1 hc.2
  have lt : canonicalLanes (polyOfNats (s2.map canon)) = some (s2.map canon) :=
    canonicalLanes_polyOfNats _ (by simp [hs.1]) fun x hx => by
      obtain ⟨v, hv, rfl⟩ := List.mem_map.mp hx
      have := bs v hv
      exact canon_lt v (by omega) (by omega)
  have lm := canonicalLanes_polyOfNats (mulring (s2.map canon) h) (length_mulring _ _ (by simp [hs.1]) hh.1)
    (mulring_canonical _ _)
  have ld : canonicalLanes (polyOfNats (List.zipWith fsub c (mulring (s2.map canon) h))) =
      some (List.zipWith fsub c (mulring (s2.map canon) h)) :=
    canonicalLanes_polyOfNats _
      (by rw [List.length_zipWith, hc.1, length_mulring _ _ (by simp [hs.1]) hh.1]; rfl)
      (allCanonical_zipWith _ fsub_lt _ _)
  generalize hz : List.zipWith fsub c (mulring (s2.map canon) h) = z at ld
  have zl : z.length = 512 := by
    rw [← hz, List.length_zipWith, hc.1, length_mulring _ _ (by simp [hs.1]) hh.1]
    rfl
  have zb : ∀ x ∈ z, x < Config.q := by
    rw [← hz]
    exact allCanonical_zipWith _ fsub_lt _ _
  have cb : ∀ v ∈ z.map center, -6144 ≤ v ∧ v ≤ 6144 := fun v hv => by
    obtain ⟨x, hx, rfl⟩ := List.mem_map.mp hv
    exact center_range x (zb x hx)
  have lz : rangedLanes (-6144) 12288 (polyOfInts (z.map center)) = some (z.map center) := by
    refine (rangedLanes_eq_some _ _ _ _).mpr ⟨?_, fun v hv => ?_⟩
    · exact (signedLanes_polyOfInts _ (by simp [zl]) fun v hv => by have := cb v hv; omega).symm
    · have := cb v hv
      omega
  have hn : verifyNorm h s2 c = normSquare (z.map center) s2 := by rw [verifyNorm, hz]
  rw [hn]
  show ∃ t, runLines ((4, execPcan regT regS2) :: (4, execNttmul regT regT regH) :: (4, execPsub regT regC regT) ::
    (4, execPctr regT regT) :: (5, execNorm regT regS2) :: []) u = .next t ∧ _
  have e1 : execPcan regT regS2 (setPhase 4 u) =
      .next (complete (writePoly regT (polyOfNats (s2.map canon)) (setPhase 4 u))) := by
    have h1 : (setPhase 4 u).poly regS2 = polyOfInts s2 := ps
    simp only [execPcan, h1, r2 (-12288) 12288 (by omega) (by omega)]
  rw [runLines_goes_on _ _ _ _ _ e1 rfl]
  generalize hu : complete (writePoly regT (polyOfNats (s2.map canon)) (setPhase 4 u)) = u1
  obtain ⟨a0, a1, a2, a3⟩ : u1.poly regH = u.poly regH ∧ u1.poly regS2 = u.poly regS2 ∧ u1.poly regC = u.poly regC ∧
      u1.poly regT = polyOfNats (s2.map canon) := by
    rw [← hu]
    simp [State.poly, complete, writePoly, finishCommand, setPhase]
  clear hu e1
  have e2 : execNttmul regT regT regH (setPhase 4 u1) =
      .next (complete (writePoly regT (polyOfNats (mulring (s2.map canon) h)) (setPhase 4 u1))) := by
    have h1 : (setPhase 4 u1).poly regT = polyOfNats (s2.map canon) := a3
    have h2 : (setPhase 4 u1).poly regH = polyOfNats h := a0.trans ph
    simp [execNttmul, canonicalBinary, canonicalPair, h1, h2, lt, lh]
  rw [runLines_goes_on _ _ _ _ _ e2 rfl]
  generalize hu : complete (writePoly regT (polyOfNats (mulring (s2.map canon) h)) (setPhase 4 u1)) = u2
  obtain ⟨b1, b2, b3⟩ : u2.poly regS2 = u1.poly regS2 ∧ u2.poly regC = u1.poly regC ∧
      u2.poly regT = polyOfNats (mulring (s2.map canon) h) := by
    rw [← hu]
    simp [State.poly, complete, writePoly, finishCommand, setPhase]
  clear hu e2
  have e3 : execPsub regT regC regT (setPhase 4 u2) = .next (complete (writePoly regT (polyOfNats z) (setPhase 4 u2))) := by
    have h1 : (setPhase 4 u2).poly regT = polyOfNats (mulring (s2.map canon) h) := b3
    have h2 : (setPhase 4 u2).poly regC = polyOfNats c := b2.trans (a2.trans pc)
    simp [execPsub, canonicalBinary, canonicalPair, h1, h2, lm, lc, hz]
  rw [runLines_goes_on _ _ _ _ _ e3 rfl]
  generalize hu : complete (writePoly regT (polyOfNats z) (setPhase 4 u2)) = u3
  obtain ⟨c1, c3⟩ : u3.poly regS2 = u2.poly regS2 ∧ u3.poly regT = polyOfNats z := by
    rw [← hu]
    simp [State.poly, complete, writePoly, finishCommand, setPhase]
  clear hu e3
  have e4 : execPctr regT regT (setPhase 4 u3) =
      .next (complete (writePoly regT (polyOfInts (z.map center)) (setPhase 4 u3))) := by
    have h1 : (setPhase 4 u3).poly regT = polyOfNats z := c3
    simp [execPctr, h1, ld]
  rw [runLines_goes_on _ _ _ _ _ e4 rfl]
  generalize hu : complete (writePoly regT (polyOfInts (z.map center)) (setPhase 4 u3)) = u4
  obtain ⟨d1, d3⟩ : u4.poly regS2 = u3.poly regS2 ∧ u4.poly regT = polyOfInts (z.map center) := by
    rw [← hu]
    simp [State.poly, complete, writePoly, finishCommand, setPhase]
  clear hu e4
  have e5 : execNorm regT regS2 (setPhase 5 u4) =
      .next (normResult params (normSquare (z.map center) s2) (setPhase 5 u4)) := by
    have h1 : (setPhase 5 u4).poly regT = polyOfInts (z.map center) := d3
    have h2 : (setPhase 5 u4).poly regS2 = polyOfInts s2 := d1.trans (c1.trans (b1.trans (a1.trans ps)))
    simp only [execNorm, h1, h2, lz, r2 (-6144) 12288 (by omega) (by omega)]
  by_cases hb : normSquare (z.map center) s2 ≤ 34034726
  · have hr : normResult params (normSquare (z.map center) s2) (setPhase 5 u4) = complete (setAccept true
        { setPhase 5 u4 with normsq := BitVec.ofNat 64 (normSquare (z.map center) s2) }) := if_pos hb
    rw [hr] at e5
    rw [runLines_goes_on _ _ _ _ _ e5 rfl]
    exact ⟨_, rfl, fun _ => ⟨rfl, rfl, rfl⟩, fun hx => by omega⟩
  · have hr : normResult params (normSquare (z.map center) s2) (setPhase 5 u4) = raise .verificationFailed (setAccept false
        { setPhase 5 u4 with normsq := BitVec.ofNat 64 (normSquare (z.map center) s2) }) := if_neg hb
    rw [hr] at e5
    rw [runLines_stops _ _ _ _ _ e5 (by simp [raise, finishCommand])]
    exact ⟨_, rfl, fun hx => by omega, fun _ => ⟨rfl, rfl, rfl⟩⟩

/-! ### Steps -/

/-- A step with no move to make. -/
theorem step_idle (s : State) (h : s.moves = []) : step s = .next s := by
  simp [step, takeMove, h]

/-- A step with a move to make is that move, made on the state that no longer holds it. -/
theorem step_move (s : State) (m : HostMove) (rest : List HostMove) (h : s.moves = m :: rest) :
    step s = makeMove m { s with moves := rest } := by
  simp [step, takeMove, h]

/-- The state after reset of a core whose buffer has another size differs in that size only. -/
theorem resetFor_eq (m : Nat) : State.resetFor m = { State.reset with msgMax := m } := rfl

end Sys2Proof.Machine
end

