-- ==== Sys2Proof/Tests/Slice0.lean ====
section
/-! SUPPORT. The model's own tests: each expected value is one the spec prints (95_test_vectors.md, by the id named, or the
rule named); and for each statement of the obligations that has hypotheses, a witness that meets them. -/

namespace Sys2Proof.Tests

set_option Elab.async false

open Sys2Proof.Machine

/-! ### Helpers -/

/-- The bytes of a number of `k` bytes, most significant byte first: a dump in buffer order. -/
def bytesOf (k x : Nat) : List Byte := (List.range k).map fun i => BitVec.ofNat 8 (x / 256 ^ (k - 1 - i) % 256)

/-- A buffer that holds these bytes from index 0 on. -/
def buffer (l : List Byte) : Memory := l.zipIdx.map fun c => (c.2, c.1)

/-- A register with these lanes first, and 0 after them. -/
def reg (l : List Int) : Poly := polyOfInts l

/-- The state after reset with two registers loaded. -/
def twoRegs (v0 v1 : Poly) : State := writePoly 1 v1 (writePoly 0 v0 State.reset)

/-- One step that runs a word: the next state, if it is one. -/
def run (s : State) (w : Nat) : Option State :=
  match step (s.withFetchWord 16 w) with
  | .next t => some t
  | .fault _ => none
  | .refused _ => none

/-- The first `k` lanes of a register, signed. -/
def lanes (k : Nat) (r : PReg) (t : State) : List Int := (signedLanes (t.poly r)).take k

/-- The sum of the lanes of a register. -/
def laneSum (r : PReg) (t : State) : Int := (signedLanes (t.poly r)).foldl (· + ·) 0

/-! ### Well-formedness: a term the check refuses, and one it takes -/

theorem test_selector_two_is_ill_formed : (Instr.shabs 2).wellFormed = false := by decide

theorem test_selector_three_is_ill_formed : (Instr.shabs 3).wellFormed = false := by decide

theorem test_selectors_zero_and_one_are_well_formed :
    (Instr.shabs 0).wellFormed = true ∧ (Instr.shabs 1).wellFormed = true := by decide

/-! ### Decoding: words written out from R71 to R73 (rsv rs2 rs1 rd op), most of them listed in section 6 -/

theorem test_decode_field_unit :
    decode 0b00_00_00_00_00000001#16 = .ok .fadd ∧ decode 0b00_00_00_00_00000010#16 = .ok .fsub ∧
    decode 0b00_00_00_00_00000011#16 = .ok .fmul ∧ decode 0b00_00_00_00_00000100#16 = .ok .fctr ∧
    decode 0b00_00_00_00_00000101#16 = .ok .fcan := by decide

theorem test_decode_transforms :
    decode 0b00_00_00_11_00010000#16 = .ok (.nttf 3) ∧ decode 0b00_00_00_10_00010001#16 = .ok (.ntti 2) ∧
    decode 0b00_00_11_11_00010010#16 = .ok (.nttmul 3 3 0) ∧ decode 0b00_11_11_11_00010010#16 = .ok (.nttmul 3 3 3) := by
  decide

theorem test_decode_pointwise :
    decode 0b00_01_00_10_00100000#16 = .ok (.pmul 2 0 1) ∧ decode 0b00_11_10_11_00100001#16 = .ok (.psub 3 2 3) ∧
    decode 0b00_00_11_11_00100010#16 = .ok (.pctr 3 3) ∧ decode 0b00_00_01_11_00100011#16 = .ok (.pcan 3 1) ∧
    decode 0b00_00_00_01_00100011#16 = .ok (.pcan 1 0) := by decide

theorem test_decode_sponge :
    decode 0b00_00_00_00_00110000#16 = .ok .kecf ∧ decode 0b00_00_00_00_00110001#16 = .ok .shinit ∧
    decode 0b00_00_00_00_00110010#16 = .ok (.shabs 0) ∧ decode 0b00_00_01_00_00110010#16 = .ok (.shabs 1) ∧
    decode 0b00_00_00_00_00110011#16 = .ok .shfin ∧ decode 0b00_00_00_00_00110100#16 = .ok .shsqz := by decide

theorem test_decode_units :
    decode 0b00_00_00_10_01000000#16 = .ok (.h2p 2) ∧ decode 0b00_00_00_00_01010000#16 = .ok (.pkdec 0) ∧
    decode 0b00_00_00_01_01010001#16 = .ok (.sigdec 1) ∧ decode 0b00_01_11_00_01100000#16 = .ok (.norm 3 1) ∧
    decode 0b00_00_00_00_01110000#16 = .ok .verify := by decide

theorem test_illegal_words :
    decode 0x0000#16 = .error .unknownOp ∧ decode 0xFFFF#16 = .error .reservedBits ∧
    decode 0x0006#16 = .error .unknownOp ∧ decode 0x0103#16 = .error .unusedField ∧
    decode 0x1022#16 = .error .unusedField ∧ decode 0x0360#16 = .error .unusedField ∧
    decode 0x0832#16 = .error .unusedField ∧ decode 0x0C32#16 = .error .unusedField ∧
    decode 0x4070#16 = .error .reservedBits ∧ decode 0x8001#16 = .error .reservedBits := by decide

/-- R76: an illegal word reports and changes nothing else. -/
theorem test_illegal_word_reports : run { State.reset with r := 7, accept := true } 0x0832 =
    some { State.reset with r := 7, accept := true, err := .illegalCommand, done := true } := by rfl

/-! ### Tables: the check values and sums of R112 and R113 -/

theorem test_forward_table :
    tw.length = 512 ∧ tw.getD 1 0 = 10810 ∧ tw.getD 256 0 = 49 ∧ tw.getD 511 0 = 11035 ∧
      tw.foldl (· + ·) 0 = 3183363 := by decide +kernel

theorem test_inverse_table :
    itw.length = 512 ∧ itw.getD 1 0 = 1479 ∧ itw.getD 256 0 = 1254 ∧ itw.getD 511 0 = 12240 ∧
      itw.foldl (· + ·) 0 = 3096318 ∧ (List.zipWith fmul tw itw).all (fun x => x == 1) = true := by decide +kernel

/-- R8: nine stages, 24 rounds, 25 lanes. -/
theorem test_counts : nttStages.length = 9 ∧ inttStages.length = 9 ∧ roundConstants.length = 24 ∧
    rhoOffsets.length = 25 ∧ piSlots.length = 25 := by decide

/-! ### S2.1 field unit -/

theorem test_fadd : (run { State.reset with a := 6144, b := 6145 } 0x0001).map (fun t => (t.r, t.err)) = some (0, .ok) ∧
    (run { State.reset with a := 12000, b := 500 } 0x0001).map (fun t => (t.r, t.err)) = some (211, .ok) := by
  decide +kernel

theorem test_fadd_range : (run { State.reset with a := 5, b := 0xFFFF, r := 77 } 0x0001).map (fun t => (t.r, t.err)) =
    some (77, .operandRange) := by decide +kernel

theorem test_fsub : (run { State.reset with a := 0, b := 1 } 0x0002).map (fun t => (t.r, t.err)) = some (12288, .ok) ∧
    (run { State.reset with a := 100, b := 300 } 0x0002).map (fun t => (t.r, t.err)) = some (12089, .ok) := by
  decide +kernel

theorem test_fmul : (run { State.reset with a := 12288, b := 12288 } 0x0003).map (fun t => (t.r, t.err)) =
      some (1, .ok) ∧
    (run { State.reset with a := 1234, b := 5678 } 0x0003).map (fun t => (t.r, t.err)) = some (1922, .ok) := by
  decide +kernel

theorem test_fctr : (run { State.reset with a := 6144 } 0x0004).map (fun t => (t.r, t.err)) = some (0x1800, .ok) ∧
    (run { State.reset with a := 6145 } 0x0004).map (fun t => (t.r, t.err)) = some (0xE800, .ok) := by decide +kernel

theorem test_fcan : (run { State.reset with a := 0xF801 } 0x0005).map (fun t => (t.r, t.err)) = some (10242, .ok) ∧
    (run { State.reset with a := 0xCFFF } 0x0005).map (fun t => (t.r, t.err)) = some (0, .operandRange) := by
  decide +kernel

/-! ### S2.2 transforms -/

/-- T3: the transform of `x`. -/
theorem test_nttf : (run (twoRegs (reg [0, 1]) (reg [])) 0x0010).map
    (fun t => (lanes 8 0 t, (signedLanes (t.poly 0)).drop 510, laneSum 0 t, t.err)) =
    some ([49, 12240, 1263, 11026, 5915, 6374, 1483, 10806], [11035, 1254], 3145984, .ok) := by decide +kernel

/-- T8: the inverse transform of the ramp. -/
theorem test_ntti : (run (twoRegs (reg []) (reg ((List.range 512).map fun i : Nat => (i : Int)))) 0x0111).map
    (fun t => (lanes 8 1 t, (signedLanes (t.poly 1)).drop 508, laneSum 1 t, t.err)) =
    some ([6400, 2213, 7599, 9119, 884, 2359, 5352, 9873], [884, 9119, 7599, 2213], 3261926, .ok) := by decide +kernel

/-- A second source that is not canonical (T10); `NTTMUL` with its effect is in V1 below. -/
theorem test_nttmul_range : (run (twoRegs (reg [0, 1]) (reg [12289])) 0x1212).map (fun t => (lanes 2 2 t, t.err)) =
    some ([0, 0], .operandRange) := by decide +kernel

/-- T11: a lane that is not canonical. -/
theorem test_nttf_range : (run (twoRegs (reg [0, 0, 0, 0, 0, 0, 0, -1]) (reg [])) 0x0010).map
    (fun t => (lanes 9 0 t, t.err)) = some ([0, 0, 0, 0, 0, 0, 0, -1, 0], .operandRange) := by decide +kernel

/-! ### S2.3 pointwise -/

/-- W2. -/
theorem test_pmul : (run (twoRegs (reg ((List.range 512).map fun i : Nat => 12288 - (i : Int))) (reg [])) 0x0220).map
    (fun t => (lanes 4 2 t, ((lanes 111 2 t).drop 110), t.err)) = some ([1, 4, 9, 16], [32], .ok) := by decide +kernel

/-- W4. -/
theorem test_psub : (run (twoRegs (reg (List.replicate 512 5)) (reg ((List.range 512).map fun i : Nat => (i : Int)))) 0x1221).map
    (fun t => (lanes 8 2 t, t.err)) = some ([5, 4, 3, 2, 1, 0, 12288, 12287], .ok) := by decide +kernel

/-- W6. -/
theorem test_pctr : (run (twoRegs (reg [0, 1, 6144, 6145, 12288]) (reg [])) 0x0122).map
    (fun t => (lanes 6 1 t, t.err)) = some ([0, 1, 6144, -6144, -1, 0], .ok) := by decide +kernel

/-- W8, and W9 with the lane -12289. -/
theorem test_pcan : (run (twoRegs (reg [-11, -4, 3, 10, -6, 1, 8, -8]) (reg [])) 0x0123).map
      (fun t => (lanes 8 1 t, t.err)) = some ([12278, 12285, 3, 10, 12283, 1, 8, 12281], .ok) ∧
    (run (twoRegs (reg [-12289]) (reg [7])) 0x0123).map (fun t => (lanes 2 1 t, t.err)) =
      some ([7, 0], .operandRange) := by decide +kernel

/-! ### Section 3, the sponge -/

/-- K-a. -/
theorem test_kecf : (run State.reset 0x0030).map (fun t => (lane t.ks 0, lane t.ks 24, t.kcur, t.err)) =
    some (0xF1258F7940E1DDE7#64, 0xEAF1FF7B5CECA249#64, 0, .ok) := by decide +kernel

/-- R153: the zero sponge, absorbing. -/
theorem test_shinit : (run { State.reset with ks := Vector.replicate 25 5, kcur := 136, kmode := .squeezing } 0x0031) =
    some { State.reset with done := true } := by rfl

/-- H-a: after `SHABS SALT`. -/
theorem test_shabs_salt : (run { State.reset with salt := buffer ((List.range 40).map (BitVec.ofNat 8)) } 0x0032).map
    (fun t => (t.kcur, lane t.ks 0, lane t.ks 4, lane t.ks 5, t.err)) =
    some (40, 0x0706050403020100#64, 0x2726252423222120#64, 0#64, .ok) := by decide +kernel

/-- K-d and K-i: the message, and a message longer than the buffer. -/
theorem test_shabs_msg :
    (run { State.reset with msgbuf := buffer [0x61, 0x62, 0x63], mlen := 3 } 0x0432).map
      (fun t => (t.kcur, lane t.ks 0, t.err)) = some (3, 0x636261#64, .ok) ∧
    (run { State.reset with msgMax := 5, mlen := 6 } 0x0432).map (fun t => (t.kcur, t.err)) = some (0, .lengthRange) := by
  decide +kernel

/-- K-c and K-e: the padding in two bytes, and in one. -/
theorem test_shfin :
    (run State.reset 0x0033).map (fun t => (lane t.ks 0, lane t.ks 16, t.kcur, t.kmode, t.err)) =
      some (0x1F#64, 0x8000000000000000#64, 136, .squeezing, .ok) ∧
    (run { State.reset with kcur := 135, ks := State.reset.ks.set 16 0x00A3A3A3A3A3A3A3 } 0x0033).map
      (fun t => lane t.ks 16) = some 0x9FA3A3A3A3A3A3A3#64 := by decide +kernel

/-- K-d: the first byte after the padding of "abc". -/
theorem test_shsqz : (run { State.reset with
    ks := (State.reset.ks.set 0 0x1F636261).set 16 0x8000000000000000, kcur := 136, kmode := .squeezing } 0x0034).map
    (fun t => (lane t.ks 0, t.r, t.kcur, t.err)) = some (0x77A8601360663348#64, 0x48, 1, .ok) := by decide +kernel

/-- K-i and H-c: the mode errors. -/
theorem test_sponge_modes :
    (run State.reset 0x0034).map (fun t => t.err) = some .spongeMode ∧
    (run State.reset 0x0240).map (fun t => t.err) = some .spongeMode ∧
    (run { State.reset with kmode := .squeezing } 0x0033).map (fun t => t.err) = some .spongeMode ∧
    (run { State.reset with kmode := .squeezing, mlen := 0xFFFFFFFF } 0x0432).map (fun t => t.err) = some .spongeMode := by
  decide +kernel

/-! ### S5.2 and S5.3, the decoders -/

/-- A core with these key bytes. -/
def withKey (l : List Byte) : State := { State.reset with pklen := 897, pkbuf := buffer l }

/-- A core with these signature bytes. -/
def withSig (l : List Byte) : State := { State.reset with siglen := 666, sigbuf := buffer l }

/-- Header and the salt 00 to 27. -/
def sigHead : List Byte := 0x39 :: (List.range 40).map (BitVec.ofNat 8)

/-- P3: every coefficient 12288. -/
def keyAllMax : List Byte := 0x09 :: (List.replicate 128 [0xC0, 0x03, 0x00, 0x0C, 0x00, 0x30, 0x00]).flatten

theorem test_decode_pk : (decodePk params 897 keyAllMax).toOption = some (List.replicate 512 12288) := by decide +kernel

/-- P4: the last field is 12289. -/
theorem test_pkdec_coefficient :
    (run (withKey (0x09 :: List.replicate 893 0x00 ++ [0x00, 0x30, 0x01])) 0x0050).map (fun t => (lanes 2 0 t, t.err)) =
    some ([0, 0], .badCoefficient) := by decide +kernel

/-- K6: fifteen zeros, then 511 codes of 0. -/
theorem test_sigdec : (run (withSig (sigHead ++ bytesOf 3 0x7F0001 ++
      (List.replicate 63 (bytesOf 9 0x008040201008040201)).flatten ++
      bytesOf 8 0x0080402010080402 ++ List.replicate 47 0)) 0x0151).map
    (fun t => ((lanes 2 1 t, laneSum 1 t, t.err), t.byteix, t.bitoff, Memory.read t.salt 39)) =
    some (([2047, 0], 2047, .ok), 618, 7, some 39) := by decide +kernel

/-- K9: the buffer ends inside a unary run; each three bytes are one code of 1920. -/
theorem test_sigdec_desync :
    (run (withSig (sigHead ++ (List.replicate 208 [0x00#8, 0x00#8, 0x01#8]).flatten ++ [0])) 0x0151).map
    (fun t => (lanes 2 1 t, t.byteix, t.bitoff, t.salt.length, t.err)) = some ([0, 0], 666, 0, 0, .codecDesync) := by decide +kernel

/-- K16, with another value of a parameter: the magnitude is checked after the run. -/
theorem test_unary_max_is_a_parameter :
    decodeCoeff { params with unaryMax := 20 } ⟨328, streamBits (bytesOf 25 (0x7F00008 * 256 ^ 21 * 16))⟩ =
    .error (.codecOverflow, 353) := by decide +kernel

/-! ### S5.4 norm -/

/-- B1 and B2: on the bound, and one above it. -/
theorem test_norm :
    (run (twoRegs (reg [5833, 104, 4, 2, 1]) (reg [])) 0x1060).map (fun t => (t.normsq, t.accept, t.err)) =
      some (34034726, true, .ok) ∧
    (run (twoRegs (reg [5833, 104, 4, 2, 1]) (reg [12288])) 0x1060).map (fun t => (t.normsq, t.accept, t.err)) =
      some (34034727, false, .verificationFailed) := by decide +kernel

/-- B4 and B6: the largest sum, and an operand out of range. -/
theorem test_norm_range :
    (run (twoRegs (reg (List.replicate 512 6144)) (reg (List.replicate 512 6145))) 0x1060).map
      (fun t => (t.normsq, t.accept, t.err)) = some (38654705664, false, .verificationFailed) ∧
    (run { twoRegs (reg [-6145]) (reg []) with accept := true, normsq := 3 } 0x1060).map
      (fun t => (t.normsq, t.accept, t.err)) = some (3, false, .operandRange) := by decide +kernel

/-! ### The tables of the permutation -/

/-- R149: the check value the statements hold is the model's result; R143, R144: so are their tables. -/
theorem test_permutation_tables : (List.range 24).map Cert.rc = roundConstants ∧ Cert.rho = rhoOffsets ∧
    (keccakF (Vector.replicate 25 0)).toList = Cert.permutedZero.flatten := by decide +kernel

/-! ### Lanes never written -/

/-- R262, R39: which steps have a meaning: one lane short is not enough, and a `VERIFY` reads no register it has not written. -/
theorem test_meaningful :
    Safety.meaningful ((twoRegs (reg []) (reg [])).withFetchWord 16 0x0723) = true ∧
    Safety.meaningful ((writeLane 1 511 7 State.reset).withFetchWord 16 0x0723) = false ∧
    Safety.meaningful (State.reset.withFetchWord 16 0x0070) = true ∧
    Safety.meaningful { writeLane 3 511 7 State.reset with moves := [.read (.p 3 511)] } = true ∧
    Safety.meaningful { writeLane 3 511 7 State.reset with moves := [.read (.p 3 510)] } = false := by decide +kernel

/-! ### S5.1 and S5.5, the whole verification -/

/-- `PKBUF` of S5.1. -/
def s51Key : List Byte :=
  bytesOf 48 0x09111c832bec864a17312916eb53dc32c83a3b70e97f9a197e55e21b1f04b4d8e4be405bb94ef6142ec333665991d8b1 ++
  bytesOf 48 0x6f9965aa3611d2993d9ef4e7511c1d07234e0b0aa549a2914283d8f704e40cf801d6f4a3b836e9de14211e2f49083cc1 ++
  bytesOf 48 0x2021cd6dc8026507c94270beae9746a1a098dcb66b1ecdc558966490960508481477e4f1292d53fe0d76e144f5080e50 ++
  bytesOf 48 0x31de827c696cfe31e1696f65c8995a4c61e7134dee23eb697cb3f8cfb49322d266de04f5a7e79d388a7810da8df73621 ++
  bytesOf 48 0x84ba4baf383e0ce69781c93ca83057ebf0ec6b0a50ddbadb021c87185e0bbfca4e49126fd639151d2990f0086e1ef957 ++
  bytesOf 48 0xfc12e2b82dac02703575fa40daaaacd5c9f3d686224cf52a3727d9aeb0d759191f5d490658caa8eb2622a2dfe8b224ed ++
  bytesOf 48 0x7929f152da5ba45a6858bb5ee6216741e0e5a49ff87430e9b61b84f4328db202ec61b8b4de00c5c05125349d0cf040db ++
  bytesOf 48 0x82b438d06389c1caa6b47e85278afbae7919c613df3d15ec6f63efc97f326c2c05649b1fbf22fa99e080f79d9d2cf998 ++
  bytesOf 48 0xe6da700cb2f2bcd54a7e4dd0629850f3b07c6fe82ce6d13e2d37a83fe87523785564dc4a5e780d75d9fde57b04511fa7 ++
  bytesOf 48 0x08aa36087ea59722c3fe3be0fb7164dc764c4c5cfa87e81d3fc5194a4703db95c8399a7e05e4772c0bd570236d3e9173 ++
  bytesOf 48 0xd760d1f10af28171e68fb321329466b2eb3ea896f5c71751657ae99ce0a75ab17c12c55b14889893f99ce98f2eb9a802 ++
  bytesOf 48 0x244ba86e650cc1e708aba7f00fd9678b3f6bf36f5691f61bc437718d4a5334e61e99810deb908c57348a194a8acc28bb ++
  bytesOf 48 0xb69d540b9b746799112b0d859a2c617505e1e15508a18e9515e2680a6c9475376a7c8f1db9a015d182adc140a08057c7 ++
  bytesOf 48 0x8070dac25199889b30db6207dc89a57e297aa16e53a22633a60dce9371da5fc39762676aae03541b917bafcafc83aa1b ++
  bytesOf 48 0x969cf04cb77a29735620e897fc81ac7dbac6082f92a12f75cca07d046045c9894a79d246907682b1dedaf60860830944 ++
  bytesOf 48 0x59786378b4329846976e429f8a396f8dbbea5ee59ed1806a94f415e5cb31422177722c058342d8e8b4e7c151b7558245 ++
  bytesOf 48 0x6803ef855e7505e50c3f4bdee285989672abad83c714c1125a51ab5a144b07275295285d0e642025a23430a5161930ae ++
  bytesOf 48 0xf14d95a616dcf1f80e1f7863a2bfc8a42f920e8db681be62cd799da0f1c712bb5f205f54a5efd42346e0e93c851e2d90 ++
  bytesOf 33 0x81e71457893375cc0a3160a903f432fb29e6a1b03d60a8d3c3dc4bde23952dea32

/-- `SIGBUF` of S5.1. -/
def s51Sig : List Byte :=
  bytesOf 48 0x39000102030405060708090a0b0c0d0e0f101112131415161718191a1b1c1d1e1f20212223242526278bc240e158680c ++
  bytesOf 48 0x2311818362b070485e160509c3c020f89c1417178481c2b0d01846230306c560e090bc2c0a13878041f138282e2f0903 ++
  bytesOf 48 0x8561a0308c46060d8ac1c121785814270f0083e270505c5e12070ac34061188c0c1b15838242f0b0284e1e0107c4e0a0 ++
  bytesOf 48 0xb8bc240e158680c2311818362b070485e160509c3c020f89c1417178481c2b0d01846230306c560e090bc2c0a1387804 ++
  bytesOf 48 0x1f138282e2f09038561a0308c46060d8ac1c121785814270f0083e270505c5e12070ac34061188c0c1b15838242f0b02 ++
  bytesOf 48 0x84e1e0107c4e0a0b8bc240e158680c2311818362b070485e160509c3c020f89c1417178481c2b0d01846230306c560e0 ++
  bytesOf 48 0x90bc2c0a13878041f138282e2f09038561a0308c46060d8ac1c121785814270f0083e270505c5e12070ac34061188c0c ++
  bytesOf 48 0x1b15838242f0b0284e1e0107c4e0a0b8bc240e158680c2311818362b070485e160509c3c020f89c1417178481c2b0d01 ++
  bytesOf 48 0x846230306c560e090bc2c0a13878041f138282e2f09038561a0308c46060d8ac1c121785814270f0083e270505c5e120 ++
  bytesOf 48 0x70ac34061188c0c1b15838242f0b0284e1e0107c4e0a0b8bc240e158680c2311818362b070485e160509c3c020f89c14 ++
  bytesOf 48 0x17178481c2b0d01846230306c560e090bc2c0a13878041f138282e2f09038561a0308c46060d8ac1c121785814270f00 ++
  bytesOf 48 0x83e270505c5e12070ac34061188c0c1b15838242f0b0284e1e0107c4e0a0b8bc240e158680c2311818362b070485e160 ++
  bytesOf 48 0x509c3c020f89c1417178481c2b0d01846230306c560e090bc2c0a13878041f138282e2f09038561a0300000000000000 ++
  bytesOf 42 0x000000000000000000000000000000000000000000000000000000000000000000000000000000000000

/-- "test message". -/
def s51Msg : List Byte := bytesOf 12 0x74657374206D657373616765

/-- S5.1 loaded, and the command word accepted. -/
def s51 : State :=
  { State.reset with
    pkbuf := buffer s51Key, sigbuf := buffer s51Sig, msgbuf := buffer s51Msg, pklen := 897, siglen := 666, mlen := 12,
    busy := true }

/-- A next state of which something holds. -/
def nextIs (r : Result) (f : State → Bool) : Bool :=
  match r with
  | .next t => f t
  | .fault _ => false
  | .refused _ => false

/-- The salt 00 to 27 of S5.1. -/
def s51Salt : List Byte := (List.range 40).map (BitVec.ofNat 8)

/-- P1 and K1: the key and the signature of S5.1. -/
theorem test_decode_s51 :
    (decodePk params 897 s51Key).toOption.map (fun h => (h.take 8, h.drop 504)) =
      some ([1095, 2098, 12210, 1610, 1484, 4753, 7085, 5084], [11279, 5642, 9039, 988, 4855, 8761, 5303, 10802]) ∧
    (decodeSig params 666 s51Sig).toOption.map (fun d => (d.salt, d.s2.take 8, d.pos)) =
      some (s51Salt, [-11, -4, 3, 10, -6, 1, 8, -8], 4936) := by decide +kernel

/-- The sponge after `SHINIT; SHABS SALT; SHABS MSG; SHFIN` on the salt and the message of S5.1 (H-a). -/
def haSponge : Sponge := finishSponge (absorb emptySponge (s51Salt ++ s51Msg))

/-- H-a: the lanes after the padding. -/
theorem test_padded_sponge : (lane haSponge.ks 0, lane haSponge.ks 4, lane haSponge.ks 5, lane haSponge.ks 6) =
      (0x0706050403020100#64, 0x2726252423222120#64, 0x73656D2074736574#64, 0x0000001F65676173#64) ∧
    (lane haSponge.ks 16, haSponge.cur) = (0x8000000000000000#64, 136) := by decide +kernel

/-- A sponge state from its lanes. -/
def fill (l : List Word64) : Lanes := fitVector 25 0 l

/-- The lanes after permutation 1 since `SHFIN` (H-a), each list checked below against the one before. -/
def ha1 : List Word64 :=
  [0xD8B294FF110C6FE9#64, 0x04FA71A4F829FC47#64, 0xEB33E70E33C49476#64, 0xDB640234D5F3A48F#64, 0x7D41C08E4907E1A7#64,
   0x408AB3DA2A10190C#64, 0x801F33CEBD5681B5#64, 0xFCE2C68935436D00#64, 0x68F8583879C17E14#64, 0x26395BCE0293294B#64,
   0xDF6C9AADFAC2DC53#64, 0x1076776864CBE97F#64, 0xD99E0F28824D4FB2#64, 0x2EDE67FBEE58BD96#64, 0xBB83A5B6261F56D8#64,
   0xE8B255A4B8FDD2A2#64, 0x9F9CCB089FF18BDC#64, 0x02C49761F903CA26#64, 0x7ABA4F52FE16304C#64, 0x34CEBDE4AE60046B#64,
   0x5B0CBCB5D0201527#64, 0x4D6E240F2B03506D#64, 0x7E462CFEB68F4368#64, 0xDCEA132F1B478F8F#64, 0x7569CA92B866A12C#64]

/-- The lanes after permutation 2 since `SHFIN` (H-a), each list checked below against the one before. -/
def ha2 : List Word64 :=
  [0x3EAD9583D37D46C5#64, 0xE10678EF9B304B58#64, 0xB44CE414205CEA48#64, 0x0FA47E4D9FEF9947#64, 0x2A71BD8D1642ED53#64,
   0xB7CE12C561148114#64, 0x3F0CA02128A2DA4A#64, 0xF75F0B3B2C626B25#64, 0x9D1FE92050AB5BB9#64, 0x8F26B11246B7EB9A#64,
   0x392F9AEDBB5472E1#64, 0x785B00A3D8C10117#64, 0x53E8A3ED2EAED3A3#64, 0x6301C30C988B6C29#64, 0x0B31EEF4EAA7065D#64,
   0x211DEE81679E923E#64, 0x4DF0E55E4AF7218A#64, 0xEB813ED5D88AFD17#64, 0x016D12BC11217132#64, 0x6E0CF42C0AA31F95#64,
   0x3B1B4445D40E5858#64, 0x820B17B60532B860#64, 0x3D78C26D90F74D7B#64, 0x8378145CEE2283A7#64, 0xF18A5D3B1C947F38#64]

/-- The lanes after permutation 3 since `SHFIN` (H-a), each list checked below against the one before. -/
def ha3 : List Word64 :=
  [0x8BD28C01D2D06E17#64, 0xEE2C480EEE91D681#64, 0x951A805FBC48CE0F#64, 0x7A6DB9199A1A46F6#64, 0xFE5964C3B3B53889#64,
   0xCDCA3983B84A659A#64, 0xDE0105D1CC530427#64, 0xC355DD931A8BE59C#64, 0xF0D51BFF40279A65#64, 0xECB22E9177F87240#64,
   0xA6BDA2C4B56659CC#64, 0xD7A72ED74322AB53#64, 0x834C5D2172B480B0#64, 0x0B81196DA8DAE468#64, 0x7E1B0B7442F7515A#64,
   0xD1F60FF79702ACDC#64, 0x1F8BAB00F602FE7D#64, 0x7D8E0B5070F32266#64, 0x7A2BB33FB08ECFFC#64, 0x47F053A676738C46#64,
   0xCFD9CB8E1DDB1E8D#64, 0x2E31AB83B897E245#64, 0xEF8AC6414877CD0F#64, 0x826922CBBF9B2AC5#64, 0x9A3797A24448E70E#64]

/-- The lanes after permutation 4 since `SHFIN` (H-a), each list checked below against the one before. -/
def ha4 : List Word64 :=
  [0x10D793EB09647D68#64, 0x1A370CA51D8CB620#64, 0xBBE8C1A65C3BF1E1#64, 0x5B3B756EF4D7C0DE#64, 0x7D0E657349978654#64,
   0xA3E23AAF3E7A5155#64, 0xE78213E4B0E88EA7#64, 0xA6F475567E0DE9A4#64, 0x3401720226F67E95#64, 0x74FEFA537D6D7542#64,
   0x1759D3A4D2AE902F#64, 0xB7CFCB00BEFA3E60#64, 0x05F6707B9EC3F66B#64, 0x70C2742ED39B958C#64, 0x7402263802FAE6BD#64,
   0x919564385B566149#64, 0xBF1ABC8841B26ABA#64, 0xC460403DD7CB65ED#64, 0x1F6423C2FA22C311#64, 0x3E2D15EC478AA2AF#64,
   0xA6D0AB7F4E04C9FD#64, 0x5834F44070182903#64, 0x9A8BF5AC8307E5FA#64, 0x6154026053EA969E#64, 0x99E02140F13B4E16#64]

/-- The lanes after permutation 5 since `SHFIN` (H-a), each list checked below against the one before. -/
def ha5 : List Word64 :=
  [0x5A29E311D92F6CFA#64, 0x52823A5DFADD3317#64, 0x64FA6BFFE0695C96#64, 0xEE1BE1E3EF540E7D#64, 0x0E108E38C34B2271#64,
   0x97BE071A2CED97F8#64, 0x05794BB98ED5E098#64, 0xC4666016D58AF84F#64, 0x30FFDCBD2A3CEF02#64, 0x211D156BF5C7BB78#64,
   0xE00AE9CE64AEDC35#64, 0xC02AD34F4909928A#64, 0xFBC09478F123E204#64, 0x753404C3B919E19D#64, 0xF6E3DE5A81D11715#64,
   0x64784FB9AFE86B23#64, 0x375842E480159D39#64, 0xA150950544C490B8#64, 0x0BDD7F02BFDBF0E2#64, 0x571A5C6F9BE0A974#64,
   0x4420896F0F0B07F3#64, 0x89C15B6EFE7E76B2#64, 0x3935B482181562D3#64, 0x799C51BFFD6490DE#64, 0x3D796CC03FAF70D0#64]

/-- The lanes after permutation 6 since `SHFIN` (H-a), each list checked below against the one before. -/
def ha6 : List Word64 :=
  [0xFC7713EAAA0E360D#64, 0xBA8AA2CDA6C8EE71#64, 0x0FB42A0378081BCD#64, 0xD41B1B655287938B#64, 0xED7D67BF67C2906F#64,
   0x1799597952149457#64, 0x42CA49C514DFC303#64, 0x6FCEADCB28587CCA#64, 0xED3C2F592A472853#64, 0x510726EF2EE0177C#64,
   0xC8A82662597EF840#64, 0xAF4DF96A759023C1#64, 0x462ECC1E20238446#64, 0x420EFF8E89A91134#64, 0xAB73B6DF1E2897CC#64,
   0xE718420CF2F66EED#64, 0x1C146DCBF59BD37D#64, 0xA3395F16FA6FAD0C#64, 0x6171EE823DE8DF2E#64, 0x3C7DDAE1A3A987BE#64,
   0x0352C727D4E902DB#64, 0xEAE4DA02DA47F403#64, 0xAF5D07DC4E392397#64, 0xC46589E77366A9D7#64, 0x8F690C0C8CB8FFC7#64]

/-- The lanes after permutation 7 since `SHFIN` (H-a), each list checked below against the one before. -/
def ha7 : List Word64 :=
  [0xE482C88F2CC3FF7C#64, 0x3854D6325BFDDA4C#64, 0xF68E46E3FC795315#64, 0x6A95B746687BFEE2#64, 0x31BD14C9CD69C4E3#64,
   0x8647A3CD209674D6#64, 0xED78B04CC3429018#64, 0x01E7868D953A8B30#64, 0x8CC84AC37CFC8518#64, 0xF77BEAC6479001F5#64,
   0x7B58E0BE1CD05C7D#64, 0xDD35BF3674A7870A#64, 0x80EFFFF766535F28#64, 0x071F73828BC3836A#64, 0xFEC1D87E5126774B#64,
   0x97186298C2ED76B7#64, 0xE0891D47B291EC87#64, 0x410BC2857D238F20#64, 0xCD2028A8B5A04198#64, 0x2012CCFE1E6C2ECD#64,
   0xC60A471A4598B431#64, 0x0453E5BEB4122817#64, 0x0B52F6C4C7D1217B#64, 0x8EB5A65755314E4E#64, 0xD2EAECD81B6CCF43#64]

/-- The lanes after permutation 8 since `SHFIN` (H-a), each list checked below against the one before. -/
def ha8 : List Word64 :=
  [0x5A1AC874E0C6105E#64, 0xA4A74DF0B9DB6B72#64, 0xDF06875C661DDBAD#64, 0xEE84C09BCB6DE5C9#64, 0x1F45BE351E3657F3#64,
   0xB8B71D33B03D2EFD#64, 0x0EA95563D033640F#64, 0x436630D449FFB095#64, 0x2B8C32792F6AE3A2#64, 0x1CD389250E38F018#64,
   0x447C5751FFB0C0AB#64, 0x3A26D37D02175F4E#64, 0xE2385A79B6125A1B#64, 0xC4992105AA6F9C01#64, 0x1FA2B7E444B6D994#64,
   0xF388A4DEC2AFB9CE#64, 0x62CA1FDBC4A9539A#64, 0xD9463BE08F9AF009#64, 0x3AC316F358857D3D#64, 0xC4393892171E6B29#64,
   0x0BB9F2D53A11D69F#64, 0x3DA54AF2E6FA9B56#64, 0x08425151DB4C7F03#64, 0xEF9A4B5863E8650A#64, 0x38715CFA4B34996F#64]

/-- The lanes after permutation 9 since `SHFIN` (H-a), each list checked below against the one before. -/
def ha9 : List Word64 :=
  [0x7A288422CC8583F8#64, 0xE64032CBC31D86F3#64, 0xE7C92B7F20C51DA3#64, 0x819D66D8C22D471E#64, 0x5699097A31074A4F#64,
   0xF03391F845612FC4#64, 0x79245AE4BCC3AE32#64, 0x022D271816CDF4FE#64, 0xB84351AB3BBC403A#64, 0xF5A4F93810D90DFC#64,
   0x36A55076853E52EA#64, 0x0F768179FA39B87E#64, 0x94591B0F96F4FBD2#64, 0xF4FC192396C1E217#64, 0xAF64361079560410#64,
   0xD0D51836AB61543E#64, 0x7ABCBCAF13CBABA4#64, 0xC0DD4EAA7B318DC5#64, 0x7565FB1F93A29B8C#64, 0x44B6F95E35B49ADA#64,
   0x825B9101A0FE6EF7#64, 0xBB314C523EDC1F9C#64, 0x941DE9157C8A02CE#64, 0x8EC355245983FE41#64, 0x86BF693872784BD5#64]

theorem test_permutation_1 : (keccakF haSponge.ks).toList = ha1 := by decide +kernel

theorem test_permutation_2 : (keccakF (fill ha1)).toList = ha2 := by decide +kernel

theorem test_permutation_3 : (keccakF (fill ha2)).toList = ha3 := by decide +kernel

theorem test_permutation_4 : (keccakF (fill ha3)).toList = ha4 := by decide +kernel

theorem test_permutation_5 : (keccakF (fill ha4)).toList = ha5 := by decide +kernel

theorem test_permutation_6 : (keccakF (fill ha5)).toList = ha6 := by decide +kernel

theorem test_permutation_7 : (keccakF (fill ha6)).toList = ha7 := by decide +kernel

theorem test_permutation_8 : (keccakF (fill ha7)).toList = ha8 := by decide +kernel

theorem test_permutation_9 : (keccakF (fill ha8)).toList = ha9 := by decide +kernel

/-- H-a: `KS[0]` after the ninth permutation is the printed one. -/
theorem test_last_block : laneAt ha9 0 = 0x7A288422CC8583F8#64 := by decide

/-- The accepted ones among `k` chunks of a block, from byte `c` on. -/
def blockWords (w : Lanes) : (k c : Nat) → List Nat
  | 0, _ => []
  | k + 1, c =>
    (if 256 * (stateByte w c).toNat + (stateByte w (c + 1)).toNat < 61445 then
      [256 * (stateByte w c).toNat + (stateByte w (c + 1)).toNat] else []) ++ blockWords w k (c + 2)

/-- H-a: the number of accepted chunks of each block; 508 of the 544 of eight blocks. -/
theorem test_accepted_chunks :
    [ha1, ha2, ha3, ha4, ha5, ha6, ha7, ha8, ha9].map (fun l => (blockWords (fill l) 68 0).length) =
      [61, 65, 62, 62, 63, 67, 64, 64, 61] := by decide +kernel

/-- The accepted chunks of the nine blocks of H-a. -/
def haWords : List Nat := [ha1, ha2, ha3, ha4, ha5, ha6, ha7, ha8, ha9].flatMap fun l => blockWords (fill l) 68 0

/-- The challenge polynomial of H-a: the first 512 accepted chunks, modulo 12289. -/
def s51Challenge : List Nat := (haWords.take 512).map fun x => x % 12289

/-- H-a, chunk by chunk, for the first six chunks: one is refused. -/
theorem test_sample : (sample 6 5 ⟨fill ha1, 0⟩ []).map (fun r => (r.1, r.2.cur)) =
    some ([10603, 3089, 8917, 6139, 10744], 12) := by decide +kernel

/-- The steps 4 and 5 of `VERIFY` (R220) on the key and the challenge of S5.1 and a signature: the salt, the first lanes of
`s1`, and the squared norm. -/
def s51Outcome (sg : List Byte) : Option (List Byte × (List Int × Nat)) :=
  match decodePk params 897 s51Key, decodeSig params 666 sg with
  | .ok h, .ok d =>
    let s1 := (List.zipWith fsub s51Challenge (mulring (d.s2.map canon) h)).map center
    some (d.salt, s1.take 8, normSquare s1 d.s2)
  | _, _ => none

/-- V1: lanes 0 to 7 of `T`, and `NORMSQ`. -/
theorem test_accepted_norm :
    s51Outcome s51Sig = some (s51Salt, [-8, -3, 2, 7, -5, 0, 5, -7], 34860) := by decide +kernel

/-- V4: the signature of S5.1 with bit 0 of byte 41 flipped. -/
def v4Sig : List Byte := s51Sig.set 41 0x8A

/-- V4: `NORMSQ`. -/
theorem test_rejected_norm :
    (s51Outcome v4Sig).map (fun x => (x.1, x.2.2)) = some (s51Salt, 6476357962) := by decide +kernel

/-- V2: the final byte corrupted; `H` is written. -/
theorem test_verify_desync :
    nextIs (exec .verify { s51 with sigbuf := Memory.write s51.sigbuf 665 0x01 }) (fun t => !t.accept &&
      (decide (t.err = .codecDesync) && (decide (t.phase = 2) && (decide (t.byteix = 617) &&
      decide (lanes 8 0 t = [1095, 2098, 12210, 1610, 1484, 4753, 7085, 5084]))))) = true := by decide +kernel

/-- V12: the message is longer than its buffer. -/
theorem test_verify_long_message :
    nextIs (exec .verify { s51 with msgMax := 11 }) (fun t => !t.accept &&
      (decide (t.err = .lengthRange) && (decide (t.phase = 3) && decide (t.byteix = 617)))) = true := by decide +kernel

/-! ### Host moves -/

/-- R57, R59: the low bits are stored; a write to `R` is ignored. -/
theorem test_host_write :
    step { State.reset with moves := [.write .a 0x12345678] } = .next { State.reset with a := 0x5678 } ∧
    step { State.reset with moves := [.write .r 5] } = .next State.reset := ⟨by rfl, by rfl⟩

/-- R32: `ST` reads 2 when a command is done; R262: a never-written byte is refused. -/
theorem test_host_read :
    step { State.reset with done := true, moves := [.read .st] } =
      .next { State.reset with done := true, returned := [2] } ∧
    step { State.reset with moves := [.read (.byte .salt 39)] } = .refused (.neverWritten .salt) :=
  ⟨by rfl, by rfl⟩

/-! ### Lemmas the witnesses use -/

theorem exists_of_nextIs (r : Result) (f : State → Bool) (h : nextIs r f = true) : ∃ t, r = .next t ∧ f t = true := by
  cases r with
  | next t => exact ⟨t, rfl, h⟩
  | fault r => simp [nextIs] at h
  | refused r => simp [nextIs] at h

theorem holds_of_memRead (size : Nat) (m : Memory) (l : List Byte) (hw : Memory.wf size m = true)
    (h : memRead m l.length = some l) : Cert.Holds m l := ((memRead_eq_some size m l.length l hw).mp h).2

theorem squeezed_succ (k : Nat) (sp : Sponge) : Cert.squeezed (k + 1) sp =
    ((squeezeByte sp).1 :: (Cert.squeezed k (squeezeByte sp).2).1, (Cert.squeezed k (squeezeByte sp).2).2) := rfl

theorem accepted_succ (k : Nat) (sp : Sponge) : Cert.accepted (k + 1) sp =
    (if (nextChunk sp).1 < 61445 then [(nextChunk sp).1] else []) ++ Cert.accepted k (nextChunk sp).2 := by
  have h : Cert.accepted (k + 1) sp =
      List.filter (fun w => decide (w < 61445))
        ((nextChunk sp).1 :: Cert.chunks (Cert.squeezed (2 * k) (nextChunk sp).2).1) := rfl
  rw [h, List.filter_cons]
  by_cases hw : (nextChunk sp).1 < 61445
  · simp only [decide_eq_true hw, if_true, if_pos hw]
    rfl
  · simp only [decide_eq_false hw, if_neg hw]
    rfl

/-- Where the sampling loop ends, a number of chunks is the first that gives as many coefficients as were asked for, and what
it gives are those chunks modulo 12289. -/
theorem accepted_of_sample (fuel need : Nat) (sp sp' : Sponge) (acc c : List Nat)
    (h : sample fuel need sp acc = some (c, sp')) :
    ∃ k ≤ fuel, (Cert.accepted k sp).length = need ∧ (∀ j < k, (Cert.accepted j sp).length < need) ∧
      c = acc.reverse ++ (Cert.accepted k sp).map fun x => x % 12289 := by
  have z : ∀ sp, Cert.accepted 0 sp = [] := fun _ => rfl
  induction fuel generalizing need sp acc with
  | zero =>
    cases need with
    | zero =>
      simp only [sample, Option.some.injEq, Prod.mk.injEq] at h
      exact ⟨0, le_refl _, rfl, by simp, by simp [z, h.1]⟩
    | succ need => simp [sample] at h
  | succ fuel ih =>
    cases need with
    | zero =>
      simp only [sample, Option.some.injEq, Prod.mk.injEq] at h
      exact ⟨0, Nat.zero_le _, rfl, by simp, by simp [z, h.1]⟩
    | succ need =>
      simp only [sample] at h
      split at h
      · rename_i hw
        obtain ⟨k, hk, he, hl, hc⟩ := ih _ _ _ h
        refine ⟨k + 1, by omega, by rw [accepted_succ, if_pos hw]; simp [he], fun j hj => ?_,
          by rw [accepted_succ, if_pos hw, hc]; simp⟩
        cases j with
        | zero => simp [z]
        | succ j =>
          rw [accepted_succ, if_pos hw]
          have := hl j (by omega)
          simp
          omega
      · rename_i hw
        obtain ⟨k, hk, he, hl, hc⟩ := ih _ _ _ h
        refine ⟨k + 1, by omega, by rw [accepted_succ, if_neg hw]; simpa using he, fun j hj => ?_,
          by rw [accepted_succ, if_neg hw, hc]; simp⟩
        cases j with
        | zero => simp [z]
        | succ j =>
          rw [accepted_succ, if_neg hw]
          simpa using hl j (by omega)

theorem accepted_add (j k : Nat) (sp : Sponge) :
    Cert.accepted (j + k) sp = Cert.accepted j sp ++ Cert.accepted k (afterChunks j sp) := by
  induction j generalizing sp with
  | zero => rw [Nat.zero_add]; rfl
  | succ j ih => rw [Nat.succ_add, accepted_succ, accepted_succ, ih, List.append_assoc]; rfl

theorem length_accepted (k : Nat) (sp : Sponge) : (Cert.accepted k sp).length = acceptedCount k sp := by
  induction k generalizing sp with
  | zero => rfl
  | succ k ih =>
    rw [accepted_succ, acceptedCount, List.length_append, ih]
    by_cases hw : (nextChunk sp).1 < 61445
    · rw [if_pos hw, if_pos hw]
      rfl
    · rw [if_neg hw, if_neg hw]
      rfl

/-- The chunks of one block are read from it in place. -/
theorem afterChunks_inside (w : Lanes) (k : Nat) (c d : Fin 137) (h : d.val = c.val + 2 * k) :
    afterChunks k ⟨w, c⟩ = ⟨w, d⟩ := by
  induction k generalizing c with
  | zero =>
    have : d = c := Fin.ext (by omega)
    rw [this]
    rfl
  | succ k ih =>
    have h1 := d.isLt
    have e1 := squeezeByte_inside ⟨w, c⟩ (by simp only; omega)
    have e2 := squeezeByte_inside ⟨w, ⟨c.val + 1, by omega⟩⟩ (by simp only; omega)
    rw [afterChunks, nextChunk, e1]
    simp only
    rw [e2]
    exact ih ⟨c.val + 1 + 1, by omega⟩ (by simp only; omega)

theorem accepted_inside (w : Lanes) (k : Nat) (c : Fin 137) (h : c.val + 2 * k ≤ 136) :
    Cert.accepted k ⟨w, c⟩ = blockWords w k c.val := by
  induction k generalizing c with
  | zero => rfl
  | succ k ih =>
    have e1 := squeezeByte_inside ⟨w, c⟩ (by simp only; omega)
    have e2 := squeezeByte_inside ⟨w, ⟨c.val + 1, by omega⟩⟩ (by simp only; omega)
    have hn : nextChunk ⟨w, c⟩ = (256 * (stateByte w c.val).toNat + (stateByte w (c.val + 1)).toNat,
        ⟨w, ⟨c.val + 1 + 1, by omega⟩⟩) := by
      rw [nextChunk, e1]
      simp only
      rw [e2]
    rw [accepted_succ, hn]
    simp only
    rw [ih ⟨c.val + 1 + 1, by omega⟩ (by simp only; omega)]
    rfl

/-- A block that is used up is replaced by its permutation. -/
theorem nextChunk_exhausted (v : Lanes) : nextChunk ⟨v, 136⟩ = nextChunk ⟨keccakF v, 0⟩ := by
  have e : squeezeByte ⟨v, 136⟩ = squeezeByte ⟨keccakF v, 0⟩ := by
    rw [squeezeByte_exhausted _ rfl, squeezeByte_inside _ (by show 0 < 136; omega)]
    rfl
  rw [nextChunk, nextChunk, e]

/-- The 68 chunks of one block, then the rest. -/
theorem accepted_block (v : Lanes) (k : Nat) : Cert.accepted (68 + k) ⟨v, 136⟩ =
    blockWords (keccakF v) 68 0 ++ Cert.accepted k ⟨keccakF v, 136⟩ := by
  have e : Cert.accepted (68 + k) ⟨v, 136⟩ = Cert.accepted (68 + k) ⟨keccakF v, 0⟩ := by
    rw [show 68 + k = (67 + k) + 1 by omega, accepted_succ, accepted_succ, nextChunk_exhausted]
  rw [e, accepted_add, afterChunks_inside (keccakF v) 68 0 136 rfl, accepted_inside (keccakF v) 68 0 (by decide)]
  rfl

theorem eq_fill (v : Lanes) (l : List Word64) (h : v.toList = l) : v = fill l := by
  apply Vector.toList_inj.mp
  rw [h, fill, toList_fitVector _ _ _ (by rw [← h]; simp)]

/-- The accepted chunks of the first nine blocks of the stream of H-a. -/
theorem accepted_ha : Cert.accepted 612 haSponge = haWords := by
  have c : haSponge = ⟨haSponge.ks, 136⟩ := rfl
  rw [c, show 612 = 68 + (68 + (68 + (68 + (68 + (68 + (68 + (68 + (68 + 0)))))))) from rfl]
  rw [accepted_block, eq_fill _ _ test_permutation_1, accepted_block, eq_fill _ _ test_permutation_2,
    accepted_block, eq_fill _ _ test_permutation_3, accepted_block, eq_fill _ _ test_permutation_4,
    accepted_block, eq_fill _ _ test_permutation_5, accepted_block, eq_fill _ _ test_permutation_6,
    accepted_block, eq_fill _ _ test_permutation_7, accepted_block, eq_fill _ _ test_permutation_8,
    accepted_block, eq_fill _ _ test_permutation_9]
  rfl

theorem length_haWords : haWords.length = 569 := by
  rw [haWords, List.length_flatMap]
  exact congrArg List.sum test_accepted_chunks

/-- The sampling of H-a ends with the challenge polynomial of H-a. -/
theorem sampled_ha : ∃ sp, sample sampleFuel 512 haSponge [] = some (s51Challenge, sp) := by
  cases h : sample sampleFuel 512 haSponge [] with
  | none =>
    have := (sample_never_ends_iff haSponge).mp h 612
    rw [← length_accepted, accepted_ha, length_haWords] at this
    omega
  | some r =>
    obtain ⟨k, -, he, hl, hc⟩ := accepted_of_sample _ _ _ r.2 _ r.1 h
    have hk : k ≤ 612 := by
      by_contra hn
      have := hl 612 (by omega)
      rw [accepted_ha, length_haWords] at this
      omega
    have ha := accepted_ha
    rw [show 612 = k + (612 - k) by omega, accepted_add] at ha
    refine ⟨r.2, ?_⟩
    have hr : r.1 = s51Challenge := by rw [s51Challenge, ← ha, List.take_left' he, hc]; rfl
    rw [← hr]

theorem exists_of_toOption {α β ε : Type} (x : Except ε α) (f : α → β) (y : β) (h : x.toOption.map f = some y) :
    ∃ a, x = .ok a ∧ f a = y := by
  cases x with
  | error e => simp [Except.toOption] at h
  | ok a => exact ⟨a, rfl, by simpa [Except.toOption] using h⟩

theorem s51_buffers :
    (Memory.wf 897 s51.pkbuf = true ∧ memRead s51.pkbuf 897 = some s51Key) ∧
    (Memory.wf 666 s51.sigbuf = true ∧ memRead s51.sigbuf 666 = some s51Sig) ∧
    (Memory.wf 4096 s51.msgbuf = true ∧ memRead s51.msgbuf 12 = some s51Msg) := by decide +kernel

/-- V4 loaded, and the command word accepted; V1 is `loadedWith s51Sig`. -/
def loadedWith (sg : List Byte) : State := { s51 with sigbuf := buffer sg }

theorem v4_buffer : Memory.wf 666 (buffer v4Sig) = true ∧ memRead (buffer v4Sig) 666 = some v4Sig := by decide +kernel

/-- The inner values of a `VERIFY` whose outcome is known. -/
theorem s51_inner (sg : List Byte) (n : Nat) (l : List Int) (h : s51Outcome sg = some (s51Salt, l, n)) :
    ∃ k d sp, decodePk params 897 s51Key = .ok k ∧ decodeSig params 666 sg = .ok d ∧ d.salt = s51Salt ∧
      verifyNorm k d.s2 s51Challenge = n ∧
      sample sampleFuel 512 (finishSponge (absorb emptySponge (d.salt ++ s51Msg))) [] = some (s51Challenge, sp) := by
  obtain ⟨sp, hc⟩ := sampled_ha
  unfold s51Outcome at h
  split at h
  · rename_i k d hk hd
    simp only [Option.some.injEq, Prod.mk.injEq] at h
    refine ⟨k, d, sp, hk, hd, h.1, h.2.2, ?_⟩
    rw [h.1]
    exact hc
  · cases h

/-- A `VERIFY` whose outcome is known accepts or rejects by it. -/
theorem verify_ends (sg : List Byte) (n : Nat) (l : List Int) (hs : memRead (buffer sg) 666 = some sg)
    (h : s51Outcome sg = some (s51Salt, l, n)) :
    ∃ t, exec .verify (loadedWith sg) = .next t ∧
      (n ≤ 34034726 → t.accept = true ∧ t.err = .ok ∧ t.phase = 6) ∧
      (34034726 < n → t.accept = false ∧ t.err = .verificationFailed ∧ t.phase = 5) := by
  obtain ⟨k, d, sp, hk, hd, he, hn, hc⟩ := s51_inner sg n l h
  have hsalt : memRead (memWrite (loadedWith sg).salt 0 d.salt) 40 = some d.salt := by
    rw [he]
    show memRead (memWrite [] 0 s51Salt) 40 = some s51Salt
    decide +kernel
  obtain ⟨u, e, ph, ps, pc⟩ := execVerify_reaches_step_four (loadedWith sg) s51Key sg s51Msg k d s51Challenge sp rfl
    s51_buffers.1.2 rfl hs (by show 12 ≤ 4096; omega) s51_buffers.2.2.2 hk hd hsalt hc
  have bs : d.s2.length = 512 ∧ ∀ v ∈ d.s2, v.natAbs ≤ 2047 := by
    rcases decodeSig_cases params 666 sg (fun _ => length_memRead _ _ _ hs) with ⟨d', hd', -, -, -, b1, b2, -⟩ | ⟨_, _, x, -⟩
    · rw [hd] at hd'
      cases hd'
      exact ⟨b1, b2⟩
    · rw [hd] at x
      cases x
  have bc := sample_some _ _ _ _ _ _ hc
  obtain ⟨t, ht, h1, h2⟩ := runLines_from_step_four u k d.s2 s51Challenge ph ps pc (decodePk_ok _ _ _ _ hk).2 bs
    ⟨bc.1, bc.2 (by simp)⟩
  rw [hn] at h1 h2
  exact ⟨t, e.trans ht, h1, h2⟩

/-- V1 and V4: `ACCEPT`, `ERR` and `PHASE`. -/
theorem test_verify_accepts : ∃ t, exec .verify s51 = .next t ∧ t.accept = true ∧ t.err = .ok ∧ t.phase = 6 := by
  obtain ⟨t, ht, h1, -⟩ := verify_ends s51Sig _ _ s51_buffers.2.1.2 test_accepted_norm
  exact ⟨t, ht, h1 (by omega)⟩

theorem test_verify_rejects :
    ∃ t, exec .verify (loadedWith v4Sig) = .next t ∧ t.accept = false ∧ t.err = .verificationFailed ∧ t.phase = 5 := by
  obtain ⟨⟨a, l, n⟩, ho, hx⟩ := Option.map_eq_some_iff.mp test_rejected_norm
  simp only [Prod.mk.injEq] at hx
  obtain ⟨rfl, rfl⟩ := hx
  obtain ⟨t, ht, -, h2⟩ := verify_ends v4Sig _ l v4_buffer.2 ho
  exact ⟨t, ht, h2 (by omega)⟩

/-! ### Witnesses: for each statement with hypotheses, inputs that meet them, at the ends of their ranges -/

/-- A core with one host move to make. -/
def hostState (m : HostMove) : State := { State.reset with moves := [m] }

/-- A register that holds `x` in every lane. -/
def flat (x : Word16) : Poly := Vector.replicate 512 x

theorem laneInt_flat (x : Word16) (i : Nat) (h : i < 512) : Cert.laneInt (flat x) i = x.toInt := by
  rw [Cert.laneInt, flat, Vector.toList_replicate, List.getD_replicate _ h]

theorem signedLanes_flat (x : Word16) : signedLanes (flat x) = List.replicate 512 x.toInt := by
  rw [signedLanes, flat, Vector.toList_replicate, List.map_replicate]

theorem within_flat (lo hi : Int) (x : Word16) (h : lo ≤ x.toInt ∧ x.toInt ≤ hi) : Cert.Within lo hi (flat x) := by
  intro i hi'
  rw [laneInt_flat x i hi']
  exact h

theorem not_within_flat (lo hi : Int) (x : Word16) (h : x.toInt < lo ∨ hi < x.toInt) : ¬Cert.Within lo hi (flat x) := by
  intro hw
  have := hw 511 (by omega)
  rw [laneInt_flat x 511 (by omega)] at this
  omega

/-- A core whose four registers hold `x` in every lane. -/
def flatState (x : Word16) : State := { State.reset with p := Vector.replicate 4 (flat x) }

theorem poly_flatState (x : Word16) (k : PReg) : (flatState x).poly k = flat x := by
  simp [flatState, State.poly]

theorem witness_EncodeThenDecodeIsIdentity : (Instr.shabs 1).wellFormed = true ∧ (Instr.psub 3 2 3).wellFormed = true := by
  decide

theorem witness_DecodedWordIsItsEncoding : decode 0x0432#16 = .ok (.shabs 1) ∧ decode 0x3FFF#16 = .error .unknownOp := by
  decide

theorem witness_DecodeFollowsTheOpcodeMap : (0x3FFF#16 &&& 0xC0FF#16 = 0xFF#16) ∧
    (∃ r ∈ Cert.opcodeRows, 0x3F20#16 &&& r.2.1 = r.1) ∧ Cert.NoRowMatches 0xFFFF#16 ∧ Cert.NoRowMatches 0x0000#16 := by
  refine ⟨by decide, ?_, ?_, ?_⟩
  · exact ⟨(0x0020, 0xC0FF, fun w => .pmul (w.extractLsb' 8 2).toFin (w.extractLsb' 10 2).toFin (w.extractLsb' 12 2).toFin),
      by simp [Cert.opcodeRows], by decide⟩
  · unfold Cert.NoRowMatches Cert.opcodeRows
    decide
  · unfold Cert.NoRowMatches Cert.opcodeRows
    decide

theorem witness_StepRunsTheDecodedCommand : State.reset.moves = [] ∧
    (hostState (.cmd 0x0001)).moves = .cmd 0x0001 :: [] ∧ (hostState (.cmd 0x0001)).busy = false ∧
    decode 0x0001#16 = .ok .fadd := ⟨rfl, rfl, rfl, by decide⟩

theorem witness_PlacedWordRuns : decodeTableWord 16 0x0070 = some .verify ∧ decodeTableWord 16 0x3F12 = some (.nttmul 3 3 3) := by
  decide

theorem witness_IllegalWordOnlyReports : (hostState (.cmd 0xFFFF)).moves = .cmd 0xFFFF :: [] ∧
    (hostState (.cmd 0xFFFF)).busy = false ∧ Cert.NoRowMatches 0xFFFF#16 :=
  ⟨rfl, rfl, witness_DecodeFollowsTheOpcodeMap.2.2.1⟩

theorem witness_WordWhileBusyIsDropped : ∃ s : State, s.moves = .cmd 0x0070 :: [] ∧ s.busy = true :=
  ⟨{ hostState (.cmd 0x0070) with busy := true }, rfl, rfl⟩

/-- For every location: an idle core whose next move writes it; the last index of each indexed location is in range. -/
theorem witness_HostWriteStoresTheLowBits :
    (∀ (loc : Loc) (v : Word64), (hostState (.write loc v)).moves = .write loc v :: [] ∧
      (hostState (.write loc v)).busy = false) ∧
    (511 < 512 ∧ 24 < 25 ∧ ∀ v : Word64, 896 < (hostState (.write (.byte .pkbuf 896) v)).spaceSize .pkbuf ∧
      665 < (hostState (.write (.byte .sigbuf 665) v)).spaceSize .sigbuf ∧
      4095 < (hostState (.write (.byte .msgbuf 4095) v)).spaceSize .msgbuf ∧
      39 < (hostState (.write (.byte .salt 39) v)).spaceSize .salt) ∧
    Loc.r ∈ [Loc.r, .kcur, .kmode, .byteix, .bitoff, .normsq, .st, .accept, .err, .phase] :=
  ⟨fun _ _ => ⟨rfl, rfl⟩, ⟨by omega, by omega, fun _ => ⟨Nat.lt_add_one 896, Nat.lt_add_one 665, Nat.lt_add_one 4095, Nat.lt_add_one 39⟩⟩,
    by simp⟩

theorem witness_HostReadReturnsAndChangesNothing :
    (∀ loc : Loc, (hostState (.read loc)).moves = .read loc :: [] ∧ (hostState (.read loc)).busy = false) ∧
    ∃ s : State, s.moves = .read (.byte .salt 39) :: [] ∧ s.busy = false ∧ 39 < s.spaceSize .salt ∧
      Memory.read (s.space .salt) 39 = some 7 :=
  ⟨fun _ => ⟨rfl, rfl⟩, { hostState (.read (.byte .salt 39)) with salt := [(39, 7)] }, rfl, rfl, by decide, rfl⟩

/-- The first index out of each range, a byte in range that nothing has written, and a busy core. -/
theorem witness_HostAccessStops :
    ((hostState (.read (.byte .salt 40))).busy = false ∧ (hostState (.read (.byte .salt 40))).spaceSize .salt ≤ 40 ∧
      (hostState (.read (.byte .salt 40))).moves = .read (.byte .salt 40) :: []) ∧
    ((hostState (.write (.byte .pkbuf 897) 1)).spaceSize .pkbuf ≤ 897 ∧
      (hostState (.write (.byte .pkbuf 897) 1)).moves = .write (.byte .pkbuf 897) 1 :: []) ∧
    ((hostState (.write (.p 3 512) 1)).moves = .write (.p 3 512) 1 :: [] ∧ 512 ≤ 512) ∧
    ((hostState (.read (.ks 25))).moves = .read (.ks 25) :: [] ∧ 25 ≤ 25) ∧
    (39 < (hostState (.read (.byte .salt 39))).spaceSize .salt ∧
      Memory.read ((hostState (.read (.byte .salt 39))).space .salt) 39 = none) ∧
    ∃ s : State, s.busy = true ∧ s.moves = .read .err :: [] ∧ Loc.err ≠ .st :=
  ⟨⟨rfl, by decide, rfl⟩, ⟨by decide, rfl⟩, ⟨rfl, by omega⟩, ⟨rfl, by omega⟩, ⟨by decide, rfl⟩,
    { hostState (.read .err) with busy := true }, rfl, rfl, by decide⟩

theorem witness_ResetInputGivesTheResetState : (hostState .reset).moves = .reset :: [] := rfl

theorem witness_FieldFunctionsAreModular : (12288 : Nat) < 12289 ∧ (0 : Nat) < 12289 := by decide

theorem witness_FieldLaws : (12288 : Nat) < 12289 ∧ fmul 0 12288 = 0 ∧ (12288 : Nat) ≠ 0 := by decide

theorem witness_CenterAndCanonAreInverse : (12288 : Nat) < 12289 ∧ (-12289 : Int) < -12288 ∧ (12288 : Int) < 12289 ∧
    (-6144 : Int) ≤ -6144 ∧ (6144 : Int) ≤ 6144 := by decide

theorem witness_FctrResult : ∃ s s' : State, 12289 ≤ s.a.toNat ∧ s'.a.toNat < 12289 ∧ s'.a.toNat = 12288 :=
  ⟨{ State.reset with a := 12289 }, { State.reset with a := 12288 }, by decide, by decide, by decide⟩

theorem witness_FcanResult : ∃ s s' u u' : State, s.a.toInt ≤ -12289 ∧ 12289 ≤ s'.a.toInt ∧
    (-12289 < u.a.toInt ∧ u.a.toInt < 12289) ∧ -12289 < u'.a.toInt ∧ u'.a.toInt < 12289 :=
  ⟨{ State.reset with a := 0xCFFF }, { State.reset with a := 0x3001 }, { State.reset with a := 0xD000 },
    { State.reset with a := 0x3000 }, by decide, by decide, by decide, by decide, by decide⟩

/-- The largest canonical lane, and the lanes next to the range on both sides: for `NTTF NTTI NTTMUL PMUL PSUB PCTR`. -/
theorem witness_canonical_operands (k : PReg) : Cert.Canonical ((flatState 12288).poly k) ∧
    Cert.Canonical ((flatState 0).poly k) ∧ ¬Cert.Canonical ((flatState 12289).poly k) ∧
    ¬Cert.Canonical ((flatState 0xFFFF).poly k) := by
  simp only [poly_flatState]
  exact ⟨within_flat _ _ _ (by decide), within_flat _ _ _ (by decide), not_within_flat _ _ _ (by decide),
    not_within_flat _ _ _ (by decide)⟩

theorem witness_NttfResult : Cert.Canonical ((flatState 12288).poly 3) ∧ ¬Cert.Canonical ((flatState 12289).poly 3) :=
  ⟨(witness_canonical_operands 3).1, (witness_canonical_operands 3).2.2.1⟩

theorem witness_NttiResult : Cert.Canonical ((flatState 12288).poly 0) ∧ ¬Cert.Canonical ((flatState 0xFFFF).poly 0) :=
  ⟨(witness_canonical_operands 0).1, (witness_canonical_operands 0).2.2.2⟩

theorem witness_NttmulResult : (Cert.Canonical ((flatState 12288).poly 3) ∧ Cert.Canonical ((flatState 12288).poly 0)) ∧
    ¬(Cert.Canonical ((flatState 12289).poly 3) ∧ Cert.Canonical ((flatState 12289).poly 0)) :=
  ⟨⟨(witness_canonical_operands 3).1, (witness_canonical_operands 0).1⟩,
    fun h => (witness_canonical_operands 3).2.2.1 h.1⟩

theorem witness_PmulResult : (Cert.Canonical ((flatState 12288).poly 1) ∧ Cert.Canonical ((flatState 12288).poly 2)) ∧
    ¬(Cert.Canonical ((flatState 12289).poly 1) ∧ Cert.Canonical ((flatState 12289).poly 2)) :=
  ⟨⟨(witness_canonical_operands 1).1, (witness_canonical_operands 2).1⟩,
    fun h => (witness_canonical_operands 1).2.2.1 h.1⟩

theorem witness_PsubResult : (Cert.Canonical ((flatState 0).poly 2) ∧ Cert.Canonical ((flatState 0).poly 3)) ∧
    ¬(Cert.Canonical ((flatState 0xFFFF).poly 2) ∧ Cert.Canonical ((flatState 0xFFFF).poly 3)) :=
  ⟨⟨(witness_canonical_operands 2).2.1, (witness_canonical_operands 3).2.1⟩,
    fun h => (witness_canonical_operands 2).2.2.2 h.1⟩

theorem witness_PctrResult : Cert.Canonical ((flatState 12288).poly 2) ∧ ¬Cert.Canonical ((flatState 12289).poly 2) :=
  ⟨(witness_canonical_operands 2).1, (witness_canonical_operands 2).2.2.1⟩

theorem witness_PcanResult : Cert.Within (-12288) 12288 ((flatState 0xD000).poly 1) ∧
    Cert.Within (-12288) 12288 ((flatState 0x3000).poly 1) ∧ ¬Cert.Within (-12288) 12288 ((flatState 0xCFFF).poly 1) ∧
    ¬Cert.Within (-12288) 12288 ((flatState 0x3001).poly 1) := by
  simp only [poly_flatState]
  exact ⟨within_flat _ _ _ (by decide), within_flat _ _ _ (by decide), not_within_flat _ _ _ (by decide),
    not_within_flat _ _ _ (by decide)⟩

theorem witness_PcanPctrRestore : Cert.Within (-6144) 6144 ((flatState 0xE800).poly 1) ∧
    Cert.Within (-6144) 6144 ((flatState 0x1800).poly 1) ∧ Cert.Canonical ((flatState 12288).poly 1) := by
  refine ⟨?_, ?_, (witness_canonical_operands 1).1⟩
  · rw [poly_flatState]
    exact within_flat _ _ _ (by decide)
  · rw [poly_flatState]
    exact within_flat _ _ _ (by decide)

theorem witness_ForwardTransformEvaluates : Cert.IsCanonicalList (List.replicate 512 12288) ∧ (511 : Nat) < 512 := by
  refine ⟨⟨List.length_replicate, fun x hx => ?_⟩, by omega⟩
  rw [(List.mem_replicate.mp hx).2]
  omega

theorem witness_TransformsAreInverse : Cert.IsCanonicalList (List.replicate 512 12288) := witness_ForwardTransformEvaluates.1

theorem witness_RingProductIsNegacyclic : Cert.IsCanonicalList (List.replicate 512 12288) ∧ (511 : Nat) < 512 :=
  witness_ForwardTransformEvaluates

theorem witness_StateByteView : (199 : Nat) < 200 ∧ (7 : Nat) < 8 := by decide

theorem witness_KeccakStepsFollowTheirFormulas : (4 : Nat) < 5 ∧ (0 : Nat) < 5 := by decide

/-- A core with a buffer of three bytes that holds a message of that length, and a salt. -/
def loaded : State := { State.resetFor 3 with mlen := 3, msgbuf := buffer [1, 2, 3], salt := buffer (List.replicate 40 7) }

/-- The mode error; the salt; the longest message that fits, and the shortest that does not. -/
theorem witness_ShabsResult :
    ({ State.reset with kmode := .squeezing } : State).kmode = .squeezing ∧
    (loaded.kmode = .absorbing ∧ Memory.wf 40 loaded.salt = true ∧ (List.replicate 40 7#8).length = 40 ∧
      Cert.Holds loaded.salt (List.replicate 40 7)) ∧
    ({ loaded with mlen := 4 } : State).msgMax < ({ loaded with mlen := 4 } : State).mlen.toNat ∧
    (loaded.mlen.toNat ≤ loaded.msgMax ∧ Memory.wf loaded.msgMax loaded.msgbuf = true ∧
      [1#8, 2#8, 3#8].length = loaded.mlen.toNat ∧ Cert.Holds loaded.msgbuf [1, 2, 3]) := by
  have h1 : Memory.wf 40 loaded.salt = true := by decide +kernel
  have h2 : Memory.wf 3 loaded.msgbuf = true := by decide +kernel
  refine ⟨rfl, ⟨rfl, h1, List.length_replicate, holds_of_memRead 40 _ _ h1 (by decide +kernel)⟩, by decide,
    ⟨by decide, h2, by decide, holds_of_memRead 3 _ _ h2 (by decide +kernel)⟩⟩

theorem witness_AbsorbIsByteWise : (⟨State.reset.ks, 134⟩ : Sponge).cur.val < 135 ∧
    (⟨State.reset.ks, 135⟩ : Sponge).cur.val = 135 ∧ (⟨State.reset.ks, 135⟩ : Sponge).cur.val < 136 := by decide

theorem witness_ShfinResult : ({ State.reset with kmode := .squeezing } : State).kmode = .squeezing ∧
    ({ State.reset with kcur := 135 } : State).kmode = .absorbing := ⟨rfl, rfl⟩

theorem witness_ShsqzResult : State.reset.kmode = .absorbing ∧
    (∃ s : State, s.kmode = .squeezing ∧ s.kcur.val < 136 ∧ s.kcur.val = 135) ∧
    ∃ s : State, s.kmode = .squeezing ∧ s.kcur.val = 136 :=
  ⟨rfl, ⟨{ State.reset with kmode := .squeezing, kcur := 135 }, rfl, by decide, rfl⟩,
    { State.reset with kmode := .squeezing, kcur := 136 }, rfl, rfl⟩

/-- Both modes; next states of `SHINIT`, `SHFIN` and `KECF`; and a `SHFIN` that moves the mode. -/
theorem witness_SpongeModeRules :
    (∃ s : State, s.kmode = .squeezing) ∧ State.reset.kmode = .absorbing ∧ (1 : Fin 4).val < 2 ∧
    (∃ t, exec .shinit State.reset = .next t) ∧ (∃ t, exec .kecf State.reset = .next t) ∧
    ∃ t, exec .shfin State.reset = .next t ∧ t.kmode ≠ State.reset.kmode :=
  ⟨⟨{ State.reset with kmode := .squeezing }, rfl⟩, rfl, by decide, ⟨_, rfl⟩, ⟨_, rfl⟩, _, rfl, by decide⟩

/-- The stream of H-a. -/
theorem witness_H2pResult : (∃ s : State, s.kmode = .absorbing) ∧
    ∃ (s : State) (k : Nat), s.kmode = .squeezing ∧ (Cert.accepted k s.sponge).length = 512 ∧
      ∀ j < k, (Cert.accepted j s.sponge).length < 512 := by
  obtain ⟨sp, hs⟩ := sampled_ha
  obtain ⟨k, -, he, hl, -⟩ := accepted_of_sample _ _ _ _ _ _ hs
  exact ⟨⟨State.reset, rfl⟩,
    { State.reset.setSponge haSponge with kmode := .squeezing }, k, rfl, he, hl⟩

theorem witness_H2pStopsOnlyWhereNothingEnds : ∃ s : State, s.kmode = .squeezing :=
  ⟨{ State.reset with kmode := .squeezing }, rfl⟩

/-- A key whose first coefficient is 12288 and the others 0. -/
def keyFirstMax : List Byte := 0x09 :: 0xC0 :: List.replicate 895 0

/-- P4: a key whose last coefficient is 12289. -/
def keyLastBad : List Byte := 0x09 :: List.replicate 893 0x00 ++ [0x00, 0x30, 0x01]

/-- A key with a wrong header. -/
def keyBadHeader : List Byte := List.replicate 897 0x0A

theorem bitAt_keyFirstMax (p : Nat) (h : 10 ≤ p) (h' : p < 7176) : Cert.bitAt keyFirstMax p = 0 := by
  unfold Cert.bitAt keyFirstMax
  by_cases h1 : p / 8 = 1
  · have : p = 10 ∨ p = 11 ∨ p = 12 ∨ p = 13 ∨ p = 14 ∨ p = 15 := by omega
    rcases this with rfl | rfl | rfl | rfl | rfl | rfl <;> decide
  · obtain ⟨j, hj⟩ : ∃ j, p / 8 = j + 2 := ⟨p / 8 - 2, by omega⟩
    have : j < 895 := by omega
    rw [hj, List.getD_cons_succ, List.getD_cons_succ, List.getD_replicate _ this]
    simp

theorem fieldAt_keyFirstMax (i : Nat) (hi : i < 512) : Cert.fieldAt keyFirstMax 14 (8 + 14 * i) < 12289 := by
  by_cases h : i = 0
  · subst h
    decide +kernel
  · unfold Cert.fieldAt
    rw [Finset.sum_eq_zero]
    · omega
    · intro k hk
      rw [bitAt_keyFirstMax _ (by omega) (by have := Finset.mem_range.mp hk; omega)]
      simp

theorem witness_PkdecResult : (∃ s : State, s.pklen.toNat ≠ 897) ∧
    (∀ l ∈ [keyFirstMax, keyLastBad, keyBadHeader],
      (withKey l).pklen.toNat = 897 ∧ Memory.wf 897 (withKey l).pkbuf = true ∧ l.length = 897 ∧
        Cert.Holds (withKey l).pkbuf l) ∧
    keyBadHeader.getD 0 0 ≠ 0x09 ∧
    (keyLastBad.getD 0 0 = 0x09 ∧ ∃ i < 512, 12289 ≤ Cert.fieldAt keyLastBad 14 (8 + 14 * i)) ∧
    keyFirstMax.getD 0 0 = 0x09 ∧ ∀ i < 512, Cert.fieldAt keyFirstMax 14 (8 + 14 * i) < 12289 := by
  have len : ∀ l ∈ [keyFirstMax, keyLastBad, keyBadHeader], l.length = 897 := by decide +kernel
  have wf : ∀ l ∈ [keyFirstMax, keyLastBad, keyBadHeader], Memory.wf 897 (buffer l) = true ∧
      memRead (buffer l) l.length = some l := by decide +kernel
  refine ⟨⟨State.reset, by decide⟩, fun l hl => ⟨rfl, (wf l hl).1, len l hl, holds_of_memRead 897 _ _ (wf l hl).1 (wf l hl).2⟩,
    by decide, ⟨by decide, 511, by omega, by decide +kernel⟩, by decide, fieldAt_keyFirstMax⟩

/-- A signature that decodes: every code is that of -127, and the padding is zero. -/
def sigAllOnes : List Byte := 0x39 :: List.replicate 40 7 ++ List.replicate 576 0xFF ++ List.replicate 49 0

/-- K3: a signature whose first code has a run that is too long. -/
def sigAllZeros : List Byte := 0x39 :: List.replicate 665 0

theorem getD_sigAllOnes (j : Nat) (h : 41 ≤ j) : sigAllOnes.getD j 0 = if j < 617 then 0xFF#8 else 0#8 := by
  obtain ⟨i, rfl⟩ : ∃ i, j = i + 41 := ⟨j - 41, by omega⟩
  have hs : sigAllOnes = (0x39 :: List.replicate 40 7) ++ (List.replicate 576 0xFF ++ List.replicate 49 0) := by
    rw [sigAllOnes, List.append_assoc]
  have hl : (0x39 :: List.replicate 40 7 : List Byte).length = 41 := by rw [List.length_cons, List.length_replicate]
  rw [hs, List.getD_append_right _ _ _ _ (by omega), hl, Nat.add_sub_cancel]
  by_cases hi : i < 576
  · rw [if_pos (by omega), List.getD_append _ _ _ _ (by rw [List.length_replicate]; exact hi), List.getD_replicate _ hi]
    rfl
  · rw [if_neg (by omega), List.getD_append_right _ _ _ _ (by rw [List.length_replicate]; omega), List.length_replicate]
    by_cases hi' : i - 576 < 49
    · rw [List.getD_replicate _ hi']
      rfl
    · rw [List.getD_eq_default _ _ (by rw [List.length_replicate]; omega)]
      rfl

theorem bitAt_sigAllOnes (p : Nat) (h : 328 ≤ p) : Cert.bitAt sigAllOnes p = if p < 4936 then 1 else 0 := by
  unfold Cert.bitAt
  rw [getD_sigAllOnes _ (by omega)]
  by_cases hp : p < 4936
  · rw [if_pos (by omega), if_pos hp]
    have : p % 8 < 8 := Nat.mod_lt _ (by omega)
    generalize p % 8 = r at this
    interval_cases r <;> rfl
  · rw [if_neg (by omega), if_neg hp]
    simp

theorem specCoeff_sigAllOnes (p : Nat) (h : 328 ≤ p) (h' : p + 9 ≤ 4936) :
    Cert.specCoeff sigAllOnes p = .ok (-127, p + 9) := by
  have hb : ∀ k ≤ 8, Cert.bitAt sigAllOnes (p + k) = 1 := fun k hk => by
    rw [bitAt_sigAllOnes _ (by omega), if_pos (by omega)]
  have h0 : Cert.bitAt sigAllOnes p = 1 := hb 0 (by omega)
  have hf : Cert.fieldAt sigAllOnes 7 (p + 1) = 127 := by
    unfold Cert.fieldAt
    rw [Finset.sum_congr rfl (g := fun k => 1 * 2 ^ (7 - 1 - k))]
    · rfl
    · intro k hk
      have := Finset.mem_range.mp hk
      rw [show p + 1 + k = p + (1 + k) by omega, hb _ (by omega)]
  have hr : Cert.specRun sigAllOnes 16 (p + 8) 0 = .ok (0, p + 8 + 1) := by
    rw [Cert.specRun, if_neg (by omega), if_pos (hb 8 (by omega))]
  rw [Cert.specCoeff, if_neg (by omega), hr]
  simp [hf, h0]

theorem specCoeffs_sigAllOnes (k p : Nat) (h : 328 ≤ p) (h' : p + 9 * k ≤ 4936) :
    Cert.specCoeffs sigAllOnes k p = .ok (List.replicate k (-127), p + 9 * k) := by
  induction k generalizing p with
  | zero => rfl
  | succ k ih =>
    rw [Cert.specCoeffs, specCoeff_sigAllOnes p h (by omega)]
    simp only
    rw [ih (p + 9) (by omega) (by omega)]
    simp only [Except.ok.injEq, Prod.mk.injEq]
    exact ⟨rfl, by omega⟩

theorem witness_SigdecResult : (∃ s : State, s.siglen.toNat ≠ 666) ∧
    (∀ l ∈ [sigAllOnes, sigAllZeros],
      (withSig l).siglen.toNat = 666 ∧ Memory.wf 666 (withSig l).sigbuf = true ∧ l.length = 666 ∧
        Cert.Holds (withSig l).sigbuf l) ∧
    (∃ k p, Cert.specSig sigAllZeros = .error (k, p)) ∧ ∃ vs p, Cert.specSig sigAllOnes = .ok (vs, p) := by
  have len : ∀ l ∈ [sigAllOnes, sigAllZeros], l.length = 666 := by decide +kernel
  have wf : ∀ l ∈ [sigAllOnes, sigAllZeros], Memory.wf 666 (buffer l) = true ∧
      memRead (buffer l) l.length = some l := by decide +kernel
  refine ⟨⟨State.reset, by decide⟩, fun l hl => ⟨rfl, (wf l hl).1, len l hl, holds_of_memRead 666 _ _ (wf l hl).1 (wf l hl).2⟩,
    ⟨.internalBoundExceeded, 352, ?_⟩, List.replicate 512 (-127), 4936, ?_⟩
  · have : Cert.specCoeff sigAllZeros 328 = .error (.internalBoundExceeded, 352) := by rfl
    rw [Cert.specSig, if_neg (by decide), Cert.specCoeffs, this]
  · rw [Cert.specSig, if_neg (by decide), specCoeffs_sigAllOnes 512 328 (by omega) (by omega)]
    simp only
    rw [if_neg]
    simp only [List.any_eq_true, List.mem_range, Bool.and_eq_true, decide_eq_true_eq, not_exists, not_and]
    intro t ht hp
    rw [bitAt_sigAllOnes t (by omega), if_neg (by omega)]
    omega

/-- K10: coefficients whose codes fill the body exactly. -/
def k10 : List Int := List.replicate 26 1921 ++ [257] ++ List.replicate 485 1

theorem witness_DecodeUndoesEncode : Cert.IsCanonicalList (List.replicate 512 12288) ∧
    (List.replicate 40 7#8).length = 40 ∧ k10.length = 512 ∧ (∀ v ∈ k10, -2047 ≤ v ∧ v ≤ 2047) ∧
    (Cert.sigBody k10).length ≤ 5000 ∧ (Cert.sigBody k10).length = 5000 := by
  refine ⟨witness_ForwardTransformEvaluates.1, by simp, ?_⟩
  decide +kernel

theorem witness_AcceptedBytesAreTheOnlyEncoding :
    (∃ l h, l.length = 897 ∧ decodePk params 897 l = .ok h) ∧ ∃ l d, l.length = 666 ∧ decodeSig params 666 l = .ok d := by
  obtain ⟨h, d, sp, hh, hd, -⟩ := s51_inner _ _ _ test_accepted_norm
  exact ⟨⟨s51Key, h, length_memRead _ _ _ s51_buffers.1.2, hh⟩, s51Sig, d, length_memRead _ _ _ s51_buffers.2.1.2, hd⟩

theorem witness_NormResult : Cert.Within (-6144) 12288 ((flatState 0xE800).poly 3) ∧
    Cert.Within (-6144) 12288 ((flatState 12288).poly 1) ∧
    ¬(Cert.Within (-6144) 12288 ((flatState 0xE7FF).poly 3) ∧ Cert.Within (-6144) 12288 ((flatState 0xE7FF).poly 1)) := by
  simp only [poly_flatState]
  exact ⟨within_flat _ _ _ (by decide), within_flat _ _ _ (by decide), fun h => not_within_flat _ _ _ (by decide) h.1⟩

/-- S5.1. -/
theorem witness_VerifyComputesVerify : ∃ (s : State) (pk sg m : List Byte) (h : List Nat) (d : DecodedSig) (c : List Nat)
    (sp : Sponge),
    Memory.wf 897 s.pkbuf = true ∧ Memory.wf 666 s.sigbuf = true ∧ Memory.wf s.msgMax s.msgbuf = true ∧
    Memory.wf 40 s.salt = true ∧
    s.pklen.toNat = 897 ∧ pk.length = 897 ∧ Cert.Holds s.pkbuf pk ∧
    s.siglen.toNat = 666 ∧ sg.length = 666 ∧ Cert.Holds s.sigbuf sg ∧
    s.mlen.toNat ≤ s.msgMax ∧ m.length = s.mlen.toNat ∧ Cert.Holds s.msgbuf m ∧
    decodePk params 897 pk = .ok h ∧ decodeSig params 666 sg = .ok d ∧
    sample sampleFuel 512 (finishSponge (absorb emptySponge (d.salt ++ m))) [] = some (c, sp) := by
  obtain ⟨⟨wk, hk⟩, ⟨ws, hs⟩, ⟨wm, hm⟩⟩ := s51_buffers
  obtain ⟨h, d, sp, hh, hd, -, -, hc⟩ := s51_inner _ _ _ test_accepted_norm
  have lk := length_memRead _ _ _ hk
  have ls := length_memRead _ _ _ hs
  have lm := length_memRead _ _ _ hm
  exact ⟨s51, s51Key, s51Sig, s51Msg, h, d, s51Challenge, sp, wk, ws, wm, rfl, rfl, lk, holds_of_memRead 897 _ _ wk (lk ▸ hk), rfl, ls,
    holds_of_memRead 666 _ _ ws (ls ▸ hs), by decide, lm, holds_of_memRead 4096 _ _ wm (lm ▸ hm), hh, hd, hc⟩

/-- A `VERIFY` stopped in step 1, in step 2, in step 3 and in step 5. -/
theorem witness_RejectingVerifyWrites :
    (∃ s t : State, exec .verify s = .next t ∧ t.accept = false ∧ t.phase = 1) ∧
    (∃ s t : State, exec .verify s = .next t ∧ t.accept = false ∧ t.phase = 2) ∧
    (∃ s t : State, exec .verify s = .next t ∧ t.accept = false ∧ t.phase = 3) ∧
    ∃ s t : State, exec .verify s = .next t ∧ t.accept = false ∧ t.phase = 5 := by
  refine ⟨⟨State.reset, _, rfl, rfl, rfl⟩, ?_, ?_, ?_⟩
  · obtain ⟨t, ht, hf⟩ := exists_of_nextIs _ _ test_verify_desync
    simp only [Bool.and_eq_true, decide_eq_true_eq, Bool.not_eq_true'] at hf
    exact ⟨_, t, ht, hf.1, hf.2.2.1⟩
  · obtain ⟨t, ht, hf⟩ := exists_of_nextIs _ _ test_verify_long_message
    simp only [Bool.and_eq_true, decide_eq_true_eq, Bool.not_eq_true'] at hf
    exact ⟨_, t, ht, hf.1, hf.2.2.1⟩
  · obtain ⟨t, ht, ha, -, hp⟩ := test_verify_rejects
    exact ⟨_, t, ht, ha, hp⟩

/-- A `VERIFY` that accepts, and one that rejects. -/
theorem witness_VerifyAcceptsOrRejects : (∃ s t : State, exec .verify s = .next t ∧ t.accept = true) ∧
    ∃ s t : State, exec .verify s = .next t ∧ t.accept = false :=
  ⟨let ⟨t, ht, ha, _⟩ := test_verify_accepts; ⟨_, t, ht, ha⟩, State.reset, _, rfl, rfl⟩

/-- Two cores that differ in `A`: in a run that accepts, and in one that is refused for a key never written. -/
theorem witness_VerifyDependsOnSixInputs :
    (∃ s s' t : State, s ≠ s' ∧ s.pklen = s'.pklen ∧ s.pkbuf = s'.pkbuf ∧ s.siglen = s'.siglen ∧ s.sigbuf = s'.sigbuf ∧
      s.mlen = s'.mlen ∧ s.msgbuf = s'.msgbuf ∧ s.msgMax = s'.msgMax ∧ Memory.wf 40 s.salt = true ∧
      Memory.wf 40 s'.salt = true ∧ exec .verify s = .next t ∧ t.phase = 6) ∧
    exec .verify { State.reset with pklen := 897 } = .refused (.neverWritten .pkbuf) := by
  obtain ⟨t, ht, -, -, hp⟩ := test_verify_accepts
  refine ⟨⟨s51, { s51 with a := 1 }, t, fun e => ?_, rfl, rfl, rfl, rfl, rfl, rfl, rfl, rfl, rfl, ht, hp⟩, rfl⟩
  have : (0 : Word16) = 1 := congrArg State.a e
  exact absurd this (by decide)

/-- Commands that write `R`, a polynomial register and `KMODE`. -/
theorem witness_CommandsWriteOnlyTheirLocations :
    (∃ s t : State, exec .fadd s = .next t ∧ t.r ≠ s.r) ∧
    (∃ s t : State, exec (.pcan 3 1) s = .next t ∧ t.pWritten[(3 : PReg)] ≠ s.pWritten[(3 : PReg)]) ∧
    ∃ s t : State, exec .shfin s = .next t ∧ t.kmode ≠ s.kmode := by
  refine ⟨⟨{ State.reset with a := 1 }, _, rfl, by decide⟩, ⟨flatState 0,
    complete (writePoly 3 (polyOfNats ((List.replicate 512 0).map canon)) (flatState 0)), ?_, fun e => ?_⟩,
    State.reset, _, rfl, by decide⟩
  · have h : rangedLanes (-12288) 12288 ((flatState 0).poly 1) = some (List.replicate 512 0) := by
      rw [poly_flatState]
      refine (rangedLanes_eq_some _ _ _ _).mpr ⟨(signedLanes_flat 0).symm, fun v hv => ?_⟩
      rw [(List.mem_replicate.mp hv).2]
      omega
    show execPcan 3 1 (flatState 0) = _
    simp only [execPcan, h]
  · rw [show (flatState 0).pWritten = Vector.replicate 4 (Vector.replicate 512 false) from rfl,
      complete_pWritten, writePoly_pWritten] at e
    have := congrArg (fun m : LaneMarks => m[0]) e
    simp at this

/-- A command of each of the four kinds that ends with an error. -/
theorem witness_FailingCommandsWriteNothingElse :
    (∃ s t : State, exec .fadd s = .next t ∧ t.err ≠ .ok) ∧
    (∃ s t : State, exec (.sigdec 1) s = .next t ∧ t.err ≠ .ok) ∧
    (∃ s t : State, exec .verify s = .next t ∧ t.err ≠ .ok) ∧
    ∃ s t : State, exec (.norm 3 1) s = .next t ∧ t.err ≠ .ok ∧ t.err ≠ .verificationFailed := by
  refine ⟨⟨{ State.reset with a := 12289 }, _, rfl, by decide⟩, ⟨State.reset, _, rfl, by decide⟩,
    ⟨State.reset, _, rfl, by decide⟩, flatState 0xE7FF, raise .operandRange (setAccept false (flatState 0xE7FF)), ?_,
    by decide, by decide⟩
  show execNorm 3 1 (flatState 0xE7FF) = _
  rcases execNorm_cases 3 1 (flatState 0xE7FF) with ⟨u, v, hu, -, -⟩ | ⟨-, hx⟩
  · rw [poly_flatState, (rangedLanes_eq_none _ _ _).mpr ⟨0, by omega, .inl (by decide)⟩] at hu
    cases hu
  · exact hx

/-- The buffers of V1 are canonical, also where one of them is replaced by an empty one. -/
theorem canonical_s51 : Cert.CanonicalBuffers s51 ∧ Cert.CanonicalBuffers (loadedWith []) ∧
    Cert.CanonicalBuffers { s51 with msgbuf := [] } :=
  ⟨⟨s51_buffers.1.1, s51_buffers.2.1.1, s51_buffers.2.2.1, rfl⟩, ⟨s51_buffers.1.1, rfl, s51_buffers.2.2.1, rfl⟩,
    s51_buffers.1.1, s51_buffers.2.1.1, rfl, rfl⟩

/-- A `VERIFY` that reads a byte of `SIGBUF`, and one that reads a byte of `MSGBUF`, that nothing has written. -/
theorem witness_verify_reads_unwritten : Cert.ReadsUnwritten .verify (loadedWith []) .sigbuf ∧
    Cert.ReadsUnwritten .verify { s51 with msgbuf := [] } .msgbuf := by
  obtain ⟨h, d, sp, hh, hd, -⟩ := s51_inner _ _ _ test_accepted_norm
  have lk := length_memRead _ _ _ s51_buffers.1.2
  have ls := length_memRead _ _ _ s51_buffers.2.1.2
  have kd : ∀ s : State, s.pklen = s51.pklen → s.pkbuf = s51.pkbuf → Cert.KeyDecodes s := fun s e1 e2 =>
    ⟨by rw [e1]; rfl, s51Key, h, lk, by
      rw [e2]
      exact holds_of_memRead 897 _ _ s51_buffers.1.1 (lk ▸ s51_buffers.1.2), hh⟩
  exact ⟨⟨.inr ⟨rfl, kd _ rfl rfl⟩, rfl, 665, by omega, rfl⟩,
    .inr ⟨rfl, kd _ rfl rfl, rfl, s51Sig, d, ls,
      holds_of_memRead 666 _ _ s51_buffers.2.1.1 (ls ▸ s51_buffers.2.1.2), hd⟩, by decide, 11, by decide, rfl⟩

/-- Each buffer short of its last byte; and canonical buffers, with a refused command and with one that is not. -/
theorem witness_NeverWrittenBytesAreRefused :
    (Memory.wf 897 (withKey []).pkbuf = true ∧ (withKey []).pklen.toNat = 897 ∧
      ∃ j < 897, Memory.read (withKey []).pkbuf j = none) ∧
    (Memory.wf 666 (withSig []).sigbuf = true ∧ (withSig []).siglen.toNat = 666 ∧
      ∃ j < 666, Memory.read (withSig []).sigbuf j = none) ∧
    (∃ s : State, Memory.wf 40 s.salt = true ∧ s.kmode = .absorbing ∧ ∃ j < 40, Memory.read s.salt j = none) ∧
    (∃ s : State, Memory.wf s.msgMax s.msgbuf = true ∧ s.kmode = .absorbing ∧ s.mlen.toNat ≤ s.msgMax ∧
      ∃ j < s.mlen.toNat, Memory.read s.msgbuf j = none) ∧
    Cert.CanonicalBuffers (loadedWith []) ∧ (∃ sp, Cert.ReadsUnwritten .verify (loadedWith []) sp) ∧
    (∃ r, exec (.pkdec 2) (withKey []) = .refused r) ∧ ¬Cert.ReadsUnwritten .kecf (loadedWith []) .sigbuf :=
  ⟨⟨rfl, rfl, 896, by omega, rfl⟩, ⟨rfl, rfl, 665, by omega, rfl⟩,
    ⟨{ State.reset with salt := buffer (List.replicate 39 1) }, by decide +kernel, rfl, 39, by omega, by decide +kernel⟩,
    ⟨{ State.resetFor 3 with mlen := 3, msgbuf := buffer [1, 2] }, by decide +kernel, rfl, by decide, 2, by decide,
      by decide +kernel⟩,
    canonical_s51.2.1, ⟨.sigbuf, witness_verify_reads_unwritten.1⟩, ⟨_, rfl⟩, by simp [Cert.ReadsUnwritten]⟩

theorem witness_StepKeepsTheInvariant : ∃ s t : State, Safety.Inv s ∧ step s = .next t ∧ t ≠ s := by
  refine ⟨hostState (.write .a 5), { State.reset with a := 5 }, ?_, rfl, fun e => ?_⟩
  · exact ⟨rfl, rfl, rfl, rfl, fun _ => by decide, rfl, by decide, by decide, fun h => (by cases h), by decide⟩
  · have : (5 : Word16) = 0 := congrArg State.a e
    exact absurd this (by decide)

/-- The state after reset with register 1 written, about to run `PCAN T, S2`; and the same with other bits in register 0. -/
def oneWritten : State := { writePoly 1 (flat 0) State.reset with moves := [.cmd 0x0723] }

theorem witness_NeverWrittenLanesHaveNoInfluence :
    (∃ s' : State, s' ≠ oneWritten ∧ Cert.AgreeWhereWritten oneWritten s') ∧ Safety.meaningful oneWritten = true ∧
    (∃ t, step oneWritten = .next t) ∧
    Safety.meaningful { State.reset with pklen := 897, moves := [.cmd 0x0070] } = true ∧
    ∃ r, step { State.reset with pklen := 897, moves := [.cmd 0x0070] } = .refused r := by
  have hp : oneWritten.p = (Vector.replicate 4 (flat 0)).set 1 (flat 0) := by
    rw [oneWritten]
    exact writePoly_p State.reset 1 (flat 0)
  have hm : oneWritten.pWritten = (Vector.replicate 4 (Vector.replicate 512 false)).set 1 (Vector.replicate 512 true) := by
    rw [oneWritten]
    exact writePoly_pWritten State.reset 1 (flat 0)
  refine ⟨⟨{ oneWritten with p := oneWritten.p.set 0 (flat 5) }, fun e => ?_, rfl, fun k i h hk => ?_⟩, by decide +kernel, ?_,
    by decide +kernel, .neverWritten .pkbuf, rfl⟩
  · have h := congrArg (fun t : State => (t.p[0])[0]) e
    simp only [Vector.getElem_set_self, hp] at h
    simp [flat] at h
  · by_cases h0 : k = 0
    · subst h0
      rw [hm] at hk
      simp at hk
    · have hv : (0 : Nat) ≠ k := fun e => h0 (Fin.ext e.symm)
      simp [State.poly, hv]
  · have e : step oneWritten = exec (.pcan 3 1) (acceptCommand { oneWritten with moves := [] }) := by
      rw [step_move oneWritten (.cmd 0x0723) [] rfl, makeMove, hostCmd,
        if_neg (by simp [oneWritten, State.reset, State.resetFor]), runWord,
        show decode 0x0723 = .ok (.pcan 3 1) by decide]
    rw [e]
    rcases execPcan_cases 3 1 (acceptCommand { oneWritten with moves := [] }) with ⟨v, -, h⟩ | ⟨-, h⟩ <;> exact ⟨_, h⟩

end Sys2Proof.Tests
end

/-! PROOFS. What the commands of 10_state.md R42 write: every way a command other than `VERIFY` can end, what a sequence of
lines keeps, the state after reset (R39, R43). -/

namespace Sys2Proof.Machine

open Sys2Proof.Cert

/-! ### Every way a command can end -/

/-- The next states a command other than `VERIFY` can answer, by what it writes beside `ERR` and `ST`. -/
inductive CommandEnd (s : State) : Instr → State → Prop
  /-- An error that leaves everything else as it was (60_exceptions.md R241). -/
  | raised (i : Instr) (e : ErrorKind) : CommandEnd s i (raise e s)
  /-- The scalar result of the field unit. -/
  | scalar {i : Instr} (v : Word16) (hi : i = .fadd ∨ i = .fsub ∨ i = .fmul ∨ i = .fctr ∨ i = .fcan) :
      CommandEnd s i (complete { s with r := v })
  /-- One polynomial register. -/
  | register {i : Instr} (k : PReg) (v : Poly) (hi : WritesPoly k i) : CommandEnd s i (complete (writePoly k v s))
  /-- `KECF`. -/
  | permuted (v : Lanes) : CommandEnd s .kecf (complete { s with ks := v })
  /-- `SHINIT`. -/
  | initialised (sp : Sponge) (m : SpongeMode) :
      CommandEnd s .shinit (complete { s.setSponge sp with kmode := m })
  /-- `SHABS`. -/
  | absorbed (sel : Fin 4) (sp : Sponge) : CommandEnd s (.shabs sel) (complete (s.setSponge sp))
  /-- `SHFIN`. -/
  | finished (sp : Sponge) (m : SpongeMode) : CommandEnd s .shfin (complete { s.setSponge sp with kmode := m })
  /-- `SHSQZ`. -/
  | squeezed (sp : Sponge) (v : Word16) : CommandEnd s .shsqz (complete { s.setSponge sp with r := v })
  /-- `H2P`: the challenge polynomial and the sponge it was drawn from. -/
  | sampled (rd : PReg) (v : Poly) (sp : Sponge) :
      CommandEnd s (.h2p rd) (complete (writePoly rd v (s.setSponge sp)))
  /-- `SIGDEC` of a malformed signature: the cursor stays where the decoder stopped (45_codec.md R196). -/
  | malformed (rd : PReg) (e : ErrorKind) (p : Nat) : CommandEnd s (.sigdec rd) (raise e (setCursor p s))
  /-- `SIGDEC` of a signature. -/
  | decoded (rd : PReg) (v : Poly) (p : Nat) (m : Memory) :
      CommandEnd s (.sigdec rd) (complete (writePoly rd v { setCursor p s with salt := m }))
  /-- `NORM` of an operand out of range. -/
  | normOutOfRange (rs1 rs2 : PReg) : CommandEnd s (.norm rs1 rs2) (raise .operandRange (setAccept false s))
  /-- `NORM` of a short pair. -/
  | normAccepted (rs1 rs2 : PReg) (n : Word64) :
      CommandEnd s (.norm rs1 rs2) (complete (setAccept true { s with normsq := n }))
  /-- `NORM` of a long pair. -/
  | normRejected (rs1 rs2 : PReg) (n : Word64) :
      CommandEnd s (.norm rs1 rs2) (raise .verificationFailed (setAccept false { s with normsq := n }))

/-! ### Each command ends in one of these ways -/

theorem commandEnd_of_fieldBinary {f : Nat → Nat → Nat} {i : Instr} {s t : State}
    (hi : i = .fadd ∨ i = .fsub ∨ i = .fmul ∨ i = .fctr ∨ i = .fcan) (h : fieldBinary f s = .next t) :
    CommandEnd s i t := by
  rcases fieldBinary_cases f s with ⟨-, -, e⟩ | ⟨-, e⟩ <;> cases e.symm.trans h
  · exact .scalar _ hi
  · exact .raised i _

theorem commandEnd_of_transformInPlace {f : List Nat → List Nat} {rd : PReg} {i : Instr} {s t : State}
    (hi : WritesPoly rd i) (h : transformInPlace f rd s = .next t) : CommandEnd s i t := by
  rcases transformInPlace_cases f rd s with ⟨a, -, e⟩ | ⟨-, e⟩ <;> cases e.symm.trans h
  · exact .register rd _ hi
  · exact .raised i _

theorem commandEnd_of_canonicalBinary {f : List Nat → List Nat → List Nat} {rd rs1 rs2 : PReg} {i : Instr} {s t : State}
    (hi : WritesPoly rd i) (h : canonicalBinary f rd rs1 rs2 s = .next t) : CommandEnd s i t := by
  rcases canonicalBinary_cases f rd rs1 rs2 s with ⟨a, b, -, -, e⟩ | ⟨-, e⟩ <;> cases e.symm.trans h
  · exact .register rd _ hi
  · exact .raised i _

/-- Everything `FCTR` can do. -/
theorem execFctr_cases (s : State) :
    (s.a.toNat < Config.q ∧ execFctr s = .next (complete { s with r := BitVec.ofInt 16 (center s.a.toNat) })) ∨
      (Config.q ≤ s.a.toNat ∧ execFctr s = .next (raise .operandRange s)) := by
  unfold execFctr
  rcases canonicalScalar_cases s.a with ⟨ha, e⟩ | ⟨ha, e⟩ <;> simp [e, ha]

/-- Everything `FCAN` can do. -/
theorem execFcan_cases (s : State) :
    (-(Config.q : Int) < s.a.toInt ∧ s.a.toInt < Config.q ∧
        execFcan s = .next (complete { s with r := BitVec.ofNat 16 (canon s.a.toInt) })) ∨
      ((s.a.toInt ≤ -(Config.q : Int) ∨ (Config.q : Int) ≤ s.a.toInt) ∧
        execFcan s = .next (raise .operandRange s)) := by
  unfold execFcan
  rcases signedScalar_cases s.a with ⟨h1, h2, e⟩ | ⟨ho, e⟩
  · exact .inl ⟨h1, h2, by rw [e]⟩
  · exact .inr ⟨ho, by rw [e]⟩

theorem commandEnd_of_execFctr {s t : State} (h : execFctr s = .next t) : CommandEnd s .fctr t := by
  rcases execFctr_cases s with ⟨-, e⟩ | ⟨-, e⟩ <;> cases e.symm.trans h
  · exact .scalar _ (by simp)
  · exact .raised _ _

theorem commandEnd_of_execFcan {s t : State} (h : execFcan s = .next t) : CommandEnd s .fcan t := by
  rcases execFcan_cases s with ⟨-, -, e⟩ | ⟨-, e⟩ <;> cases e.symm.trans h
  · exact .scalar _ (by simp)
  · exact .raised _ _

theorem commandEnd_of_execPctr {rd rs1 : PReg} {s t : State} (h : execPctr rd rs1 s = .next t) :
    CommandEnd s (.pctr rd rs1) t := by
  rcases execPctr_cases rd rs1 s with ⟨a, -, e⟩ | ⟨-, e⟩ <;> cases e.symm.trans h
  · exact .register rd _ (by simp [WritesPoly])
  · exact .raised _ _

theorem commandEnd_of_execPcan {rd rs1 : PReg} {s t : State} (h : execPcan rd rs1 s = .next t) :
    CommandEnd s (.pcan rd rs1) t := by
  rcases execPcan_cases rd rs1 s with ⟨v, -, e⟩ | ⟨-, e⟩ <;> cases e.symm.trans h
  · exact .register rd _ (by simp [WritesPoly])
  · exact .raised _ _

theorem commandEnd_of_execShabs {sel : Fin 4} {s t : State} (h : execShabs sel s = .next t) :
    CommandEnd s (.shabs sel) t := by
  rcases execShabs_cases sel s with
    ⟨-, e⟩ | ⟨-, -, e⟩ | ⟨-, -, -, e⟩ | ⟨-, -, sp, k, -, -, ⟨l, -, e⟩ | ⟨-, e⟩⟩ <;> cases e.symm.trans h
  · exact .raised _ _
  · exact .raised _ _
  · exact .raised _ _
  · exact .absorbed sel _

theorem commandEnd_of_execShfin {s t : State} (h : execShfin s = .next t) : CommandEnd s .shfin t := by
  rcases execShfin_cases s with ⟨-, e⟩ | ⟨-, e⟩ <;> cases e.symm.trans h
  · exact .raised _ _
  · exact .finished _ _

theorem commandEnd_of_execShsqz {s t : State} (h : execShsqz s = .next t) : CommandEnd s .shsqz t := by
  rcases execShsqz_cases s with ⟨-, e⟩ | ⟨-, e⟩ <;> cases e.symm.trans h
  · exact .raised _ _
  · exact .squeezed _ _

theorem commandEnd_of_execH2p {rd : PReg} {s t : State} (h : execH2p rd s = .next t) : CommandEnd s (.h2p rd) t := by
  rcases execH2p_cases rd s with ⟨-, e⟩ | ⟨-, -, e⟩ | ⟨-, c, sp, -, e⟩ <;> cases e.symm.trans h
  · exact .raised _ _
  · exact .sampled rd _ sp

theorem commandEnd_of_execPkdec {rd : PReg} {s t : State} (h : execPkdec rd s = .next t) :
    CommandEnd s (.pkdec rd) t := by
  rcases execPkdec_cases rd s with ⟨-, e⟩ | ⟨l, -, ⟨k, -, e⟩ | ⟨f, -, e⟩⟩ <;> cases e.symm.trans h
  · exact .raised _ k
  · exact .register rd _ (by simp [WritesPoly])

theorem commandEnd_of_execSigdec {rd : PReg} {s t : State} (h : execSigdec rd s = .next t) :
    CommandEnd s (.sigdec rd) t := by
  rcases execSigdec_cases rd s with ⟨-, e⟩ | ⟨l, -, ⟨k, p, -, e⟩ | ⟨d, -, e⟩⟩ <;> cases e.symm.trans h
  · exact .malformed rd k p
  · exact .decoded rd _ d.pos _

theorem commandEnd_of_execNorm {rs1 rs2 : PReg} {s t : State} (h : execNorm rs1 rs2 s = .next t) :
    CommandEnd s (.norm rs1 rs2) t := by
  rcases execNorm_cases rs1 rs2 s with ⟨u, v, -, -, e⟩ | ⟨-, e⟩
  · rw [normResult] at e
    split at e <;> cases e.symm.trans h
    · exact .normAccepted rs1 rs2 _
    · exact .normRejected rs1 rs2 _
  · cases e.symm.trans h
    exact .normOutOfRange rs1 rs2

/-- Everything a command other than `VERIFY` can do. -/
theorem commandEnd_of_exec {i : Instr} {s t : State} (hi : i ≠ .verify) (h : exec i s = .next t) : CommandEnd s i t := by
  cases i with
  | fadd => exact commandEnd_of_fieldBinary (by simp) h
  | fsub => exact commandEnd_of_fieldBinary (by simp) h
  | fmul => exact commandEnd_of_fieldBinary (by simp) h
  | fctr => exact commandEnd_of_execFctr h
  | fcan => exact commandEnd_of_execFcan h
  | nttf rd => exact commandEnd_of_transformInPlace (rd := rd) (by simp [WritesPoly]) h
  | ntti rd => exact commandEnd_of_transformInPlace (rd := rd) (by simp [WritesPoly]) h
  | nttmul rd rs1 rs2 => exact commandEnd_of_canonicalBinary (rd := rd) (by simp [WritesPoly]) h
  | pmul rd rs1 rs2 => exact commandEnd_of_canonicalBinary (rd := rd) (by simp [WritesPoly]) h
  | psub rd rs1 rs2 => exact commandEnd_of_canonicalBinary (rd := rd) (by simp [WritesPoly]) h
  | pctr rd rs1 => exact commandEnd_of_execPctr h
  | pcan rd rs1 => exact commandEnd_of_execPcan h
  | kecf =>
    cases h
    exact .permuted _
  | shinit =>
    cases h
    exact .initialised _ _
  | shabs sel => exact commandEnd_of_execShabs h
  | shfin => exact commandEnd_of_execShfin h
  | shsqz => exact commandEnd_of_execShsqz h
  | h2p rd => exact commandEnd_of_execH2p h
  | pkdec rd => exact commandEnd_of_execPkdec h
  | sigdec rd => exact commandEnd_of_execSigdec h
  | norm rs1 rs2 => exact commandEnd_of_execNorm h
  | verify => exact absurd rfl hi

/-! ### The host's inputs -/

/-- The locations that the host writes and no command does (10_state.md R42), and the model's own fields. -/
def State.hostInputs (s : State) :=
  (s.a, s.b, s.pkbuf, s.sigbuf, s.msgbuf, s.pklen, s.siglen, s.mlen, s.msgMax, s.moves, s.returned)

theorem CommandEnd.hostInputs {i : Instr} {s t : State} (h : CommandEnd s i t) : t.hostInputs = s.hostInputs := by
  cases h <;> rfl

/-- What setting `PHASE`, clearing `ACCEPT` and each of the lines keep, a sequence of lines keeps. -/
theorem runLines_keeps {α : Type} {f : State → α} {lines : List (Fin 7 × (State → Result))} {s t : State}
    (hphase : ∀ k u, f (setPhase k u) = f u) (haccept : ∀ u, f (setAccept false u) = f u)
    (hlines : ∀ l ∈ lines, ∀ u v, l.2 u = .next v → f v = f u) (h : runLines lines s = .next t) : f t = f s := by
  induction lines generalizing s with
  | nil =>
    cases h
    exact hphase 6 s
  | cons l rest ih =>
    obtain ⟨k, line⟩ := l
    obtain ⟨u, hu, hend⟩ := runLines_cons_next k line rest s t h
    have hline : f u = f s := (hlines (k, line) (by simp) _ u hu).trans (hphase k s)
    rcases hend with ⟨-, hrest⟩ | ⟨-, rfl⟩
    · exact (ih (fun l hl => hlines l (by simp [hl])) hrest).trans hline
    · exact (haccept u).trans hline

/-- The commands of the lines of `VERIFY` (47_verify_orchestrator.md R222). -/
def verifyCommands : List (Fin 7 × Instr) :=
  [(1, .pkdec regH), (2, .sigdec regS2),
   (3, .shinit), (3, .shabs 0), (3, .shabs 1), (3, .shfin), (3, .h2p regC),
   (4, .pcan regT regS2), (4, .nttmul regT regT regH), (4, .psub regT regC regT), (4, .pctr regT regT),
   (5, .norm regT regS2)]

theorem verifyLines_eq : verifyLines = verifyCommands.map fun c => (c.1, exec c.2) := rfl

/-- What setting `PHASE`, clearing `ACCEPT` and the commands of its lines keep, `VERIFY` keeps. -/
theorem execVerify_keeps {α : Type} {f : State → α} {s t : State}
    (hphase : ∀ k u, f (setPhase k u) = f u) (haccept : ∀ u, f (setAccept false u) = f u)
    (hcommands : ∀ c ∈ verifyCommands, ∀ u v, CommandEnd u c.2 v → f v = f u) (h : execVerify s = .next t) :
    f t = f s := by
  have noVerify : ∀ c ∈ verifyCommands, c.2 ≠ .verify := by decide
  rw [execVerify, verifyLines_eq] at h
  refine runLines_keeps hphase haccept (List.forall_mem_map.mpr fun c hc u v huv => ?_) h
  exact hcommands c hc u v (commandEnd_of_exec (noVerify c hc) huv)

/-- No command writes the host's inputs. -/
theorem exec_hostInputs {i : Instr} {s t : State} (h : exec i s = .next t) : t.hostInputs = s.hostInputs := by
  by_cases hi : i = .verify
  · subst hi
    exact execVerify_keeps (fun _ _ => rfl) (fun _ => rfl) (fun _ _ _ _ hend => hend.hostInputs) h
  · exact (commandEnd_of_exec hi h).hostInputs

/-! ### Which commands write each other location -/

section
variable {i : Instr} {s t : State} (h : CommandEnd s i t)
include h

theorem CommandEnd.writes_r (hr : t.r ≠ s.r) :
    i = .fadd ∨ i = .fsub ∨ i = .fmul ∨ i = .fctr ∨ i = .fcan ∨ i = .shsqz := by
  cases h with
  | scalar v hi => tauto
  | squeezed sp v => simp
  | _ => exact absurd rfl hr

theorem CommandEnd.writes_salt (hs : t.salt ≠ s.salt) : ∃ rd, i = .sigdec rd := by
  cases h with
  | decoded rd v p m => exact ⟨rd, rfl⟩
  | _ => exact absurd rfl hs

theorem CommandEnd.writes_cursor (hc : t.byteix ≠ s.byteix ∨ t.bitoff ≠ s.bitoff) : ∃ rd, i = .sigdec rd := by
  cases h with
  | malformed rd e p => exact ⟨rd, rfl⟩
  | decoded rd v p m => exact ⟨rd, rfl⟩
  | _ => exact absurd hc (not_or.mpr ⟨not_not.mpr rfl, not_not.mpr rfl⟩)

theorem CommandEnd.writes_kcur (hk : t.kcur ≠ s.kcur) :
    i = .shinit ∨ (∃ sel, i = .shabs sel) ∨ i = .shfin ∨ i = .shsqz ∨ ∃ rd, i = .h2p rd := by
  cases h with
  | initialised sp m => simp
  | absorbed sel sp => simp
  | finished sp m => simp
  | squeezed sp v => simp
  | sampled rd v sp => simp
  | _ => exact absurd rfl hk

theorem CommandEnd.writes_ks (hk : t.ks ≠ s.ks) :
    i = .kecf ∨ i = .shinit ∨ (∃ sel, i = .shabs sel) ∨ i = .shfin ∨ i = .shsqz ∨ ∃ rd, i = .h2p rd := by
  cases h with
  | permuted v => simp
  | initialised sp m => simp
  | absorbed sel sp => simp
  | finished sp m => simp
  | squeezed sp v => simp
  | sampled rd v sp => simp
  | _ => exact absurd rfl hk

theorem CommandEnd.writes_kmode (hk : t.kmode ≠ s.kmode) : i = .shinit ∨ i = .shfin := by
  cases h with
  | initialised sp m => exact .inl rfl
  | finished sp m => exact .inr rfl
  | _ => exact absurd rfl hk

theorem CommandEnd.writes_norm (hn : t.accept ≠ s.accept ∨ t.normsq ≠ s.normsq) : ∃ rs1 rs2, i = .norm rs1 rs2 := by
  cases h with
  | normOutOfRange rs1 rs2 => exact ⟨rs1, rs2, rfl⟩
  | normAccepted rs1 rs2 n => exact ⟨rs1, rs2, rfl⟩
  | normRejected rs1 rs2 n => exact ⟨rs1, rs2, rfl⟩
  | _ => exact absurd hn (not_or.mpr ⟨not_not.mpr rfl, not_not.mpr rfl⟩)

theorem CommandEnd.phase : t.phase = s.phase := by
  cases h <;> rfl

end

/-- `VERIFY` has no line that writes `R`. -/
theorem execVerify_r {s t : State} (h : execVerify s = .next t) : t.r = s.r := by
  have noWriter : ∀ c ∈ verifyCommands,
      ¬(c.2 = .fadd ∨ c.2 = .fsub ∨ c.2 = .fmul ∨ c.2 = .fctr ∨ c.2 = .fcan ∨ c.2 = .shsqz) := by decide
  refine execVerify_keeps (f := State.r) (fun _ _ => rfl) (fun _ => rfl) (fun c hc u v hend => ?_) h
  by_contra hr
  exact noWriter c hc (hend.writes_r hr)

/-- A register whose lanes or marks a write of register `rd` changed is `rd`. -/
theorem eq_of_writePoly_changes {s : State} {rd k : PReg} {v : Poly}
    (hk : (writePoly rd v s).poly k ≠ s.poly k ∨ (writePoly rd v s).pWritten[k] ≠ s.pWritten[k]) : k = rd := by
  by_contra hne
  have hv : (rd : Nat) ≠ k := fun e => hne (Fin.ext e.symm)
  rcases hk with hp | hm
  · exact hp (poly_writePoly_other s rd k v hne)
  · exact hm (by simp [hv])

theorem CommandEnd.writes_poly {i : Instr} {s t : State} {k : PReg} (h : CommandEnd s i t)
    (hk : t.poly k ≠ s.poly k ∨ t.pWritten[k] ≠ s.pWritten[k]) : WritesPoly k i := by
  cases h with
  | register rd v hi => exact (eq_of_writePoly_changes hk : k = rd) ▸ hi
  | sampled rd v sp =>
    have e : k = rd := eq_of_writePoly_changes (s := s.setSponge sp) hk
    simp [WritesPoly, e]
  | decoded rd v p m =>
    have e : k = rd := eq_of_writePoly_changes (s := { setCursor p s with salt := m }) hk
    simp [WritesPoly, e]
  | _ => exact absurd hk (not_or.mpr ⟨not_not.mpr rfl, not_not.mpr rfl⟩)

/-- Settles O54: the host's inputs by the lines of `VERIFY`, each other location by the ways a command can end. -/
theorem commandsWriteOnlyTheirLocations : Obligations.CommandsWriteOnlyTheirLocations := by
  intro i s t h
  have inputs := exec_hostInputs h
  simp only [State.hostInputs, Prod.mk.injEq] at inputs
  obtain ⟨ha, hb, hpk, hsig, hmsg, hpklen, hsiglen, hmlen, hmax, hmoves, hret⟩ := inputs
  refine ⟨ha, hb, hpk, hsig, hmsg, hpklen, hsiglen, hmlen, hmax, hmoves, hret, ?_⟩
  by_cases hi : i = .verify
  · subst hi
    have hr : t.r = s.r := execVerify_r h
    simp [hr, WritesPoly]
  · have hend := commandEnd_of_exec hi h
    refine ⟨hend.writes_r, fun k => hend.writes_poly, fun hs => .inr (hend.writes_salt hs),
      fun hc => .inr (hend.writes_cursor hc), fun hk => ?_, fun hk => ?_, fun hk => ?_,
      fun hn => .inr (hend.writes_norm hn), fun hp => absurd hend.phase hp⟩
    · simpa only [or_assoc] using Or.inl (b := i = .verify) (hend.writes_ks hk)
    · simpa only [or_assoc] using Or.inl (b := i = .verify) (hend.writes_kcur hk)
    · simpa only [or_assoc] using Or.inl (b := i = .verify) (hend.writes_kmode hk)

/-! ### The state after reset -/

/-- Settles O13: each scalar by evaluation; the lanes, the spaces and the marks by what an empty one reads as. -/
theorem resetValues : Obligations.ResetValues := by
  refine ⟨rfl, ?_⟩
  rintro m s rfl
  have hks : ∀ j < 25, lane (State.resetFor m).ks j = 0 := fun j hj => by
    rw [lane_eq_getElem _ j hj]
    exact Vector.getElem_replicate hj
  have hspaces : ∀ sp i, Memory.read ((State.resetFor m).space sp) i = none := fun sp i => by cases sp <;> rfl
  have hmarks : ∀ (k : PReg) (i : Nat) (h : i < 512), ((State.resetFor m).pWritten[k])[i] = false := fun k i h => by
    simp [State.resetFor]
  exact ⟨rfl, rfl, rfl, rfl, rfl, rfl, hks, rfl, rfl, rfl, rfl, rfl, rfl, rfl, rfl, rfl, rfl, hspaces, hmarks, rfl⟩

/-- A declared key length other than 897 ends `PKDEC` before it reads a byte (45_codec.md R182). -/
theorem execPkdec_of_badLength (rd : PReg) (s : State) (h : s.pklen.toNat ≠ 897) :
    execPkdec rd s = .next (raise .badLength s) := by
  simp [execPkdec, readDeclared, decodePk, h]

/-- Such a length ends `VERIFY` in step 1 (47_verify_orchestrator.md R224). -/
theorem execVerify_of_badLength (s : State) (h : s.pklen.toNat ≠ 897) :
    execVerify s = .next (setAccept false (raise .badLength (setPhase 1 s))) :=
  runLines_stops 1 (execPkdec regH) _ s _ (execPkdec_of_badLength regH (setPhase 1 s) h) nofun

/-- Settles O14: `PKLEN` is 0 after reset. -/
theorem verifyRightAfterReset : Obligations.VerifyRightAfterReset := by
  intro m
  refine ⟨rfl, rfl, rfl, ?_⟩
  have hdecode : decode 0x0070 = .ok .verify := by decide
  calc step ((State.resetFor m).withFetchWord 16 0x0070)
    _ = runWord 0x0070 (State.resetFor m) := step_move _ (.cmd 0x0070) [] rfl
    _ = execVerify (acceptCommand (State.resetFor m)) := by
      rw [runWord, hdecode]
      rfl
    _ = _ := execVerify_of_badLength _ (by simp [State.resetFor])

/-- Settles O58: nothing is written, and every number is 0. -/
theorem resetStateIsSafe : Obligations.ResetStateIsSafe := fun m =>
  { pkbuf := rfl
    sigbuf := rfl
    msgbuf := rfl
    salt := rfl
    cursor := fun _ => by simp [State.resetFor]
    idle := rfl
    position := by simp [State.resetFor]
    norm := by simp [State.resetFor]
    accepted := nofun
    phase := by simp [State.resetFor] }

end Sys2Proof.Machine

/-! PROOFS. The byte view of the sponge state (20_memory.md R55), and the host's writes and reads of an idle core and of a
busy one (R58, R59, R60; 70_reset_and_hazards.md R262, R266). -/

namespace Sys2Proof.Machine

open Sys2Proof.Cert

/-! ### State bytes -/

/-- Bit `b` of state byte `k` (20_memory.md R55). -/
theorem getLsbD_stateByte (v : Lanes) (k : Nat) {b : Nat} (hb : b < 8) :
    (stateByte v k).getLsbD b = (lane v (k / 8)).getLsbD (8 * (k % 8) + b) := by
  simp [stateByte, hb]

/-- The bits that exclusive-or of `x` into state byte `k` flips are those of that byte. -/
theorem getLsbD_byteMask (x : Byte) (k j : Nat) {b : Nat} (hb : b < 8) (hkj : j / 8 = k / 8) :
    (x.setWidth 64 <<< (8 * (k % 8))).getLsbD (8 * (j % 8) + b) = if j = k then x.getLsbD b else false := by
  have hbit : 8 * (j % 8) + b < 64 := by omega
  split
  case isTrue hjk =>
    subst hjk
    simp [hbit]
  case isFalse hjk =>
    rcases Nat.lt_or_ge (j % 8) (k % 8) with hlt | hge
    · simp [show 8 * (j % 8) + b < 8 * (k % 8) by omega]
    · have hout : x.getLsbD (8 * (j % 8) + b - 8 * (k % 8)) = false := BitVec.getLsbD_of_ge _ _ (by omega)
      simp [hout]

/-- Settles O34: bit by bit; a byte of the same lane lies before or after the byte that is changed. -/
theorem stateByteView : Obligations.StateByteView := by
  refine fun v k hk => ⟨fun b hb => getLsbD_stateByte v k hb, fun x j hj => BitVec.eq_of_getLsbD_eq fun b hb => ?_⟩
  rw [getLsbD_stateByte _ _ hb, lane_xorStateByte v k x (j / 8) (by omega)]
  by_cases hlane : j / 8 = k / 8
  · rw [if_pos hlane, BitVec.getLsbD_xor, getLsbD_byteMask x k j hb hlane, ← getLsbD_stateByte v j hb]
    split
    case isTrue hjk => rw [hjk, BitVec.getLsbD_xor]
    case isFalse => rw [Bool.xor_false]
  · have hjk : j ≠ k := fun e => hlane (e ▸ rfl)
    rw [if_neg hlane, if_neg hjk, getLsbD_stateByte v j hb]

/-! ### Host moves of a step -/

/-- A step with a write to make, while the core is idle. -/
theorem step_write {s : State} {loc : Loc} {v : Word64} {rest : List HostMove} (h : s.moves = .write loc v :: rest)
    (hidle : s.busy = false) : step s = hostWrite loc v { s with moves := rest } := by
  rw [step_move s _ rest h]
  exact if_neg (by simp [hidle])

/-- A step with a read to make, while the core is idle or of `ST`. -/
theorem step_read {s : State} {loc : Loc} {rest : List HostMove} (h : s.moves = .read loc :: rest)
    (hidle : s.busy = false ∨ loc = .st) : step s = hostRead loc { s with moves := rest } := by
  rw [step_move s _ rest h]
  exact if_neg (by rcases hidle with hidle | rfl <;> simp [*])

/-- A step with a write to make, while the core is busy (70_reset_and_hazards.md R266). -/
theorem step_write_of_busy {s : State} {loc : Loc} {v : Word64} {rest : List HostMove}
    (h : s.moves = .write loc v :: rest) (hbusy : s.busy = true) : step s = .refused .hostMoveWhileBusy := by
  rw [step_move s _ rest h]
  exact if_pos hbusy

/-- A step with a read to make of anything but `ST`, while the core is busy (70_reset_and_hazards.md R266). -/
theorem step_read_of_busy {s : State} {loc : Loc} {rest : List HostMove} (h : s.moves = .read loc :: rest)
    (hbusy : s.busy = true) (hloc : loc ≠ .st) : step s = .refused .hostMoveWhileBusy := by
  rw [step_move s _ rest h]
  exact if_pos (by simp [hbusy, hloc])

/-! ### What an indexed access answers -/

theorem hostWrite_lane {k : PReg} {i : Nat} (v : Word64) (s : State) (h : i < 512) :
    hostWrite (.p k i) v s = .next (writeLane k ⟨i, h⟩ (v.setWidth 16) s) := dif_pos h

theorem hostWrite_sponge {j : Nat} (v : Word64) (s : State) (h : j < 25) :
    hostWrite (.ks j) v s = .next { s with ks := s.ks.set j v } := dif_pos h

theorem hostWrite_byte {sp : ByteSpace} {i : Nat} (v : Word64) (s : State) (h : i < s.spaceSize sp) :
    hostWrite (.byte sp i) v s = .next (s.setSpace sp (Memory.write (s.space sp) i (v.setWidth 8))) := if_pos h

theorem hostRead_lane {k : PReg} {i : Nat} (s : State) (h : i < 512) :
    hostRead (.p k i) s = deliver ((s.poly k)[i].setWidth 64) s := dif_pos h

theorem hostRead_sponge {j : Nat} (s : State) (h : j < 25) : hostRead (.ks j) s = deliver s.ks[j] s := dif_pos h

theorem hostRead_byte {sp : ByteSpace} {i : Nat} (s : State) (h : i < s.spaceSize sp) :
    hostRead (.byte sp i) s = ((Memory.read (s.space sp) i).elim (.refused (.neverWritten sp))
      fun b => deliver (b.setWidth 64) s) := by
  rw [hostRead, hostReadByte, if_pos h]
  cases Memory.read (s.space sp) i <;> rfl

/-! ### The spaces and their sizes do not depend on the moves -/

@[simp] theorem space_moves (s : State) (ms : List HostMove) (sp : ByteSpace) :
    ({ s with moves := ms } : State).space sp = s.space sp := by
  cases sp <;> rfl

@[simp] theorem spaceSize_moves (s : State) (ms : List HostMove) (sp : ByteSpace) :
    ({ s with moves := ms } : State).spaceSize sp = s.spaceSize sp := by
  cases sp <;> rfl

/-- Settles O9: by what `hostWrite` answers at each location. -/
theorem hostWriteStoresTheLowBits : Obligations.HostWriteStoresTheLowBits := by
  intro s v rest loc hm hidle
  have e : ∀ l, loc = l → step s = hostWrite l v { s with moves := rest } := fun l hl => hl ▸ step_write hm hidle
  have readOnly : ∀ l ∈ [Loc.r, .kcur, .kmode, .byteix, .bitoff, .normsq, .st, .accept, .err, .phase],
      ∀ u, hostWrite l v u = .next u := by simp [hostWrite]
  refine ⟨e .a, e .b, e .pklen, e .siglen, e .mlen, fun k i h hl => (e _ hl).trans (hostWrite_lane v _ h),
    fun j h hl => (e _ hl).trans (hostWrite_sponge v _ h), fun sp i hl h => ?_,
    fun hl => (e loc rfl).trans (readOnly loc hl _)⟩
  have hw := hostWrite_byte v { s with moves := rest } (h.trans_eq (spaceSize_moves s rest sp).symm)
  rw [space_moves] at hw
  exact ⟨_, (e _ hl).trans hw, read_write_same _ i _, fun j hj => read_write_other _ i j _ hj⟩

theorem errorKind_code_eq (k : ErrorKind) : k.code = codeOf k := by
  cases k <;> rfl

theorem spongeMode_value_eq (m : SpongeMode) : m.value = if m = .squeezing then 1 else 0 := by
  cases m <;> rfl

/-- The scalar and status locations with the numbers the host reads (20_memory.md R59). -/
def scalarValues (s : State) : List (Loc × Nat) :=
  [(Loc.a, s.a.toNat), (.b, s.b.toNat), (.r, s.r.toNat), (.pklen, s.pklen.toNat),
    (.siglen, s.siglen.toNat), (.mlen, s.mlen.toNat), (.kcur, s.kcur.val),
    (.kmode, if s.kmode = .squeezing then 1 else 0), (.byteix, s.byteix.toNat), (.bitoff, s.bitoff.toNat),
    (.normsq, s.normsq.toNat), (.st, if s.done then 2 else 0), (.accept, if s.accept then 1 else 0),
    (.err, codeOf s.err), (.phase, s.phase.val)]

theorem hostRead_scalar (s : State) (hidle : s.busy = false) :
    ∀ lv ∈ scalarValues s, hostRead lv.1 s = deliver (BitVec.ofNat 64 lv.2) s := by
  simp [scalarValues, hostRead, statusValue, flagValue, hidle, errorKind_code_eq, spongeMode_value_eq]

/-- Settles O10: by what `hostRead` answers at each location. -/
theorem hostReadReturnsAndChangesNothing : Obligations.HostReadReturnsAndChangesNothing := by
  intro s rest loc hm hidle
  have e : ∀ l, loc = l → step s = hostRead l { s with moves := rest } := fun l hl =>
    hl ▸ step_read hm (.inl hidle)
  refine ⟨fun v hv => (e loc rfl).trans (hostRead_scalar { s with moves := rest } hidle (loc, v) hv),
    fun k i h hl => (e _ hl).trans (hostRead_lane _ h), fun j h hl => (e _ hl).trans (hostRead_sponge _ h),
    fun sp i b hl h hb => ?_⟩
  have hr := hostRead_byte { s with moves := rest } (h.trans_eq (spaceSize_moves s rest sp).symm)
  rw [space_moves, hb] at hr
  exact (e _ hl).trans hr

/-! ### Where a host access stops -/

/-- The location has an index outside its space (20_memory.md R58). -/
def Outside (s : State) : Loc → Prop
  | .byte sp i => s.spaceSize sp ≤ i
  | .p _ i => 512 ≤ i
  | .ks j => 25 ≤ j
  | _ => False

theorem hostWrite_outside {loc : Loc} {s : State} (v : Word64) (h : Outside s loc) :
    hostWrite loc v s = .refused .indexOutOfRange := by
  cases loc with
  | byte sp i => exact if_neg (Nat.not_lt.mpr h)
  | p k i => exact dif_neg (Nat.not_lt.mpr h)
  | ks j => exact dif_neg (Nat.not_lt.mpr h)
  | _ => exact h.elim

theorem hostRead_outside {loc : Loc} {s : State} (h : Outside s loc) :
    hostRead loc s = .refused .indexOutOfRange := by
  cases loc with
  | byte sp i => exact if_neg (Nat.not_lt.mpr h)
  | p k i => exact dif_neg (Nat.not_lt.mpr h)
  | ks j => exact dif_neg (Nat.not_lt.mpr h)
  | _ => exact h.elim

/-- An idle core refuses both accesses to a location outside its space. -/
theorem step_outside {s : State} {loc : Loc} (v : Word64) (rest : List HostMove) (hidle : s.busy = false)
    (h : Outside { s with moves := rest } loc) :
    (s.moves = .write loc v :: rest → step s = .refused .indexOutOfRange) ∧
      (s.moves = .read loc :: rest → step s = .refused .indexOutOfRange) :=
  ⟨fun hm => (step_write hm hidle).trans (hostWrite_outside v h),
    fun hm => (step_read hm (.inl hidle)).trans (hostRead_outside h)⟩

/-- The status of a busy core as the host reads it (10_state.md R32). -/
theorem statusValue_of_busy {s : State} (h : s.busy = true) : statusValue s = if s.done then 3 else 1 := by
  cases hd : s.done <;> simp [statusValue, flagValue, h, hd]

/-- Settles O11: an index outside the space, a byte never written, and the moves of a busy core. -/
theorem hostAccessStops : Obligations.HostAccessStops := by
  refine fun s rest v sp k i => ⟨fun hidle h => step_outside v rest hidle ?_,
    fun hidle h => step_outside v rest hidle h, fun hidle h => step_outside v rest hidle h,
    fun hidle h hnone hm => ?_,
    fun hbusy loc => ⟨fun hm => step_write_of_busy hm hbusy, fun hloc hm => step_read_of_busy hm hbusy hloc, ?_⟩⟩
  · exact (spaceSize_moves s rest sp).trans_le h
  · have hr := hostRead_byte { s with moves := rest } (h.trans_eq (spaceSize_moves s rest sp).symm)
    rw [space_moves, hnone] at hr
    exact (step_read hm (.inl hidle)).trans hr
  · rintro rfl hm
    rw [step_read hm (.inr rfl), ← statusValue_of_busy hbusy]
    rfl

end Sys2Proof.Machine

/-! PROOFS. What every step keeps: the part of `Safety.Inv` that holds inside a command too, that no `VERIFY` stops in its
step 4, and what a host move does. -/

namespace Sys2Proof.Machine

open Sys2Proof.Cert

/-! ### The invariant inside a command -/

/-- What `Safety.Inv` says of the data: all of it but `ST.busy` and `PHASE`, which move inside a command. -/
structure DataInv (s : State) : Prop where
  pkbuf : Memory.wf Config.pkLen s.pkbuf = true
  sigbuf : Memory.wf Config.sigLen s.sigbuf = true
  msgbuf : Memory.wf s.msgMax s.msgbuf = true
  salt : Memory.wf Config.saltLen s.salt = true
  cursor : s.kmode = .absorbing → s.kcur.val < Config.rate
  position : 8 * s.byteix.toNat + s.bitoff.toNat ≤ Config.sigEndBit
  norm : s.normsq.toNat ≤ Config.normMax
  accepted : s.accept = true → s.normsq.toNat ≤ 34034726

theorem inv_iff (s : State) : Safety.Inv s ↔ DataInv s ∧ s.busy = false ∧ s.phase ≠ 4 :=
  ⟨fun inv => ⟨{ inv with }, inv.idle, inv.phase⟩, fun ⟨inv, idle, phase⟩ => { inv with idle, phase }⟩

theorem DataInv.setPhase {s : State} (inv : DataInv s) (k : Fin 7) : DataInv (setPhase k s) := { inv with }

theorem DataInv.clearAccept {s : State} (inv : DataInv s) : DataInv (setAccept false s) := { inv with accepted := nofun }

/-! ### The commands that write the data -/

theorem execShinit_keeps_dataInv {s t : State} (h : execShinit s = .next t) (inv : DataInv s) : DataInv t := by
  cases h
  exact { inv with cursor := fun _ => Nat.zero_lt_succ _ }

theorem execShabs_keeps_dataInv {sel : Fin 4} {s t : State} (h : execShabs sel s = .next t) (inv : DataInv s) :
    DataInv t := by
  rcases execShabs_cases sel s with
    ⟨-, e⟩ | ⟨-, -, e⟩ | ⟨-, -, -, e⟩ | ⟨habs, -, sp, k, -, -, ⟨l, -, e⟩ | ⟨-, e⟩⟩ <;> cases e.symm.trans h
  · exact { inv with }
  · exact { inv with }
  · exact { inv with }
  · exact { inv with cursor := fun _ => absorb_cur_lt s.sponge l (inv.cursor habs) }

theorem execShfin_keeps_dataInv {s t : State} (h : execShfin s = .next t) (inv : DataInv s) : DataInv t := by
  rcases execShfin_cases s with ⟨-, e⟩ | ⟨-, e⟩ <;> cases e.symm.trans h
  · exact { inv with }
  · exact { inv with cursor := nofun }

theorem execShsqz_keeps_dataInv {s t : State} (h : execShsqz s = .next t) (inv : DataInv s) : DataInv t := by
  rcases execShsqz_cases s with ⟨-, e⟩ | ⟨hsqz, e⟩ <;> cases e.symm.trans h
  · exact { inv with }
  · exact { inv with cursor := fun habs => nomatch hsqz.symm.trans habs }

theorem execH2p_keeps_dataInv {rd : PReg} {s t : State} (h : execH2p rd s = .next t) (inv : DataInv s) : DataInv t := by
  rcases execH2p_cases rd s with ⟨-, e⟩ | ⟨-, -, e⟩ | ⟨hsqz, c, sp, -, e⟩ <;> cases e.symm.trans h
  · exact { inv with }
  · exact { inv with cursor := fun habs => nomatch hsqz.symm.trans habs }

/-- The cursor registers hold every position of the signature buffer (45_codec.md R196). -/
theorem setCursor_position (s : State) (p : Nat) (h : p ≤ 5328) :
    8 * (setCursor p s).byteix.toNat + (setCursor p s).bitoff.toNat = p := by
  simp only [setCursor, BitVec.toNat_ofNat]
  omega

/-- The bytes `SIGDEC` reads are those of the whole buffer where the length is right. -/
theorem length_readDeclared {m : Memory} {declared fixed : Nat} {l : List Byte}
    (h : readDeclared m declared fixed = some l) (hd : declared = fixed) : l.length = fixed := by
  rw [readDeclared, if_pos hd] at h
  exact length_memRead m fixed l h

/-- Everything `SIGDEC` can answer: an error and a position inside the buffer, or a signature in range. -/
theorem execSigdec_next {rd : PReg} {s t : State} (h : execSigdec rd s = .next t) :
    (∃ k p, k ≠ .ok ∧ p ≤ 5328 ∧ t = raise k (setCursor p s)) ∨
      ∃ d : DecodedSig, d.salt.length = 40 ∧ d.s2.length = 512 ∧ (∀ v ∈ d.s2, v.natAbs ≤ 2047) ∧ d.pos ≤ 5328 ∧
        t = complete (writePoly rd (polyOfInts d.s2) { setCursor d.pos s with salt := memWrite s.salt 0 d.salt }) := by
  rcases execSigdec_cases rd s with ⟨-, e⟩ | ⟨l, hl, hdec⟩
  · cases e.symm.trans h
  · have answers := decodeSig_cases params s.siglen.toNat l (length_readDeclared hl)
    rcases hdec with ⟨k, p, hd, e⟩ | ⟨d, hd, e⟩ <;> cases e.symm.trans h <;> rw [hd] at answers
    · obtain ⟨_, ⟨⟩, -⟩ | ⟨_, _, ⟨⟩, hpos, hk⟩ := answers
      exact .inl ⟨k, p, by rintro rfl; simp at hk, hpos, rfl⟩
    · obtain ⟨_, ⟨⟩, -, -, hsalt, hlen, hshort, -, hpos⟩ | ⟨_, _, ⟨⟩, -⟩ := answers
      exact .inr ⟨d, hsalt, hlen, hshort, hpos, rfl⟩

theorem execSigdec_keeps_dataInv {rd : PReg} {s t : State} (h : execSigdec rd s = .next t) (inv : DataInv s) :
    DataInv t := by
  rcases execSigdec_next h with ⟨k, p, -, hpos, rfl⟩ | ⟨d, hsalt, -, -, hpos, rfl⟩
  · exact { inv with position := (setCursor_position s p hpos).trans_le hpos }
  · exact { inv with
      salt := memWrite_wf _ _ 0 _ (by simp [hsalt]) inv.salt
      position := (setCursor_position s d.pos hpos).trans_le hpos }

/-! ### The norm cannot wrap (46_norm_check.md R211) -/

theorem natAbs_cnorm_le {v : Int} (h1 : -6144 ≤ v) (h2 : v ≤ 12288) : (cnorm v).natAbs ≤ 6144 := by
  simp only [cnorm, Config.halfQ, Config.q]
  split <;> omega

theorem squareSum_le (l : List Int) (h : ∀ v ∈ l, -6144 ≤ v ∧ v ≤ 12288) : squareSum l ≤ l.length * 6144 ^ 2 := by
  suffices key : ∀ t, l.foldl (fun t v => t + (cnorm v).natAbs ^ 2) t ≤ t + l.length * 6144 ^ 2 by
    simpa [squareSum] using key 0
  induction l with
  | nil => simp
  | cons v rest ih =>
    intro t
    have hv : (cnorm v).natAbs ^ 2 ≤ 6144 ^ 2 :=
      Nat.pow_le_pow_left (natAbs_cnorm_le (h v (by simp)).1 (h v (by simp)).2) 2
    have hrest := ih (fun w hw => h w (by simp [hw])) (t + (cnorm v).natAbs ^ 2)
    rw [List.foldl_cons, List.length_cons]
    omega

theorem normSquare_le {x y : Poly} {u v : List Int} (hu : rangedLanes (-6144) 12288 x = some u)
    (hv : rangedLanes (-6144) 12288 y = some v) : normSquare u v ≤ Config.normMax := by
  obtain ⟨rfl, bu⟩ := (rangedLanes_eq_some _ _ _ _).mp hu
  obtain ⟨rfl, bv⟩ := (rangedLanes_eq_some _ _ _ _).mp hv
  have hx := squareSum_le _ bu
  have hy := squareSum_le _ bv
  rw [length_signedLanes] at hx hy
  simp only [normSquare, Config.normMax]
  omega

theorem normResult_keeps_dataInv {n : Nat} {s : State} (hn : n ≤ Config.normMax) (inv : DataInv s) :
    DataInv (normResult params n s) := by
  have hval : (BitVec.ofNat 64 n).toNat = n := by
    rw [BitVec.toNat_ofNat]
    simp only [Config.normMax] at hn
    omega
  rw [normResult]
  split
  case isTrue hb => exact { inv with norm := hval.trans_le hn, accepted := fun _ => hval.trans_le hb }
  case isFalse => exact { inv with norm := hval.trans_le hn, accepted := nofun }

theorem execNorm_keeps_dataInv {rs1 rs2 : PReg} {s t : State} (h : execNorm rs1 rs2 s = .next t) (inv : DataInv s) :
    DataInv t := by
  rcases execNorm_cases rs1 rs2 s with ⟨u, v, hu, hv, e⟩ | ⟨-, e⟩ <;> cases e.symm.trans h
  · exact normResult_keeps_dataInv (normSquare_le hu hv) inv
  · exact { inv with accepted := nofun }

/-- A command other than `VERIFY` keeps the data part of the invariant. -/
theorem exec_keeps_dataInv {i : Instr} {s t : State} (hi : i ≠ .verify) (h : exec i s = .next t) (inv : DataInv s) :
    DataInv t := by
  cases commandEnd_of_exec hi h with
  | raised | scalar | register | permuted => exact { inv with }
  | initialised => exact execShinit_keeps_dataInv h inv
  | absorbed => exact execShabs_keeps_dataInv h inv
  | finished => exact execShfin_keeps_dataInv h inv
  | squeezed => exact execShsqz_keeps_dataInv h inv
  | sampled => exact execH2p_keeps_dataInv h inv
  | malformed | decoded => exact execSigdec_keeps_dataInv h inv
  | normOutOfRange | normAccepted | normRejected => exact execNorm_keeps_dataInv h inv

theorem CommandEnd.idle {i : Instr} {s t : State} (h : CommandEnd s i t) : t.busy = false := by
  cases h <;> rfl

/-! ### `VERIFY` -/

/-- As `runLines_keeps`, for a property: one that setting `PHASE`, clearing `ACCEPT` and each of the lines keep holds where the
lines end. -/
theorem runLines_preserves {P : State → Prop} {lines : List (Fin 7 × (State → Result))} {s t : State}
    (hphase : ∀ k u, P u → P (setPhase k u)) (haccept : ∀ u, P u → P (setAccept false u))
    (hlines : ∀ l ∈ lines, ∀ u v, P u → l.2 u = .next v → P v) (h : runLines lines s = .next t) (hs : P s) : P t := by
  induction lines generalizing s with
  | nil =>
    cases h
    exact hphase 6 s hs
  | cons l rest ih =>
    obtain ⟨k, line⟩ := l
    obtain ⟨u, hu, hend⟩ := runLines_cons_next k line rest s t h
    have hPu : P u := hlines (k, line) (by simp) _ u (hphase k s hs) hu
    rcases hend with ⟨-, hrest⟩ | ⟨-, rfl⟩
    · exact ih (fun l hl => hlines l (by simp [hl])) hrest hPu
    · exact haccept u hPu

theorem verifyCommands_ne_verify : ∀ c ∈ verifyCommands, c.2 ≠ .verify := by decide

theorem execVerify_keeps_dataInv {s t : State} (h : execVerify s = .next t) (inv : DataInv s) : DataInv t := by
  rw [execVerify, verifyLines_eq] at h
  refine runLines_preserves (fun k _ hu => hu.setPhase k) (fun _ hu => hu.clearAccept)
    (List.forall_mem_map.mpr fun c hc u v hu huv => ?_) h inv
  exact exec_keeps_dataInv (verifyCommands_ne_verify c hc) huv hu

/-- The first line leaves the core idle, and the others keep it so. -/
theorem execVerify_idle {s t : State} (h : execVerify s = .next t) : t.busy = false := by
  obtain ⟨u, hu, hend⟩ := runLines_cons_next 1 (execPkdec regH) verifyLines.tail s t h
  have hidle : u.busy = false := (commandEnd_of_execPkdec hu).idle
  rcases hend with ⟨-, hrest⟩ | ⟨-, rfl⟩
  · rw [verifyLines_eq, ← List.map_tail] at hrest
    refine runLines_preserves (P := fun v => v.busy = false) (fun _ _ => id) (fun _ => id)
      (List.forall_mem_map.mpr fun c hc v w _ hvw => ?_) hrest hidle
    exact (commandEnd_of_exec (verifyCommands_ne_verify c (List.mem_of_mem_tail hc)) hvw).idle
  · exact hidle

/-- Every line ends without error, from the first state to the second. -/
inductive LinesPass : List (Fin 7 × Instr) → State → State → Prop
  | nil (s : State) : LinesPass [] s s
  | cons {k : Fin 7} {i : Instr} {rest : List (Fin 7 × Instr)} {s u v : State} (hu : exec i (setPhase k s) = .next u)
      (hok : u.err = .ok) (hrest : LinesPass rest u v) : LinesPass ((k, i) :: rest) s v

/-- The lines before a given one all pass, or `PHASE` stays that of the line that stops. -/
theorem runLines_append_next {cs : List (Fin 7 × Instr)} {rest : List (Fin 7 × (State → Result))} {s t : State}
    (hcs : ∀ c ∈ cs, c.2 ≠ .verify) (h : runLines ((cs.map fun c => (c.1, exec c.2)) ++ rest) s = .next t) :
    (∃ u, LinesPass cs s u ∧ runLines rest u = .next t) ∨ ∃ c ∈ cs, t.phase = c.1 := by
  induction cs generalizing s with
  | nil => exact .inl ⟨s, .nil s, h⟩
  | cons c cs ih =>
    obtain ⟨u, hu, ⟨hok, hrest⟩ | ⟨-, rfl⟩⟩ := runLines_cons_next c.1 (exec c.2) _ s t h
    · rcases ih (fun d hd => hcs d (by simp [hd])) hrest with ⟨v, hpass, hv⟩ | ⟨d, hd, hphase⟩
      · exact .inl ⟨v, .cons hu hok hpass, hv⟩
      · exact .inr ⟨d, by simp [hd], hphase⟩
    · exact .inr ⟨c, by simp, (commandEnd_of_exec (hcs c (by simp)) hu).phase⟩

theorem CommandEnd.poly_eq {i : Instr} {s t : State} {k : PReg} (h : CommandEnd s i t) (hk : ¬WritesPoly k i) :
    t.poly k = s.poly k :=
  by_contra fun hne => hk (h.writes_poly (.inl hne))

/-- Lines that do not write a register leave it. -/
theorem LinesPass.poly_eq {cs : List (Fin 7 × Instr)} {s u : State} {k : PReg} (h : LinesPass cs s u)
    (hk : ∀ c ∈ cs, ¬WritesPoly k c.2) : u.poly k = s.poly k := by
  induction h with
  | nil => rfl
  | @cons n i rest s v u hv hok hrest ih =>
    have hi : ¬WritesPoly k i := hk (n, i) (by simp)
    have hne : i ≠ .verify := by
      rintro rfl
      exact hi (by simp [WritesPoly])
    calc u.poly k
      _ = v.poly k := ih fun c hc => hk c (by simp [hc])
      _ = (Machine.setPhase n s).poly k := (commandEnd_of_exec hne hv).poly_eq hi
      _ = s.poly k := rfl

/-- The register was written from 512 canonical coefficients. -/
def HoldsCanonical (v : Poly) : Prop := ∃ a, v = polyOfNats a ∧ a.length = 512 ∧ ∀ x ∈ a, x < Config.q

/-- The register was written from 512 signature coefficients (45_codec.md R192). -/
def HoldsShort (v : Poly) : Prop := ∃ a, v = polyOfInts a ∧ a.length = 512 ∧ ∀ x ∈ a, x.natAbs ≤ 2047

theorem decodePk_error_ne_ok {prm : Config.Params} {len : Nat} {l : List Byte} {k : ErrorKind}
    (h : decodePk prm len l = .error k) : k ≠ .ok := by
  unfold decodePk at h
  split at h
  · cases h; nofun
  · split at h
    · cases h; nofun
    · split at h <;> cases h
      nofun

theorem execPkdec_ok {rd : PReg} {s t : State} (h : execPkdec rd s = .next t) (hok : t.err = .ok) :
    HoldsCanonical (t.poly rd) := by
  rcases execPkdec_cases rd s with ⟨-, e⟩ | ⟨l, -, ⟨k, hk, e⟩ | ⟨a, ha, e⟩⟩ <;> cases e.symm.trans h
  · exact absurd hok (decodePk_error_ne_ok hk)
  · obtain ⟨-, hlen, hcan⟩ := decodePk_ok _ _ _ _ ha
    exact ⟨a, poly_writePoly_same s rd _, hlen, hcan⟩

theorem execSigdec_ok {rd : PReg} {s t : State} (h : execSigdec rd s = .next t) (hok : t.err = .ok) :
    HoldsShort (t.poly rd) := by
  rcases execSigdec_next h with ⟨k, p, hk, -, rfl⟩ | ⟨d, -, hlen, hshort, -, rfl⟩
  · exact absurd hok hk
  · exact ⟨d.s2, poly_writePoly_same _ rd _, hlen, hshort⟩

theorem execH2p_ok {rd : PReg} {s t : State} (h : execH2p rd s = .next t) (hok : t.err = .ok) :
    HoldsCanonical (t.poly rd) := by
  rcases execH2p_cases rd s with ⟨-, e⟩ | ⟨-, -, e⟩ | ⟨-, c, sp, hc, e⟩ <;> cases e.symm.trans h
  · cases hok
  · obtain ⟨hlen, hcan⟩ := sample_some _ _ _ _ _ _ hc
    exact ⟨c, poly_writePoly_same _ rd _, by simpa using hlen, hcan (by simp)⟩

/-- The steps 1 to 3 of `VERIFY` leave operands in range for step 4 (47_verify_orchestrator.md R226). -/
theorem operands_of_step_four {s u : State} (h : LinesPass (verifyCommands.take 7) s u) :
    HoldsCanonical (u.poly regH) ∧ HoldsShort (u.poly regS2) ∧ HoldsCanonical (u.poly regC) := by
  obtain _ | ⟨hH, okH, h⟩ := h
  have keepsH := h.poly_eq (k := regH) (by simp [WritesPoly, regH, regC])
  obtain _ | ⟨hS, okS, h⟩ := h
  have keepsS := h.poly_eq (k := regS2) (by simp [WritesPoly, regS2, regC])
  obtain _ | ⟨-, -, _ | ⟨-, -, _ | ⟨-, -, _ | ⟨-, -, _ | ⟨hC, okC, h⟩⟩⟩⟩⟩ := h
  have keepsC := h.poly_eq (k := regC) nofun
  exact ⟨keepsH ▸ execPkdec_ok hH okH, keepsS ▸ execSigdec_ok hS okS, keepsC ▸ execH2p_ok hC okC⟩

/-- Step 4 of `VERIFY` never stops: its lines find their operands in range. -/
theorem execVerify_phase_ne_four {s t : State} (h : execVerify s = .next t) : t.phase ≠ 4 := by
  have split : verifyLines = ((verifyCommands.take 7).map fun c => (c.1, exec c.2)) ++ verifyLines.drop 7 := rfl
  have before : ∀ c ∈ verifyCommands.take 7, c.2 ≠ .verify ∧ c.1 ≠ 4 := by decide
  rw [execVerify, split] at h
  rcases runLines_append_next (fun c hc => (before c hc).1) h with ⟨u, hpass, hu⟩ | ⟨c, hc, hphase⟩
  · obtain ⟨⟨a, ha, hH⟩, ⟨b, hb, hS⟩, ⟨c, hc, hC⟩⟩ := operands_of_step_four hpass
    obtain ⟨t', ht', haccept, hreject⟩ := runLines_from_step_four u a b c ha hb hc hH hS hC
    cases hu.symm.trans ht'
    rcases Nat.lt_or_ge 34034726 (verifyNorm a b c) with hn | hn
    · simp [hreject hn]
    · simp [haccept hn]
  · exact hphase ▸ (before c hc).2

/-- A command run between two moves keeps the invariant, whatever `ST` was on the way. -/
theorem exec_keeps_inv {i : Instr} {s t : State} (h : exec i s = .next t) (inv : DataInv s) (hphase : s.phase ≠ 4) :
    Safety.Inv t := by
  rw [inv_iff]
  by_cases hi : i = .verify
  · subst hi
    exact ⟨execVerify_keeps_dataInv h inv, execVerify_idle h, execVerify_phase_ne_four h⟩
  · have hend := commandEnd_of_exec hi h
    exact ⟨exec_keeps_dataInv hi h inv, hend.idle, hend.phase ▸ hphase⟩

/-! ### Host moves -/

theorem hostCmd_keeps_inv {w : CommandWord} {s t : State} (h : hostCmd w s = .next t) (inv : Safety.Inv s) :
    Safety.Inv t := by
  rw [hostCmd, if_neg (by simp [inv.idle]), runWord] at h
  split at h
  · exact exec_keeps_inv h { inv with } inv.phase
  · cases h
    exact { inv with idle := rfl }

theorem hostWriteByte_keeps_inv {sp : ByteSpace} {i : Nat} {v : Byte} {s t : State}
    (h : hostWriteByte sp i v s = .next t) (inv : Safety.Inv s) : Safety.Inv t := by
  rw [hostWriteByte] at h
  split at h <;> cases h
  case isTrue hi =>
    cases sp with
    | pkbuf => exact { inv with pkbuf := write_wf _ _ i v hi inv.pkbuf }
    | sigbuf => exact { inv with sigbuf := write_wf _ _ i v hi inv.sigbuf }
    | msgbuf => exact { inv with msgbuf := write_wf _ _ i v hi inv.msgbuf }
    | salt => exact { inv with salt := write_wf _ _ i v hi inv.salt }

theorem hostWrite_keeps_inv {loc : Loc} {v : Word64} {s t : State} (h : hostWrite loc v s = .next t)
    (inv : Safety.Inv s) : Safety.Inv t := by
  cases loc with
  | byte sp i => exact hostWriteByte_keeps_inv h inv
  | p k i =>
    rw [hostWrite, hostWriteLane] at h
    split at h <;> cases h
    exact { inv with }
  | ks j =>
    rw [hostWrite, hostWriteSponge] at h
    split at h <;> cases h
    exact { inv with }
  | _ =>
    cases h
    exact { inv with }

/-- A read that answers changes the record of values returned and nothing else (20_memory.md R60). -/
theorem hostRead_next {loc : Loc} {s t : State} (h : hostRead loc s = .next t) :
    ∃ v, t = { s with returned := v :: s.returned } := by
  cases loc with
  | byte sp i =>
    rw [hostRead, hostReadByte] at h
    split at h
    · split at h <;> cases h
      exact ⟨_, rfl⟩
    · cases h
  | p k i | ks i =>
    rw [hostRead] at h
    split at h <;> cases h
    exact ⟨_, rfl⟩
  | _ =>
    cases h
    exact ⟨_, rfl⟩

theorem makeMove_keeps_inv {m : HostMove} {s t : State} (h : makeMove m s = .next t) (inv : Safety.Inv s) :
    Safety.Inv t := by
  cases m with
  | cmd w => exact hostCmd_keeps_inv h inv
  | write loc v =>
    rw [makeMove, if_neg (by simp [inv.idle])] at h
    exact hostWrite_keeps_inv h inv
  | read loc =>
    rw [makeMove, if_neg (by simp [inv.idle])] at h
    obtain ⟨v, rfl⟩ := hostRead_next h
    exact { inv with }
  | reset =>
    cases h
    exact { resetStateIsSafe s.msgMax with }

/-- Settles O59: by the move the step makes. Inside a command the data part of the invariant is kept line by line; no `VERIFY`
stops in step 4, since the steps before it leave operands in range. -/
theorem stepKeepsTheInvariant : Obligations.StepKeepsTheInvariant := by
  intro s t inv h
  cases hm : s.moves with
  | nil =>
    cases (step_idle s hm).symm.trans h
    exact inv
  | cons m rest => exact makeMove_keeps_inv ((step_move s m rest hm).symm.trans h) { inv with }

end Sys2Proof.Machine

/-! PROOFS. The decoder and the encoder against the opcode map (30_encoding.md R71 to R76, R79), and the step that runs a command
word (R70, R76). -/

namespace Sys2Proof.Machine

open Sys2Proof.Cert
open Sys2Proof.Laws

/-! ### The fields of a word -/

/-- The two bits of a word from bit `k` on, as a register number (30_encoding.md R71). -/
def regBits (k : Nat) (w : CommandWord) : PReg := (w.extractLsb' k 2).toFin

@[simp] theorem regBits_val (k : Nat) (w : CommandWord) : (regBits k w).val = w.toNat >>> k % 4 := by
  simp [regBits]

open Fin.NatCast in
/-- The form `simp` gives the operand fields of `opcodeRows`. -/
@[simp] theorem cast_shiftRight_eq_regBits (k : Nat) (w : CommandWord) :
    (Nat.cast (w.toNat >>> k) : Fin 4) = regBits k w := by
  simp [regBits]

@[simp] theorem rdField_eq (w : CommandWord) : rdField w = regBits 8 w := by
  simp [rdField, ← Nat.shiftRight_eq_div_pow _ 8]

@[simp] theorem rs1Field_eq (w : CommandWord) : rs1Field w = regBits 10 w := by
  simp [rs1Field, ← Nat.shiftRight_eq_div_pow _ 10]

@[simp] theorem rs2Field_eq (w : CommandWord) : rs2Field w = regBits 12 w := by
  simp [rs2Field, ← Nat.shiftRight_eq_div_pow _ 12]

theorem opField_eq (w : CommandWord) : opField w = (w.extractLsb' 0 8).toNat := by
  simp [opField]

/-- The value of the two reserved bits. -/
theorem reservedBits_eq (w : CommandWord) : w.toNat / 16384 = (w.extractLsb' 14 2).toNat := by
  simp only [BitVec.extractLsb'_toNat, Nat.shiftRight_eq_div_pow]
  omega

theorem regBits_eq_zero {m : CommandWord} {k : Nat} (hm : m.toNat < 256) (hk : 8 ≤ k) : regBits k m = 0 := by
  have hlt : m.toNat < 2 ^ k := hm.trans_le (Nat.pow_le_pow_right (n := 2) (by decide) hk)
  refine Fin.ext ?_
  rw [regBits_val, Nat.shiftRight_eq_div_pow, Nat.div_eq_of_lt hlt]
  rfl

theorem toNat_fieldsWord (op rd rs1 rs2 : Nat) :
    (fieldsWord op rd rs1 rs2).toNat = (rs2 * 4096 + rs1 * 1024 + rd * 256 + op) % 65536 := rfl

@[simp] theorem regBits_eight_fieldsWord {op : Nat} (rd : PReg) (rs1 rs2 : Nat) (hop : op < 256) :
    regBits 8 (fieldsWord op rd rs1 rs2) = rd := by
  refine Fin.ext ?_
  rw [regBits_val, toNat_fieldsWord]
  omega

@[simp] theorem regBits_ten_fieldsWord {op rd : Nat} (rs1 : PReg) (rs2 : Nat) (hop : op < 256) (hrd : rd < 4) :
    regBits 10 (fieldsWord op rd rs1 rs2) = rs1 := by
  refine Fin.ext ?_
  rw [regBits_val, toNat_fieldsWord]
  omega

@[simp] theorem regBits_twelve_fieldsWord {op rd rs1 : Nat} (rs2 : PReg) (hop : op < 256) (hrd : rd < 4)
    (hrs1 : rs1 < 4) : regBits 12 (fieldsWord op rd rs1 rs2) = rs2 := by
  refine Fin.ext ?_
  rw [regBits_val, toNat_fieldsWord]
  omega

/-- A word whose reserved bits are zero is put together from its fields. -/
theorem fieldsWord_fields {w : CommandWord} (h : w.toNat / 16384 = 0) :
    fieldsWord (opField w) (regBits 8 w) (regBits 10 w) (regBits 12 w) = w := by
  refine BitVec.eq_of_toNat_eq ?_
  rw [toNat_fieldsWord, regBits_val, regBits_val, regBits_val, opField]
  omega

/-! ### Words that match a row -/

/-- A mask leaves the bits it covers. -/
theorem extractLsb'_and_of_covers {w mask : CommandWord} {k n : Nat} (h : mask.extractLsb' k n = BitVec.allOnes n) :
    (w &&& mask).extractLsb' k n = w.extractLsb' k n := by
  rw [BitVec.extractLsb'_and, h, BitVec.and_allOnes]

/-- Every mask covers the operation code and the reserved bits, and every `match` is an operation code (30_encoding.md R73). -/
theorem opcodeRows_shape : ∀ r ∈ opcodeRows, r.2.1.extractLsb' 0 8 = BitVec.allOnes 8 ∧
    r.2.1.extractLsb' 14 2 = BitVec.allOnes 2 ∧ r.1.toNat < 256 := by decide

theorem opcodes_nodup : (opcodeRows.map fun r => r.1.toNat).Nodup := by decide

/-- The register number a word holds at bit `k`, or 0 where the mask fixes the field to zero. -/
def usedField (mask : CommandWord) (k : Nat) (w : CommandWord) : PReg :=
  if mask.extractLsb' k 2 = BitVec.allOnes 2 then 0 else regBits k w

section
variable {w : CommandWord} {r : CommandWord × CommandWord × (CommandWord → Instr)} (hr : r ∈ opcodeRows)
  (h : w &&& r.2.1 = r.1)
include hr h

theorem opField_of_match : opField w = r.1.toNat := by
  obtain ⟨hlow, -, hm⟩ := opcodeRows_shape r hr
  rw [opField_eq, ← extractLsb'_and_of_covers hlow, h, ← opField_eq]
  exact Nat.mod_eq_of_lt hm

theorem reservedBits_of_match : w.toNat / 16384 = 0 := by
  obtain ⟨-, htop, hm⟩ := opcodeRows_shape r hr
  rw [reservedBits_eq, ← extractLsb'_and_of_covers htop, h, ← reservedBits_eq]
  omega

theorem usedField_of_match {k : Nat} (hk : 8 ≤ k) : usedField r.2.1 k w = regBits k w := by
  unfold usedField
  split
  case isTrue hc =>
    obtain ⟨-, -, hm⟩ := opcodeRows_shape r hr
    rw [regBits, ← extractLsb'_and_of_covers hc, h]
    exact (regBits_eq_zero hm hk).symm
  case isFalse => rfl

theorem fieldsWord_of_match :
    fieldsWord r.1.toNat (usedField r.2.1 8 w) (usedField r.2.1 10 w) (usedField r.2.1 12 w) = w := by
  rw [usedField_of_match hr h (by decide), usedField_of_match hr h (by decide), usedField_of_match hr h (by decide),
    ← opField_of_match hr h]
  exact fieldsWord_fields (reservedBits_of_match hr h)

end

/-! ### The decoder is the opcode map -/

/-- The decoder's table lists the rows of the opcode map by their operation codes. -/
theorem opRow_eq_some_iff {op : Nat} {w mask : CommandWord} {i : Instr} :
    opRow op w = some (mask, i) ↔ ∃ r ∈ opcodeRows, r.1.toNat = op ∧ r.2.1 = mask ∧ r.2.2 w = i := by
  constructor
  · intro h
    unfold opRow at h
    simp only [opcodeRows, List.exists_mem_cons_iff]
    split at h <;> cases h <;>
      simp [maskZ, maskD, maskDS, maskDSS, maskSS, maskX]
  · rintro ⟨r, hr, rfl, rfl, rfl⟩
    revert r
    simp [opcodeRows, opRow, maskZ, maskD, maskDS, maskDSS, maskSS, maskX]

/-- A word decodes to a command when it matches a row that gives this command (30_encoding.md R73, R74). -/
theorem decode_eq_ok_iff {w : CommandWord} {i : Instr} :
    decode w = .ok i ↔ ∃ r ∈ opcodeRows, w &&& r.2.1 = r.1 ∧ r.2.2 w = i := by
  constructor
  · intro h
    rw [decode] at h
    split at h
    · cases h
    · split at h
      · cases h
      · next mask j hrow =>
        split at h <;> cases h
        next hmask =>
        obtain ⟨r, hr, hop, rfl, hi⟩ := opRow_eq_some_iff.mp hrow
        exact ⟨r, hr, BitVec.eq_of_toNat_eq (hmask.trans hop.symm), hi⟩
  · rintro ⟨r, hr, h, rfl⟩
    have hop : opField w = r.1.toNat := opField_of_match hr h
    have hrow : opRow r.1.toNat w = some (r.2.1, r.2.2 w) := opRow_eq_some_iff.mpr ⟨r, hr, rfl, rfl, rfl⟩
    rw [decode, if_neg (not_not.mpr (reservedBits_of_match hr h)), hop, hrow]
    exact if_pos (congrArg BitVec.toNat h)

theorem decode_error_of_noRowMatches {w : CommandWord} (h : NoRowMatches w) : ∃ e, decode w = .error e := by
  cases hd : decode w with
  | error e => exact ⟨e, rfl⟩
  | ok i =>
    obtain ⟨r, hr, hmatch, -⟩ := decode_eq_ok_iff.mp hd
    exact absurd hmatch (h r hr)

/-- Two rows never match one word: its operation code is that of one row at most. -/
theorem matching_rows_le_one (w : CommandWord) :
    (opcodeRows.filter fun r => decide (w &&& r.2.1 = r.1)).length ≤ 1 := by
  rw [← List.countP_eq_length_filter]
  calc opcodeRows.countP (fun r => decide (w &&& r.2.1 = r.1))
    _ ≤ opcodeRows.countP ((· == opField w) ∘ fun r => r.1.toNat) :=
      List.countP_mono_left fun r hr h => beq_iff_eq.mpr (opField_of_match hr (of_decide_eq_true h)).symm
    _ = (opcodeRows.map fun r => r.1.toNat).count (opField w) := List.countP_map.symm
    _ ≤ 1 := List.nodup_iff_count_le_one.mp opcodes_nodup _

/-- Settles O3: the operation code of a matching word is the row's `match`, and no two rows share one. -/
theorem decodeFollowsTheOpcodeMap : Obligations.DecodeFollowsTheOpcodeMap := fun w =>
  ⟨fun r hr h => decode_eq_ok_iff.mpr ⟨r, hr, h, rfl⟩, decode_error_of_noRowMatches, matching_rows_le_one w⟩

/-! ### The encoder is the opcode map read the other way -/

/-- The word of a row's command: the row's `match`, with the operand fields its mask leaves open. -/
theorem encode_command (w : CommandWord) : ∀ r ∈ opcodeRows, encode (r.2.2 w) =
    fieldsWord r.1.toNat (usedField r.2.1 8 w) (usedField r.2.1 10 w) (usedField r.2.1 12 w) := by
  simp [opcodeRows, encode, usedField]

/-- The mask of `SHABS` fixes bit 11 to zero (30_encoding.md R75). -/
theorem selectorLegal_of_match {w : CommandWord} (h : w &&& 0xFBFF#16 = 0x0032#16) :
    selectorLegal (regBits 10 w) = true := by
  have hbit : w.extractLsb' 11 1 = 0#1 := by
    rw [← extractLsb'_and_of_covers (mask := 0xFBFF#16) (by decide), h]
    decide
  have hval : w.toNat / 2048 % 2 = 0 := by
    simpa [Nat.shiftRight_eq_div_pow] using congrArg BitVec.toNat hbit
  rw [selectorLegal, regBits_val, decide_eq_true_eq]
  omega

theorem wellFormed_of_match {w : CommandWord} :
    ∀ r ∈ opcodeRows, w &&& r.2.1 = r.1 → (r.2.2 w).wellFormed = true := by
  simpa [opcodeRows, Instr.wellFormed] using selectorLegal_of_match (w := w)

/-- Settles O2: the row a word matches gives back every field the mask leaves open, and fixes the others. -/
theorem decodedWordIsItsEncoding : Obligations.DecodedWordIsItsEncoding := by
  intro w i h
  obtain ⟨r, hr, hmatch, rfl⟩ := decode_eq_ok_iff.mp h
  exact ⟨(encode_command w r hr).trans (fieldsWord_of_match hr hmatch), wellFormed_of_match r hr hmatch⟩

/-- The row of a command is one of the opcode map, and reads the operands back from the command's word. -/
theorem row_mem_opcodeRows (i : Instr) :
    ∃ f, ((RowWord.row i).1, (RowWord.row i).2, f) ∈ opcodeRows ∧ f (encode i) = i := by
  cases i <;> simp [opcodeRows, RowWord.row, encode]

/-- The word of a well-formed command matches the command's row. -/
theorem encode_matches_row : ∀ i, RowWord.Statement i
  | .fadd => RowWord.fadd
  | .fsub => RowWord.fsub
  | .fmul => RowWord.fmul
  | .fctr => RowWord.fctr
  | .fcan => RowWord.fcan
  | .nttf rd => RowWord.nttf rd
  | .ntti rd => RowWord.ntti rd
  | .nttmul rd rs1 rs2 => RowWord.nttmul rd rs1 rs2
  | .pmul rd rs1 rs2 => RowWord.pmul rd rs1 rs2
  | .psub rd rs1 rs2 => RowWord.psub rd rs1 rs2
  | .pctr rd rs1 => RowWord.pctr rd rs1
  | .pcan rd rs1 => RowWord.pcan rd rs1
  | .kecf => RowWord.kecf
  | .shinit => RowWord.shinit
  | .shabs sel => RowWord.shabs sel
  | .shfin => RowWord.shfin
  | .shsqz => RowWord.shsqz
  | .h2p rd => RowWord.h2p rd
  | .pkdec rd => RowWord.pkdec rd
  | .sigdec rd => RowWord.sigdec rd
  | .norm rs1 rs2 => RowWord.norm rs1 rs2
  | .verify => RowWord.verify

/-- Settles O1: the word of the command matches the command's row, from which the decoder reads the operands back. -/
theorem encodeThenDecodeIsIdentity : Obligations.EncodeThenDecodeIsIdentity := by
  intro i hwf
  obtain ⟨f, hrow, hf⟩ := row_mem_opcodeRows i
  exact decode_eq_ok_iff.mpr ⟨_, hrow, encode_matches_row i hwf, hf⟩

/-- Settles O4: the words by evaluation, and back by the round trip. -/
theorem workedEncodings : Obligations.WorkedEncodings := by
  have psub : encode (.psub 3 2 3) = 0x3B21 := by decide
  have norm : encode (.norm 3 1) = 0x1C60 := by decide
  exact ⟨psub, psub ▸ encodeThenDecodeIsIdentity (.psub 3 2 3) rfl,
    norm, norm ▸ encodeThenDecodeIsIdentity (.norm 3 1) rfl⟩

/-! ### The step that runs a word -/

/-- A step with a command word to run, while the core is idle. -/
theorem step_cmd {s : State} {w : CommandWord} {rest : List HostMove} (h : s.moves = .cmd w :: rest)
    (hidle : s.busy = false) : step s = runWord w { s with moves := rest } := by
  rw [step_move s _ rest h]
  exact if_neg (by simp [hidle])

theorem runWord_of_ok {w : CommandWord} {i : Instr} (s : State) (h : decode w = .ok i) :
    runWord w s = exec i (acceptCommand s) := by
  simp [runWord, h]

theorem runWord_of_error {w : CommandWord} {e : DecodeError} (s : State) (h : decode w = .error e) :
    runWord w s = illegalCommand (acceptCommand s) := by
  simp [runWord, h]

/-- Settles O5: by the move the step makes. -/
theorem stepRunsTheDecodedCommand : Obligations.StepRunsTheDecodedCommand :=
  ⟨step_idle, fun _ _ _ _ hmoves hidle hdecode => (step_cmd hmoves hidle).trans (runWord_of_ok _ hdecode)⟩

theorem decode_of_decodeTableWord {nbits w : Nat} {i : Instr} (h : decodeTableWord nbits w = some i) :
    decode (BitVec.ofNat 16 (w % 2 ^ nbits)) = .ok i := by
  rw [decodeTableWord] at h
  split at h <;> cases h
  assumption

/-- Settles O6: the word stands first among the moves of an idle core. -/
theorem placedWordRuns : Obligations.PlacedWordRuns := fun s w _ h =>
  (step_cmd (s := s.withFetchWord 16 w) rfl rfl).trans (runWord_of_ok _ (decode_of_decodeTableWord h))

/-- Settles O7: a word that matches no row does not decode. -/
theorem illegalWordOnlyReports : Obligations.IllegalWordOnlyReports := by
  intro s w rest hmoves hidle hnone
  obtain ⟨e, he⟩ := decode_error_of_noRowMatches hnone
  exact (step_cmd hmoves hidle).trans (runWord_of_error _ he)

end Sys2Proof.Machine

/-! PROOFS. The field unit (40_field_arithmetic.md): its functions on canonical values (R91 to R95, R102), read as arithmetic in
`ZMod 12289`, and what its five commands answer (R97 to R101). -/

namespace Sys2Proof.Machine

open Sys2Proof.Cert

/-! ### The residues in select form -/

theorem fadd_eq_mod (a b : Nat) : fadd a b = (a + b) % 12289 := rfl

theorem fsub_eq_mod (a b : Nat) : fsub a b = (a + 12289 - b) % 12289 := rfl

theorem fmul_eq_mod (a b : Nat) : fmul a b = a * b % 12289 := rfl

/-- The select form of `fadd` (40_field_arithmetic.md R91). -/
theorem fadd_eq_ite {a b : Nat} (ha : a < 12289) (hb : b < 12289) :
    fadd a b = if a + b < 12289 then a + b else a + b - 12289 := by
  rw [fadd_eq_mod]
  split <;> omega

/-- The select form of `fsub` (40_field_arithmetic.md R92). -/
theorem fsub_eq_ite {a b : Nat} (ha : a < 12289) (hb : b < 12289) :
    fsub a b = if b ≤ a then a - b else a + 12289 - b := by
  rw [fsub_eq_mod]
  split <;> omega

/-- `fsub` is the integer difference modulo 12289 (40_field_arithmetic.md R92). -/
theorem fsub_eq_emod {b : Nat} (a : Nat) (hb : b < 12289) : (fsub a b : Int) = ((a : Int) - b) % 12289 := by
  rw [fsub_eq_mod]
  omega

/-- Settles O15: the range of each residue, the two select forms, and the product of the largest operands. -/
theorem fieldFunctionsAreModular : Obligations.FieldFunctionsAreModular := fun a b ha hb =>
  ⟨⟨fadd_eq_mod a b, fadd_eq_ite ha hb, fadd_lt a b, by omega⟩, ⟨fsub_eq_emod a hb, fsub_eq_ite ha hb, fsub_lt a b⟩,
    fmul_eq_mod a b, fmul_lt a b, calc
      a * b ≤ 12288 * 12288 := Nat.mul_le_mul (by omega) (by omega)
      _ = 150994944 := rfl⟩

/-! ### The field functions in `ZMod 12289` -/

@[simp] theorem cast_fadd (a b : Nat) : (fadd a b : ZMod 12289) = a + b := by
  rw [fadd_eq_mod, ZMod.natCast_mod, Nat.cast_add]

@[simp] theorem cast_fmul (a b : Nat) : (fmul a b : ZMod 12289) = a * b := by
  rw [fmul_eq_mod, ZMod.natCast_mod, Nat.cast_mul]

theorem cast_fsub (a : Nat) {b : Nat} (hb : b < 12289) : (fsub a b : ZMod 12289) = a - b := by
  have hle : b ≤ a + 12289 := by omega
  rw [fsub_eq_mod, ZMod.natCast_mod, Nat.cast_sub hle, Nat.cast_add, ZMod.natCast_self, add_zero]

/-- Canonical values are equal where they are equal in `ZMod 12289`. -/
theorem eq_of_cast_eq {x y : Nat} (hx : x < 12289) (hy : y < 12289) (h : (x : ZMod 12289) = y) : x = y :=
  Nat.ModEq.eq_of_lt_of_lt ((ZMod.natCast_eq_natCast_iff x y 12289).mp h) hx hy

theorem prime_modulus : Nat.Prime 12289 := by norm_num

/-! ### The laws of R102 -/

theorem fadd_comm (a b : Nat) : fadd a b = fadd b a := by rw [fadd_eq_mod, fadd_eq_mod, Nat.add_comm]

theorem fmul_comm (a b : Nat) : fmul a b = fmul b a := by rw [fmul_eq_mod, fmul_eq_mod, Nat.mul_comm]

theorem fadd_assoc (a b c : Nat) : fadd (fadd a b) c = fadd a (fadd b c) :=
  eq_of_cast_eq (fadd_lt _ _) (fadd_lt _ _) (by simp [add_assoc])

theorem fmul_assoc (a b c : Nat) : fmul (fmul a b) c = fmul a (fmul b c) :=
  eq_of_cast_eq (fmul_lt _ _) (fmul_lt _ _) (by simp [mul_assoc])

theorem fmul_fadd (a b c : Nat) : fmul a (fadd b c) = fadd (fmul a b) (fmul a c) :=
  eq_of_cast_eq (fmul_lt _ _) (fadd_lt _ _) (by simp [mul_add])

theorem fsub_eq_fadd_neg (a : Nat) {b : Nat} (hb : b < 12289) : fsub a b = fadd a (fsub 0 b) :=
  eq_of_cast_eq (fsub_lt _ _) (fadd_lt _ _) (by simp [cast_fsub, hb, sub_eq_add_neg])

theorem fadd_fsub_cancel {a b : Nat} (ha : a < 12289) (hb : b < 12289) : fadd (fsub a b) b = a :=
  eq_of_cast_eq (fadd_lt _ _) ha (by simp [cast_fsub, hb])

theorem fsub_self {a : Nat} (ha : a < 12289) : fsub a a = 0 :=
  eq_of_cast_eq (fsub_lt _ _) (by decide) (by simp [cast_fsub, ha])

theorem fsub_zero_left {b : Nat} (hb : b < 12289) : fsub 0 b = if b = 0 then 0 else 12289 - b := by
  rw [fsub_eq_ite (by decide) hb]
  split <;> split <;> omega

/-- A product that the modulus divides has a factor that it divides. -/
theorem eq_zero_or_eq_zero_of_fmul {a b : Nat} (ha : a < 12289) (hb : b < 12289) (h : fmul a b = 0) : a = 0 ∨ b = 0 :=
  (prime_modulus.dvd_mul.mp (Nat.dvd_of_mod_eq_zero h)).imp
    (fun hd => Nat.eq_zero_of_dvd_of_lt hd ha) fun hd => Nat.eq_zero_of_dvd_of_lt hd hb

/-- Fermat's little theorem: the power `p - 2` is the inverse. -/
theorem mul_pow_sub_two_eq_one {p : Nat} [hp : Fact p.Prime] {x : ZMod p} (hx : x ≠ 0) : x * x ^ (p - 2) = 1 := by
  have htwo : 2 ≤ p := hp.out.two_le
  have hexp : p - 2 + 1 = p - 1 := by omega
  rw [← pow_succ', hexp, ZMod.pow_card_sub_one_eq_one hx]

theorem fmul_pow_eq_one {a : Nat} (ha : a < 12289) (hne : a ≠ 0) : fmul a (a ^ (12289 - 2) % 12289) = 1 := by
  have hfact : Fact (Nat.Prime 12289) := ⟨prime_modulus⟩
  have hcast : (a : ZMod 12289) ≠ 0 := fun h =>
    hne (eq_of_cast_eq ha (by decide) (by rw [h, Nat.cast_zero]))
  refine eq_of_cast_eq (fmul_lt _ _) (by decide) ?_
  calc (fmul a (a ^ (12289 - 2) % 12289) : ZMod 12289)
    _ = a * (a : ZMod 12289) ^ (12289 - 2) := by rw [cast_fmul, ZMod.natCast_mod, Nat.cast_pow]
    _ = (1 : Nat) := by rw [mul_pow_sub_two_eq_one hcast, Nat.cast_one]

/-- Settles O16: the ring laws in `ZMod 12289`, whose modulus is prime. -/
theorem fieldLaws : Obligations.FieldLaws := fun a b c ha hb _ =>
  ⟨fadd_comm a b, fmul_comm a b, fadd_assoc a b c, fmul_assoc a b c, fmul_fadd a b c, Nat.mod_eq_of_lt ha,
    (congrArg (· % 12289) (Nat.mul_one a)).trans (Nat.mod_eq_of_lt ha), rfl, fsub_self ha, fsub_eq_fadd_neg a hb,
    fsub_zero_left hb, fadd_fsub_cancel ha hb, eq_zero_or_eq_zero_of_fmul ha hb, fmul_pow_eq_one ha⟩

/-! ### `center` and `canon` -/

/-- `canon` in select form (40_field_arithmetic.md R95). -/
theorem canon_eq_ite {v : Int} (hv : -12289 < v) : (canon v : Int) = if 0 ≤ v then v else v + 12289 := by
  rw [show canon v = if 0 ≤ v then v.toNat else (v + 12289).toNat from rfl]
  split <;> omega

theorem canon_eq_emod {v : Int} (hlo : -12289 < v) (hhi : v < 12289) : (canon v : Int) = v % 12289 := by
  rw [canon_eq_ite hlo]
  split <;> omega

theorem center_eq_ite (x : Nat) : center x = if x ≤ 6144 then (x : Int) else (x : Int) - 12289 := rfl

theorem canon_center {x : Nat} (hx : x < 12289) : canon (center x) = x := by
  obtain ⟨hlo, -⟩ := center_range x hx
  have hcanon := canon_eq_ite (v := center x) (by omega)
  have hcenter := center_eq_ite x
  split at hcanon <;> split at hcenter <;> omega

theorem center_canon {v : Int} (hlo : -6144 ≤ v) (hhi : v ≤ 6144) : center (canon v) = v := by
  have hcanon := canon_eq_ite (v := v) (by omega)
  rw [center_eq_ite]
  split at hcanon <;> split <;> omega

/-- `center` moves a value by a multiple of the modulus. -/
theorem center_congr (x : Nat) : (center x - x) % 12289 = 0 := by
  rw [center_eq_ite]
  split <;> omega

/-- Settles O17: the select forms of the two functions; `canon v` is the value that `center` takes to `v`. -/
theorem centerAndCanonAreInverse : Obligations.CenterAndCanonAreInverse := by
  refine ⟨fun x hx => ?_, fun v hlo hhi => ⟨canon_eq_emod hlo hhi, canon_eq_ite hlo⟩, fun v hlo hhi => ?_,
    rfl, rfl, rfl, rfl⟩
  · obtain ⟨hlo, hhi⟩ := center_range x hx
    exact ⟨center_eq_ite x, hlo, hhi, center_congr x, canon_center hx⟩
  · have hinv := center_canon hlo hhi
    exact ⟨hinv, canon v, canon_lt v (by omega) (by omega), hinv⟩

/-! ### The commands of the field unit -/

theorem complete_eq_ended (s : State) : complete s = ended .ok s := rfl

theorem raise_eq_ended (k : ErrorKind) (s : State) : raise k s = ended k s := rfl

/-- A command of two canonical scalar operands, as one equation (40_field_arithmetic.md R97 to R99). -/
theorem fieldBinary_eq_ite (f : Nat → Nat → Nat) (s : State) :
    fieldBinary f s = if 12289 ≤ s.a.toNat ∨ 12289 ≤ s.b.toNat then .next (ended .operandRange s)
      else .next (ended .ok { s with r := BitVec.ofNat 16 (f s.a.toNat s.b.toNat) }) := by
  rcases fieldBinary_cases f s with ⟨ha, hb, e⟩ | ⟨hout, e⟩
  · rw [e, if_neg (by simp only [Config.q] at ha hb; omega), complete_eq_ended]
  · rw [e, if_pos hout, raise_eq_ended]

/-- Settles O18: a command of two canonical operands with `fadd`. -/
theorem faddResult : Obligations.FaddResult := ⟨by decide, fieldBinary_eq_ite fadd⟩

/-- Settles O19: a command of two canonical operands with `fsub`, whose value is the residue of the integer difference. -/
theorem fsubResult : Obligations.FsubResult := by
  refine ⟨by decide, fun s => (fieldBinary_eq_ite fsub s).trans (ite_congr rfl (fun _ => rfl) fun hin => ?_)⟩
  rw [← fsub_eq_emod s.a.toNat (by omega), BitVec.ofInt_natCast]

/-- Settles O20: a command of two canonical operands with `fmul`. -/
theorem fmulResult : Obligations.FmulResult := ⟨by decide, fieldBinary_eq_ite fmul⟩

/-- Settles O21: a centered value survives the trip through `R`. -/
theorem fctrResult : Obligations.FctrResult := by
  refine ⟨by decide, fun s => ?_⟩
  rcases execFctr_cases s with ⟨hin, e⟩ | ⟨hout, e⟩
  · obtain ⟨hlo, hhi⟩ := center_range _ hin
    exact ⟨fun hout => absurd hin (Nat.not_lt.mpr hout),
      fun _ => ⟨_, e, rfl, (toInt_ofInt16 _ (by omega) (by omega)).trans (center_eq_ite _)⟩⟩
  · exact ⟨fun _ => e, fun hin => absurd hin (Nat.not_lt.mpr hout)⟩

/-- Settles O22: a canonical value survives the trip through `R`. -/
theorem fcanResult : Obligations.FcanResult := by
  refine ⟨by decide, fun s => ?_⟩
  rcases execFcan_cases s with ⟨hlo, hhi, e⟩ | ⟨hout, e⟩
  · have hlt : canon s.a.toInt < 12289 := canon_lt _ (Int.add_one_le_of_lt hlo) (Int.le_of_lt_add_one hhi)
    have hr : (BitVec.ofNat 16 (canon s.a.toInt)).toNat = canon s.a.toInt := Nat.mod_eq_of_lt (by omega)
    exact ⟨fun hout => absurd hout (by simp only [Config.q] at hlo hhi; omega),
      fun _ _ => ⟨_, e, rfl, (congrArg Nat.cast hr).trans (canon_eq_emod hlo hhi)⟩⟩
  · exact ⟨fun _ => e, fun hlo hhi => absurd hout (by simp only [Config.q]; omega)⟩

end Sys2Proof.Machine

/-! PROOFS. The commands of the transform engine (41_ntt_engine.md R116, R118, R119, R121), and what every command answers that reads
canonical registers and writes one. -/

namespace Sys2Proof.Machine

open Sys2Proof.Cert

/-! ### Canonical registers -/

theorem laneInt_eq_getElem (v : Poly) {i : Nat} (hi : i < 512) : laneInt v i = v[i].toInt := by
  simp [laneInt, hi]

theorem canonicalLanes_of_not_canonical {v : Poly} (h : ¬Canonical v) : canonicalLanes v = none := by
  rw [canonicalLanes_eq_none]
  simp only [Canonical, Within, not_forall] at h
  obtain ⟨i, hi, hout⟩ := h
  rw [laneInt_eq_getElem v hi] at hout
  exact ⟨i, hi, by omega⟩

/-- A canonical register is read as its unsigned lanes (41_ntt_engine.md R116). -/
theorem canonicalLanes_of_canonical {v : Poly} (h : Canonical v) : canonicalLanes v = some (coefs v) := by
  have hlane : ∀ x ∈ v.toList, 0 ≤ x.toInt ∧ x.toInt ≤ 12288 := by
    intro x hx
    obtain ⟨i, hi, rfl⟩ := List.getElem_of_mem hx
    have hi' : i < 512 := by simpa using hi
    simpa [laneInt_eq_getElem v hi'] using h i hi'
  have hnat : ∀ x ∈ v.toList, x.toInt = (x.toNat : Int) := fun x hx => by
    have := (hlane x hx).1
    rw [BitVec.toInt_eq_toNat_cond] at this ⊢
    split <;> omega
  refine (canonicalLanes_eq_some v _).mpr ⟨by simp [coefs], fun x hx => ?_, ?_⟩
  · obtain ⟨y, hy, rfl⟩ := List.mem_map.mp hx
    have := hnat y hy
    have := (hlane y hy).2
    simp only [Config.q]
    omega
  · rw [coefs, List.map_map]
    exact List.map_congr_left hnat

/-- What a command leaves that writes 512 canonical values to a register and ends without error. -/
theorem writesLanes_polyOfNats (s : State) (rd : PReg) {l : List Nat} (hlen : l.length = 512) (hl : AllCanonical l) :
    WritesLanes s (complete (writePoly rd (polyOfNats l) s)) rd fun i => (l.getD i 0 : Nat) := by
  have hpoly : (complete (writePoly rd (polyOfNats l) s)).poly rd = polyOfNats l := by simp [State.poly]
  have hsmall : ∀ x ∈ l, x < 2 ^ 15 := fun x hx => (hl x hx).trans (by decide)
  rw [WritesLanes, hpoly]
  refine ⟨fun i hi => ?_, rfl⟩
  rw [laneInt_eq_getElem _ hi, toInt_polyOfNats l hlen hsmall i hi, List.getD_eq_getElem _ _ (hlen ▸ hi)]

theorem length_coefs (v : Poly) : (coefs v).length = 512 := by simp [coefs]

/-! ### The commands -/

/-- A transform in place, in the words of the statements (41_ntt_engine.md R118, R119). -/
theorem transformInPlace_result {f : List Nat → List Nat} (hlen : ∀ a, a.length = 512 → (f a).length = 512)
    (hf : ∀ a, AllCanonical (f a)) (rd : PReg) (s : State) :
    (Canonical (s.poly rd) → ∃ t, transformInPlace f rd s = .next t ∧
      WritesLanes s t rd fun i => ((f (coefs (s.poly rd))).getD i 0 : Nat)) ∧
    (¬Canonical (s.poly rd) → transformInPlace f rd s = .next (ended .operandRange s)) := by
  rcases transformInPlace_cases f rd s with ⟨a, ha, e⟩ | ⟨hnone, e⟩
  · refine ⟨fun hc => ?_, fun hc => ?_⟩
    · obtain rfl : coefs (s.poly rd) = a := Option.some.inj ((canonicalLanes_of_canonical hc).symm.trans ha)
      exact ⟨_, e, writesLanes_polyOfNats s rd (hlen _ (length_coefs _)) (hf _)⟩
    · simp [canonicalLanes_of_not_canonical hc] at ha
  · refine ⟨fun hc => ?_, fun _ => e⟩
    simp [canonicalLanes_of_canonical hc] at hnone

/-- A command of two canonical registers, in the words of the statements (41_ntt_engine.md R121, 42_pointwise.md R131). -/
theorem canonicalBinary_result {f : List Nat → List Nat → List Nat}
    (hlen : ∀ a b, a.length = 512 → b.length = 512 → (f a b).length = 512) (hf : ∀ a b, AllCanonical (f a b))
    (rd rs1 rs2 : PReg) (s : State) :
    (Canonical (s.poly rs1) → Canonical (s.poly rs2) → ∃ t, canonicalBinary f rd rs1 rs2 s = .next t ∧
      WritesLanes s t rd fun i => ((f (coefs (s.poly rs1)) (coefs (s.poly rs2))).getD i 0 : Nat)) ∧
    (¬(Canonical (s.poly rs1) ∧ Canonical (s.poly rs2)) →
      canonicalBinary f rd rs1 rs2 s = .next (ended .operandRange s)) := by
  rcases canonicalBinary_cases f rd rs1 rs2 s with ⟨a, b, ha, hb, e⟩ | ⟨hnone, e⟩
  · refine ⟨fun hc1 hc2 => ?_, fun hc => ?_⟩
    · obtain rfl : coefs (s.poly rs1) = a := Option.some.inj ((canonicalLanes_of_canonical hc1).symm.trans ha)
      obtain rfl : coefs (s.poly rs2) = b := Option.some.inj ((canonicalLanes_of_canonical hc2).symm.trans hb)
      exact ⟨_, e, writesLanes_polyOfNats s rd (hlen _ _ (length_coefs _) (length_coefs _)) (hf _ _)⟩
    · rcases not_and_or.mp hc with hc | hc
      · simp [canonicalLanes_of_not_canonical hc] at ha
      · simp [canonicalLanes_of_not_canonical hc] at hb
  · refine ⟨fun hc1 hc2 => ?_, fun _ => e⟩
    simp [canonicalLanes_of_canonical hc1, canonicalLanes_of_canonical hc2] at hnone

/-- Settles O23: a transform in place with `ntt`. -/
theorem nttfResult : Obligations.NttfResult := fun rd s =>
  ⟨by revert rd; decide, transformInPlace_result length_ntt ntt_canonical rd s⟩

/-- Settles O24: a transform in place with `intt`. -/
theorem nttiResult : Obligations.NttiResult := fun rd s =>
  ⟨by revert rd; decide, transformInPlace_result length_intt intt_canonical rd s⟩

/-- Settles O25: a command of two canonical registers with `mulring`. -/
theorem nttmulResult : Obligations.NttmulResult := fun rd rs1 rs2 s =>
  ⟨by revert rd rs1 rs2; decide, canonicalBinary_result length_mulring mulring_canonical rd rs1 rs2 s⟩

end Sys2Proof.Machine

/-! PROOFS. What the two transforms compute (41_ntt_engine.md): they undo each other stage by stage, the forward one evaluates its
polynomial (R117), and the ring product is the negacyclic convolution (R110, R120). -/

namespace Sys2Proof.Machine

open Sys2Proof.Cert

/-! ### Both transforms as stages over the nodes of a tree

Table entry `n` belongs to node `n` of a binary tree whose node `n` has the children `2 * n` and `2 * n + 1`. The stage with `m`
groups uses the entries of the nodes `m .. 2 * m - 1`, one a group. -/

/-- Entry `n` of the table of a root (41_ntt_engine.md R112, R113). -/
def rootEntry (root n : Nat) : Nat := root ^ bitReverse 9 n % Config.q

/-- A stage applies to successive runs of `w` values the operation of their node. -/
def groupwise (f : Nat → List Nat → List Nat) (w : Nat) : List Nat → List Nat → List Nat
  | [], _ => []
  | n :: ns, a => f n (a.take w) ++ groupwise f w ns (a.drop w)

theorem nttStage_eq_groupwise (t : Nat) (e : Nat → Nat) (ns a : List Nat) :
    nttStage t (ns.map e) a = groupwise (fun n => nttGroup t (e n)) (2 * t) ns a := by
  induction ns generalizing a with
  | nil => rfl
  | cons n ns ih => rw [List.map_cons, nttStage, groupwise, ih]

theorem inttStage_eq_groupwise (t : Nat) (e : Nat → Nat) (ns a : List Nat) :
    inttStage t (ns.map e) a = groupwise (fun n => inttGroup t (e n)) (2 * t) ns a := by
  induction ns generalizing a with
  | nil => rfl
  | cons n ns ih => rw [List.map_cons, inttStage, groupwise, ih]

theorem stageEntries_rootTable (root : Nat) {m : Nat} (hm : 2 * m ≤ 512) :
    stageEntries (rootTable root) m = (List.range' m m).map (rootEntry root) := by
  refine List.ext_getElem ?_ fun i _ _ => ?_
  · rw [length_stageEntries _ _ (by rwa [length_rootTable]), List.length_map, List.length_range']
  · simp [stageEntries, rootTable, rootEntry]

theorem cast_rootEntry (root n : Nat) : (rootEntry root n : ZMod 12289) = (root : ZMod 12289) ^ bitReverse 9 n := by
  rw [rootEntry, Config.q, ZMod.natCast_mod, Nat.cast_pow]

/-- The two tables hold inverse entries (41_ntt_engine.md R113). -/
theorem cast_rootEntry_mul_inverse (n : Nat) :
    (rootEntry params.psi n : ZMod 12289) * rootEntry params.ipsi n = 1 := by
  have hroot : ((params.psi : Nat) : ZMod 12289) * (params.ipsi : Nat) = 1 := by decide
  rw [cast_rootEntry, cast_rootEntry, ← mul_pow, hroot, one_pow]

/-- The stage of `m` groups of the forward transform. -/
theorem nttStage_eq (t : Nat) {m : Nat} (hm : 2 * m ≤ 512) (a : List Nat) :
    nttStage t (stageEntries tw m) a =
      groupwise (fun n => nttGroup t (rootEntry params.psi n)) (2 * t) (List.range' m m) a := by
  rw [tw, stageEntries_rootTable _ hm, nttStage_eq_groupwise]

/-- The stage of `m` groups of the inverse transform. -/
theorem inttStage_eq (t : Nat) {m : Nat} (hm : 2 * m ≤ 512) (a : List Nat) :
    inttStage t (stageEntries itw m) a =
      groupwise (fun n => inttGroup t (rootEntry params.ipsi n)) (2 * t) (List.range' m m) a := by
  rw [itw, stageEntries_rootTable _ hm, inttStage_eq_groupwise]

/-! ### The transforms undo each other (41_ntt_engine.md R117) -/

/-- Every value times `c`. -/
def scale (c : Nat) (a : List Nat) : List Nat := a.map (fmul c)

/-- On `n` canonical values `f` takes back what `g` does, up to a factor of 2 and to a scaling in between. -/
def UndoesTwice (n : Nat) (f g : List Nat → List Nat) : Prop :=
  ∀ (c : Nat) (a : List Nat), a.length = n → AllCanonical a → f (scale c (g a)) = scale (2 * c) a

theorem scale_append (c : Nat) (u v : List Nat) : scale c (u ++ v) = scale c u ++ scale c v := List.map_append

/-- Scaling by a residue of 1 changes no canonical value. -/
theorem scale_of_cast_eq_one {c : Nat} (hc : (c : ZMod 12289) = 1) {a : List Nat} (ha : AllCanonical a) : scale c a = a :=
  calc scale c a
    _ = a.map id := List.map_congr_left fun x hx => eq_of_cast_eq (fmul_lt _ _) (ha x hx) (by
      rw [cast_fmul, hc, one_mul, id])
    _ = a := List.map_id a

theorem scale_scale (c d : Nat) (a : List Nat) : scale c (scale d a) = scale (c * d) a := by
  simp [scale, fmul_eq_mod, Nat.mul_assoc]

theorem scale_zipWith (c : Nat) (f : Nat → Nat → Nat) (u v : List Nat) :
    scale c (List.zipWith f u v) = List.zipWith (fun x y => fmul c (f x y)) u v := List.map_zipWith

theorem nttGroup_append {t : Nat} (s : Nat) {u : List Nat} (v : List Nat) (hu : u.length = t) :
    nttGroup t s (u ++ v) =
      List.zipWith (fun x y => fadd x (fmul y s)) u v ++ List.zipWith (fun x y => fsub x (fmul y s)) u v := by
  simp [nttGroup, ← hu, List.zipWith_map_right]

theorem inttGroup_append {t : Nat} (s : Nat) {u : List Nat} (v : List Nat) (hu : u.length = t) :
    inttGroup t s (u ++ v) = List.zipWith fadd u v ++ List.zipWith (fun x y => fmul (fsub x y) s) u v := by
  simp [inttGroup, ← hu, List.map_zipWith]

theorem zipWith_zipWith_zipWith (F f g : Nat → Nat → Nat) (u v : List Nat) :
    List.zipWith F (List.zipWith f u v) (List.zipWith g u v) = List.zipWith (fun x y => F (f x y) (g x y)) u v := by
  apply List.ext_getElem <;> simp

theorem zipWith_eq_scale_left {f : Nat → Nat → Nat} {c : Nat} {u v : List Nat} (huv : u.length = v.length)
    (h : ∀ x ∈ u, ∀ y ∈ v, f x y = fmul c x) : List.zipWith f u v = scale c u := by
  refine List.ext_getElem (by simp [scale, huv]) fun i _ _ => ?_
  simp [scale, h]

theorem zipWith_eq_scale_right {f : Nat → Nat → Nat} {c : Nat} {u v : List Nat} (huv : u.length = v.length)
    (h : ∀ x ∈ u, ∀ y ∈ v, f x y = fmul c y) : List.zipWith f u v = scale c v :=
  List.zipWith_comm.trans (zipWith_eq_scale_left huv.symm fun y hy x hx => h x hx y hy)

/-- The values of a group are its two halves. -/
theorem exists_halves {t : Nat} {g : List Nat} (h : g.length = 2 * t) : ∃ u v, g = u ++ v ∧ u.length = t ∧ v.length = t :=
  ⟨g.take t, g.drop t, (List.take_append_drop t g).symm, by rw [List.length_take]; omega, by rw [List.length_drop]; omega⟩

theorem inttGroup_undoes_nttGroup (t : Nat) {s s' : Nat} (hs : (s : ZMod 12289) * s' = 1) :
    UndoesTwice (2 * t) (inttGroup t s') (nttGroup t s) := by
  intro c g hlen _
  obtain ⟨u, v, rfl, hu, hv⟩ := exists_halves hlen
  have huv : u.length = v.length := hu.trans hv.symm
  rw [nttGroup_append s v hu, scale_append, scale_zipWith, scale_zipWith, inttGroup_append _ _ (by simp [hu, hv]),
    zipWith_zipWith_zipWith, zipWith_zipWith_zipWith, scale_append]
  congr 1
  · refine zipWith_eq_scale_left huv fun x _ y _ => eq_of_cast_eq (fadd_lt _ _) (fmul_lt _ _) ?_
    simp only [cast_fadd, cast_fmul, cast_fsub _ (fmul_lt _ _)]
    push_cast
    ring
  · refine zipWith_eq_scale_right huv fun x _ y _ => eq_of_cast_eq (fmul_lt _ _) (fmul_lt _ _) ?_
    simp only [cast_fadd, cast_fmul, cast_fsub _ (fmul_lt _ _)]
    push_cast
    linear_combination 2 * c * y * hs

theorem nttGroup_undoes_inttGroup (t : Nat) {s s' : Nat} (hs : (s : ZMod 12289) * s' = 1) :
    UndoesTwice (2 * t) (nttGroup t s) (inttGroup t s') := by
  intro c g hlen hg
  obtain ⟨u, v, rfl, hu, hv⟩ := exists_halves hlen
  have huv : u.length = v.length := hu.trans hv.symm
  have hv' : ∀ y ∈ v, y < 12289 := fun y hy => hg y (List.mem_append_right u hy)
  rw [inttGroup_append _ v hu, scale_append, scale_zipWith, scale_zipWith, nttGroup_append _ _ (by simp [hu, hv]),
    zipWith_zipWith_zipWith, zipWith_zipWith_zipWith, scale_append]
  congr 1
  · refine zipWith_eq_scale_left huv fun x _ y hy => eq_of_cast_eq (fadd_lt _ _) (fmul_lt _ _) ?_
    simp only [cast_fadd, cast_fmul, cast_fsub x (hv' y hy)]
    push_cast
    linear_combination c * (x - y) * hs
  · refine zipWith_eq_scale_right huv fun x _ y hy => eq_of_cast_eq (fsub_lt _ _) (fmul_lt _ _) ?_
    simp only [cast_fadd, cast_fmul, cast_fsub x (hv' y hy), cast_fsub _ (fmul_lt _ _)]
    push_cast
    linear_combination -c * (x - y) * hs

theorem length_scale (c : Nat) (a : List Nat) : (scale c a).length = a.length := List.length_map _

/-- Where every node's operation undoes another one that keeps the length, so does the stage. -/
theorem groupwise_undoes {f g : Nat → List Nat → List Nat} {w : Nat} (h : ∀ n, UndoesTwice w (f n) (g n))
    (hg : ∀ n a, a.length = w → (g n a).length = w) (ns : List Nat) :
    UndoesTwice (ns.length * w) (groupwise f w ns) (groupwise g w ns) := by
  induction ns with
  | nil =>
    intro c a hlen _
    obtain rfl : a = [] := by simpa using hlen
    rfl
  | cons n ns ih =>
    intro c a hlen ha
    rw [List.length_cons, Nat.add_one_mul] at hlen
    have hfst : (a.take w).length = w := by rw [List.length_take]; omega
    have hrest : (a.drop w).length = ns.length * w := by rw [List.length_drop]; omega
    have hgroup : (scale c (g n (a.take w))).length = w := by rw [length_scale, hg _ _ hfst]
    calc groupwise f w (n :: ns) (scale c (groupwise g w (n :: ns) a))
      _ = f n (scale c (g n (a.take w))) ++ groupwise f w ns (scale c (groupwise g w ns (a.drop w))) := by
        rw [groupwise, groupwise, scale_append, List.take_left' hgroup, List.drop_left' hgroup]
      _ = scale (2 * c) (a.take w) ++ scale (2 * c) (a.drop w) := by
        rw [h n c _ hfst fun x hx => ha x (List.mem_of_mem_take hx), ih c _ hrest fun x hx => ha x (List.mem_of_mem_drop hx)]
      _ = scale (2 * c) a := by rw [← scale_append, List.take_append_drop]

/-- The two stages of `m` groups undo each other. -/
theorem inttStage_undoes_nttStage {m t : Nat} (h : 2 * m ≤ 512 ∧ m * (2 * t) = 512) :
    UndoesTwice 512 (inttStage t (stageEntries itw m)) (nttStage t (stageEntries tw m)) := by
  intro c a hlen ha
  rw [nttStage_eq t h.1, inttStage_eq t h.1]
  refine groupwise_undoes (fun n => inttGroup_undoes_nttGroup t (cast_rootEntry_mul_inverse n))
    (fun n => length_nttGroup t _) _ c a ?_ ha
  rw [List.length_range', hlen, h.2]

theorem nttStage_undoes_inttStage {m t : Nat} (h : 2 * m ≤ 512 ∧ m * (2 * t) = 512) :
    UndoesTwice 512 (nttStage t (stageEntries tw m)) (inttStage t (stageEntries itw m)) := by
  intro c a hlen ha
  rw [nttStage_eq t h.1, inttStage_eq t h.1]
  refine groupwise_undoes (fun n => nttGroup_undoes_inttGroup t (cast_rootEntry_mul_inverse n))
    (fun n => length_inttGroup t _) _ c a ?_ ha
  rw [List.length_range', hlen, h.2]

theorem inttStage_canonical (t : Nat) (ss a : List Nat) : AllCanonical (inttStage t ss a) := by
  induction ss generalizing a with
  | nil => intro x hx; simp [inttStage] at hx
  | cons s rest ih => exact ((allCanonical_zipWith _ fadd_lt _ _).append (allCanonical_map_fmul _ _)).append (ih _)

theorem length_nttStage_tw {m t : Nat} (h : 2 * m ≤ 512 ∧ m * (2 * t) = 512) {a : List Nat} (ha : a.length = 512) :
    (nttStage t (stageEntries tw m) a).length = 512 := by
  rw [length_nttStage _ _ _ (by rw [length_stageEntries _ _ (by rw [tw, length_rootTable]; exact h.1), h.2, ha]), ha]

theorem length_inttStage_itw {m t : Nat} (h : 2 * m ≤ 512 ∧ m * (2 * t) = 512) {a : List Nat} (ha : a.length = 512) :
    (inttStage t (stageEntries itw m) a).length = 512 := by
  rw [length_inttStage _ _ _ (by rw [length_stageEntries _ _ (by rw [itw, length_rootTable]; exact h.1), h.2, ha]), ha]

/-- Stages taken back in the reverse order give the values they began with, times 2 for each stage. -/
theorem foldl_reverse_undoes {f g : List Nat → Nat × Nat → List Nat} {stages : List (Nat × Nat)}
    (h : ∀ st ∈ stages, UndoesTwice 512 (f · st) (g · st))
    (hg : ∀ st ∈ stages, ∀ x, x.length = 512 → (g x st).length = 512 ∧ AllCanonical (g x st))
    (c : Nat) {a : List Nat} (hlen : a.length = 512) (ha : AllCanonical a) :
    stages.reverse.foldl f (scale c (stages.foldl g a)) = scale (2 ^ stages.length * c) a := by
  induction stages generalizing a with
  | nil => simp
  | cons st rest ih =>
    rw [List.forall_mem_cons] at h hg
    obtain ⟨hlen', ha'⟩ := hg.1 a hlen
    calc (st :: rest).reverse.foldl f (scale c ((st :: rest).foldl g a))
      _ = f (rest.reverse.foldl f (scale c (rest.foldl g (g a st)))) st := by simp
      _ = f (scale (2 ^ rest.length * c) (g a st)) st := by rw [ih h.2 hg.2 hlen' ha']
      _ = scale (2 * (2 ^ rest.length * c)) a := h.1 _ a hlen ha
      _ = scale (2 ^ (st :: rest).length * c) a := by rw [List.length_cons, pow_succ', Nat.mul_assoc]

/-- The sizes of the stages fit the table and the register. -/
theorem nttStages_sizes : ∀ st ∈ nttStages, 2 * st.1 ≤ 512 ∧ st.1 * (2 * st.2) = 512 := by decide

theorem inttStages_sizes : ∀ st ∈ inttStages, 2 * st.1 ≤ 512 ∧ st.1 * (2 * st.2) = 512 := by decide

theorem intt_eq (a : List Nat) :
    intt a = scale Config.nInv (inttStages.foldl (fun x st => inttStage st.2 (stageEntries itw st.1) x) a) :=
  List.map_congr_left fun x _ => fmul_comm x _

theorem intt_ntt {a : List Nat} (hlen : a.length = 512) (ha : AllCanonical a) : intt (ntt a) = a := by
  have hstages : inttStages.foldl (fun x st => inttStage st.2 (stageEntries itw st.1) x) (scale 1 (ntt a)) =
      scale (2 ^ 9 * 1) a :=
    foldl_reverse_undoes (fun st hst => inttStage_undoes_nttStage (nttStages_sizes st hst))
      (fun st hst x hx => ⟨length_nttStage_tw (nttStages_sizes st hst) hx, nttStage_canonical _ _ _⟩) 1 hlen ha
  rw [scale_of_cast_eq_one Nat.cast_one (ntt_canonical a)] at hstages
  rw [intt_eq, hstages, scale_scale]
  exact scale_of_cast_eq_one (by decide) ha

theorem ntt_intt {a : List Nat} (hlen : a.length = 512) (ha : AllCanonical a) : ntt (intt a) = a := by
  have hstages : ntt (scale Config.nInv (inttStages.foldl (fun x st => inttStage st.2 (stageEntries itw st.1) x) a)) =
      scale (2 ^ 9 * Config.nInv) a :=
    foldl_reverse_undoes (fun st hst => nttStage_undoes_inttStage (inttStages_sizes st hst))
      (fun st hst x hx => ⟨length_inttStage_itw (inttStages_sizes st hst) hx, inttStage_canonical _ _ _⟩) _ hlen ha
  rw [intt_eq, hstages]
  exact scale_of_cast_eq_one (by decide) ha

/-- Settles O27: each stage takes back the other transform's stage up to a factor of 2, which the final scaling removes. -/
theorem transformsAreInverse : Obligations.TransformsAreInverse := fun _ ⟨hlen, ha⟩ => ⟨intt_ntt hlen ha, ntt_intt hlen ha⟩

/-! ### The forward transform evaluates the polynomial (41_ntt_engine.md R117)

A group of `t` values of a stage is the polynomial reduced modulo `x ^ t - r`, where `r` is the root of the group's node: the two
agree at every `x` with `x ^ t = r`. -/

/-- The root of node `n`: of the single group before the first stage it is -1, of the lanes after the last it is the odd power of 49
at which the lane evaluates. -/
def nodeRoot (n : Nat) : ZMod 12289 := 49 ^ bitReverse 10 n

theorem bitReverse_succ_of_lt {k i : Nat} (h : i < 2 ^ k) : bitReverse (k + 1) i = 2 * bitReverse k i := by
  induction k generalizing i with
  | zero =>
    obtain rfl : i = 0 := by omega
    rfl
  | succ k ih =>
    rw [pow_succ] at h
    rw [bitReverse, ih (by omega), bitReverse, pow_succ]
    ring

theorem bitReverse_add_two_pow {k i : Nat} (h : i < 2 ^ k) : bitReverse (k + 1) (2 ^ k + i) = 2 * bitReverse k i + 1 := by
  induction k generalizing i with
  | zero =>
    obtain rfl : i = 0 := by omega
    rfl
  | succ k ih =>
    rw [pow_succ] at h
    have hhalf : (2 ^ (k + 1) + i) / 2 = 2 ^ k + i / 2 := by omega
    have hbit : (2 ^ (k + 1) + i) % 2 = i % 2 := by omega
    rw [bitReverse, hhalf, hbit, ih (by omega), bitReverse, pow_succ]
    ring

theorem bitReverse_nine (i : Nat) : bitReverse 9 i = brv9 i := by
  simp only [bitReverse, brv9, Finset.sum_range_succ, Finset.sum_range_zero, Nat.div_div_eq_div_mul,
    Nat.reduceSub, Nat.reducePow, Nat.reduceMul]
  omega

theorem forty_nine_pow_two_pow_nine : (49 : ZMod 12289) ^ 2 ^ 9 = -1 := by decide +kernel

theorem nodeRoot_eq_sq {n : Nat} (hn : n < 512) : nodeRoot n = (rootEntry params.psi n : ZMod 12289) ^ 2 := by
  rw [nodeRoot, cast_rootEntry, bitReverse_succ_of_lt hn, mul_comm, pow_mul]
  rfl

theorem nodeRoot_two_mul (n : Nat) : nodeRoot (2 * n) = rootEntry params.psi n := by
  have hhalf : 2 * n / 2 = n := by omega
  rw [nodeRoot, cast_rootEntry, bitReverse, hhalf, Nat.mul_mod_right, zero_mul, zero_add]
  rfl

theorem nodeRoot_two_mul_add_one (n : Nat) : nodeRoot (2 * n + 1) = -rootEntry params.psi n := by
  have hhalf : (2 * n + 1) / 2 = n := by omega
  have hbit : (2 * n + 1) % 2 = 1 := by omega
  rw [nodeRoot, cast_rootEntry, bitReverse, hhalf, hbit, one_mul, pow_add, forty_nine_pow_two_pow_nine, neg_one_mul]
  rfl

theorem nodeRoot_lane {i : Nat} (hi : i < 512) : nodeRoot (512 + i) = 49 ^ (2 * brv9 i + 1) := by
  rw [nodeRoot, ← bitReverse_nine, ← bitReverse_add_two_pow hi]
  rfl

theorem ofDigits_append (x : ZMod 12289) (u v : List Nat) :
    Nat.ofDigits x (u ++ v) = Nat.ofDigits x u + x ^ u.length * Nat.ofDigits x v := by
  induction u with
  | nil => simp [Nat.ofDigits]
  | cons d u ih =>
    rw [List.cons_append, Nat.ofDigits, ih, Nat.ofDigits, List.length_cons]
    ring

/-- A polynomial whose coefficients are `a + c * b` modulo 12289. -/
theorem ofDigits_zipWith {f : Nat → Nat → Nat} {c : ZMod 12289} (hf : ∀ a b, (f a b : ZMod 12289) = a + c * b) (x : ZMod 12289)
    {u v : List Nat} (h : u.length = v.length) :
    Nat.ofDigits x (List.zipWith f u v) = Nat.ofDigits x u + c * Nat.ofDigits x v := by
  induction u generalizing v with
  | nil =>
    obtain rfl := List.length_eq_zero_iff.mp h.symm
    simp [Nat.ofDigits]
  | cons a u ih =>
    obtain ⟨b, v, rfl⟩ := List.exists_cons_of_length_eq_add_one h.symm
    rw [List.zipWith_cons_cons, Nat.ofDigits, hf, ih (Nat.succ.inj h), Nat.ofDigits, Nat.ofDigits]
    ring

/-- The groups of the nodes `ns`, `t` values each, agree with `p` at the points that belong to their nodes. -/
def Reduces (t : Nat) (p : ZMod 12289 → ZMod 12289) : List Nat → List Nat → Prop
  | [], _ => True
  | n :: ns, a => (∀ x, x ^ t = nodeRoot n → Nat.ofDigits x (a.take t) = p x) ∧ Reduces t p ns (a.drop t)

theorem reduces_cons_append {t : Nat} {p : ZMod 12289 → ZMod 12289} {n : Nat} {ns g a : List Nat} (hg : g.length = t) :
    Reduces t p (n :: ns) (g ++ a) ↔ (∀ x, x ^ t = nodeRoot n → Nat.ofDigits x g = p x) ∧ Reduces t p ns a := by
  rw [Reduces, List.take_left' hg, List.drop_left' hg]

/-- A group of the forward stage goes to the groups of the two children of its node. -/
theorem reduces_nttGroup {t n : Nat} {p : ZMod 12289 → ZMod 12289} {g a ns : List Nat} (hn : n < 512) (hg : g.length = 2 * t)
    (h : ∀ x, x ^ (2 * t) = nodeRoot n → Nat.ofDigits x g = p x) (ha : Reduces t p ns a) :
    Reduces t p (2 * n :: (2 * n + 1) :: ns) (nttGroup t (rootEntry params.psi n) g ++ a) := by
  obtain ⟨u, v, rfl, hu, hv⟩ := exists_halves hg
  have huv : u.length = v.length := hu.trans hv.symm
  have hval : ∀ x : ZMod 12289, (x ^ t) ^ 2 = nodeRoot n → Nat.ofDigits x u + x ^ t * Nat.ofDigits x v = p x := fun x hx => by
    rw [← h x (by rw [mul_comm, pow_mul, hx]), ofDigits_append, hu]
  rw [nttGroup_append _ v hu, List.append_assoc, reduces_cons_append (by simp [hu, hv]), reduces_cons_append (by simp [hu, hv])]
  refine ⟨fun x hx => ?_, fun x hx => ?_, ha⟩
  · rw [nodeRoot_two_mul] at hx
    rw [ofDigits_zipWith (c := x ^ t) (fun a b => by rw [cast_fadd, cast_fmul, hx, mul_comm]) x huv]
    exact hval x (by rw [hx, nodeRoot_eq_sq hn])
  · rw [nodeRoot_two_mul_add_one] at hx
    rw [ofDigits_zipWith (c := x ^ t)
      (fun a b => by rw [cast_fsub _ (fmul_lt _ _), cast_fmul, hx, neg_mul, mul_comm, sub_eq_add_neg]) x huv]
    exact hval x (by rw [hx, neg_sq, nodeRoot_eq_sq hn])

/-- The children of a list of nodes. -/
def children (ns : List Nat) : List Nat := ns.flatMap fun n => [2 * n, 2 * n + 1]

theorem children_range' (m k : Nat) : children (List.range' m k) = List.range' (2 * m) (2 * k) := by
  induction k generalizing m with
  | zero => rfl
  | succ k ih =>
    have hnext : 2 * m + 1 + 1 = 2 * (m + 1) := rfl
    rw [List.range'_succ, Nat.mul_succ, List.range'_succ, List.range'_succ, hnext, ← ih]
    rfl

theorem reduces_groupwise {t : Nat} {p : ZMod 12289 → ZMod 12289} {ns a : List Nat} (hns : ∀ n ∈ ns, n < 512)
    (hlen : a.length = ns.length * (2 * t)) (h : Reduces (2 * t) p ns a) :
    Reduces t p (children ns) (groupwise (fun n => nttGroup t (rootEntry params.psi n)) (2 * t) ns a) := by
  induction ns generalizing a with
  | nil => trivial
  | cons n ns ih =>
    rw [List.forall_mem_cons] at hns
    rw [List.length_cons, Nat.add_one_mul] at hlen
    refine reduces_nttGroup hns.1 ?_ h.1 (ih hns.2 ?_ h.2)
    · rw [List.length_take]
      omega
    · rw [List.length_drop]
      omega

/-- The stage of `m` groups, from the nodes `m .. 2 * m - 1` to the nodes `2 * m .. 4 * m - 1`. -/
theorem reduces_nttStage {m t : Nat} {p : ZMod 12289 → ZMod 12289} {a : List Nat} (hm : 2 * m ≤ 512)
    (hlen : a.length = m * (2 * t)) (h : Reduces (2 * t) p (List.range' m m) a) :
    Reduces t p (List.range' (2 * m) (2 * m)) (nttStage t (stageEntries tw m) a) := by
  rw [nttStage_eq t hm, ← children_range']
  refine reduces_groupwise (fun n hn => ?_) (by rwa [List.length_range']) h
  have := List.mem_range'_1.mp hn
  omega

theorem nttStages_eq : nttStages = (List.range 9).map fun k => (2 ^ k, 2 ^ (8 - k)) := by decide

/-- The values after the first `k` stages. -/
def afterStages (k : Nat) (a : List Nat) : List Nat :=
  (List.range k).foldl (fun x k => nttStage (2 ^ (8 - k)) (stageEntries tw (2 ^ k)) x) a

theorem ntt_eq_afterStages (a : List Nat) : ntt a = afterStages 9 a := by
  rw [ntt, nttStages_eq, List.foldl_map]
  rfl

/-- After `k` stages there are `2 ^ k` groups of `2 ^ (9 - k)` values, each the polynomial reduced at its node. -/
theorem reduces_afterStages {a : List Nat} (ha : a.length = 512) {k : Nat} (hk : k ≤ 9) :
    (afterStages k a).length = 512 ∧
      Reduces (2 ^ (9 - k)) (Nat.ofDigits · a) (List.range' (2 ^ k) (2 ^ k)) (afterStages k a) := by
  induction k with
  | zero => exact ⟨ha, fun x _ => congrArg (Nat.ofDigits x) (List.take_of_length_le (le_of_eq ha)), trivial⟩
  | succ k ih =>
    obtain ⟨hlen, hred⟩ := ih (by omega)
    have hstep : afterStages (k + 1) a = nttStage (2 ^ (8 - k)) (stageEntries tw (2 ^ k)) (afterStages k a) := by
      rw [afterStages, List.range_succ, List.foldl_append]
      rfl
    obtain ⟨hm, htotal⟩ := nttStages_sizes (2 ^ k, 2 ^ (8 - k))
      (nttStages_eq ▸ List.mem_map.mpr ⟨k, List.mem_range.mpr hk, rfl⟩)
    have hwidth : 2 * 2 ^ (8 - k) = 2 ^ (9 - k) := by
      rw [← pow_succ']
      congr 1
      omega
    have hexp : 9 - (k + 1) = 8 - k := by omega
    rw [hstep, hexp, pow_succ']
    exact ⟨length_nttStage_tw ⟨hm, htotal⟩ hlen, reduces_nttStage hm (hlen.trans htotal.symm) (hwidth ▸ hred)⟩

/-- Where a group is one value, it is the value of the polynomial at the root of its node. -/
theorem getD_of_reduces_one {p : ZMod 12289 → ZMod 12289} {ns a : List Nat} (h : Reduces 1 p ns a)
    {i : Nat} (hi : i < ns.length) (hlen : a.length = ns.length) : (a.getD i 0 : ZMod 12289) = p (nodeRoot ns[i]) := by
  induction ns generalizing i a with
  | nil => simp at hi
  | cons n ns ih =>
    obtain ⟨x, a, rfl⟩ := List.exists_cons_of_length_eq_add_one hlen
    cases i with
    | zero => simpa [Nat.ofDigits] using h.1 (nodeRoot n) (pow_one _)
    | succ i => exact ih h.2 (Nat.lt_of_succ_lt_succ hi) (Nat.succ.inj hlen)

/-- Lane `i` of the forward transform is the value of the polynomial at its odd power of 49. -/
theorem cast_ntt {a : List Nat} (ha : a.length = 512) {i : Nat} (hi : i < 512) :
    ((ntt a).getD i 0 : ZMod 12289) = Nat.ofDigits (49 ^ (2 * brv9 i + 1) : ZMod 12289) a := by
  obtain ⟨hlen, hred⟩ := reduces_afterStages ha le_rfl
  rw [ntt_eq_afterStages, getD_of_reduces_one hred (by simpa using hi) (by simpa using hlen)]
  simp [nodeRoot_lane hi]

theorem cast_getElem_ntt {a : List Nat} (ha : a.length = 512) {i : Nat} (hi : i < 512) {h : i < (ntt a).length} :
    ((ntt a)[i] : ZMod 12289) = Nat.ofDigits (49 ^ (2 * brv9 i + 1) : ZMod 12289) a := by
  rw [← List.getD_eq_getElem _ 0 h, cast_ntt ha hi]

theorem ofDigits_eq_sum (x : ZMod 12289) (a : List Nat) :
    Nat.ofDigits x a = ∑ j ∈ Finset.range a.length, (a.getD j 0 : ZMod 12289) * x ^ j := by
  induction a with
  | nil => rfl
  | cons d a ih =>
    rw [Nat.ofDigits, ih, List.length_cons, Finset.sum_range_succ', Finset.mul_sum, add_comm]
    simp [pow_succ', mul_left_comm]

theorem getD_lt_of_allCanonical {a : List Nat} (ha : AllCanonical a) (i : Nat) : a.getD i 0 < 12289 := by
  rcases Nat.lt_or_ge i a.length with hi | hi
  · rw [List.getD_eq_getElem _ _ hi]
    exact ha _ (List.getElem_mem hi)
  · rw [List.getD_eq_default _ _ hi]
    decide

/-- Settles O26: after the last stage every group is one lane, whose node is an odd power of 49. -/
theorem forwardTransformEvaluates : Obligations.ForwardTransformEvaluates := by
  intro a ⟨hlen, _⟩ i hi
  refine eq_of_cast_eq (getD_lt_of_allCanonical (ntt_canonical a) i) (Nat.mod_lt _ (by decide)) ?_
  rw [cast_ntt hlen hi, ofDigits_eq_sum, hlen, ZMod.natCast_mod]
  push_cast
  simp [pow_mul]

/-! ### The ring product (41_ntt_engine.md R110, R120) -/

/-- The negacyclic convolution as a list of canonical values. -/
def convolution (a b : List Nat) : List Nat := (List.range 512).map fun k => (negacyclic a b k).toNat

theorem length_convolution (a b : List Nat) : (convolution a b).length = 512 := by simp [convolution]

theorem negacyclic_range (a b : List Nat) (k : Nat) : 0 ≤ negacyclic a b k ∧ negacyclic a b k < 12289 :=
  ⟨Int.emod_nonneg _ (by decide), Int.emod_lt_of_pos _ (by decide)⟩

theorem convolution_canonical (a b : List Nat) : AllCanonical (convolution a b) := by
  intro x hx
  obtain ⟨k, _, rfl⟩ := List.mem_map.mp hx
  obtain ⟨hlo, hhi⟩ := negacyclic_range a b k
  simp only [Config.q]
  omega

theorem getD_convolution (a b : List Nat) {k : Nat} (hk : k < 512) :
    ((convolution a b).getD k 0 : Int) = negacyclic a b k := by
  rw [List.getD_eq_getElem _ _ (by rwa [length_convolution])]
  simp only [convolution, List.getElem_map, List.getElem_range]
  exact Int.toNat_of_nonneg (negacyclic_range a b k).1

theorem cast_negacyclic (a b : List Nat) (k : Nat) :
    (negacyclic a b k : ZMod 12289) = ∑ i ∈ Finset.range 512, ∑ j ∈ Finset.range 512,
      (if i + j = k then (a.getD i 0 : ZMod 12289) * b.getD j 0
       else if i + j = k + 512 then -((a.getD i 0 : ZMod 12289) * b.getD j 0) else 0) := by
  refine (ZMod.intCast_mod _ 12289).trans ?_
  push_cast
  rfl

/-- Where `x ^ 512 = -1`, the lanes to which one product contributes add up to its value. -/
theorem sum_product_lanes {x : ZMod 12289} (hx : x ^ 512 = -1) (c : ZMod 12289) {i j : Nat} (hi : i < 512) (hj : j < 512) :
    ∑ k ∈ Finset.range 512, (if i + j = k then c else if i + j = k + 512 then -c else 0) * x ^ k = c * x ^ (i + j) := by
  rcases Nat.lt_or_ge (i + j) 512 with hlt | hge
  · rw [Finset.sum_eq_single_of_mem (i + j) (Finset.mem_range.mpr hlt) fun k hk hne => ?_, if_pos rfl]
    rw [if_neg (Ne.symm hne), if_neg (by omega), zero_mul]
  · have hwrap : i + j = i + j - 512 + 512 := by omega
    rw [Finset.sum_eq_single_of_mem (i + j - 512) (Finset.mem_range.mpr (by omega)) fun k hk hne => ?_]
    · rw [if_neg (by omega), if_pos hwrap]
      nth_rw 2 [hwrap]
      rw [pow_add, hx]
      ring
    · have hk := Finset.mem_range.mp hk
      rw [if_neg (by omega), if_neg (by omega), zero_mul]

/-- At a root of `x ^ 512 + 1` the convolution takes the product of the two values. -/
theorem ofDigits_convolution {x : ZMod 12289} (hx : x ^ 512 = -1) {a b : List Nat} (ha : a.length = 512) (hb : b.length = 512) :
    Nat.ofDigits x (convolution a b) = Nat.ofDigits x a * Nat.ofDigits x b := by
  have hlane : ∀ k ∈ Finset.range 512, ((convolution a b).getD k 0 : ZMod 12289) * x ^ k =
      (negacyclic a b k : ZMod 12289) * x ^ k := fun k hk => by
    rw [← getD_convolution a b (Finset.mem_range.mp hk), Int.cast_natCast]
  rw [ofDigits_eq_sum, length_convolution, Finset.sum_congr rfl hlane]
  simp only [cast_negacyclic, Finset.sum_mul]
  rw [Finset.sum_comm, ofDigits_eq_sum, ofDigits_eq_sum, ha, hb, Finset.sum_mul_sum]
  refine Finset.sum_congr rfl fun i hi => ?_
  rw [Finset.sum_comm]
  refine Finset.sum_congr rfl fun j hj => ?_
  rw [sum_product_lanes hx _ (Finset.mem_range.mp hi) (Finset.mem_range.mp hj)]
  ring

/-- The odd powers of 49 are roots of `x ^ 512 + 1` (41_ntt_engine.md R111). -/
theorem odd_pow_pow_512 (e : Nat) : ((49 : ZMod 12289) ^ (2 * e + 1)) ^ 512 = -1 := by
  have h512 : (49 : ZMod 12289) ^ 512 = -1 := forty_nine_pow_two_pow_nine
  rw [pow_right_comm, h512, Odd.neg_one_pow ⟨e, rfl⟩]

/-- The transform takes the convolution to the product lane by lane (41_ntt_engine.md R117). -/
theorem ntt_convolution {a b : List Nat} (ha : a.length = 512) (hb : b.length = 512) :
    ntt (convolution a b) = List.zipWith fmul (ntt a) (ntt b) := by
  have hc := length_ntt _ (length_convolution a b)
  refine List.ext_getElem (by simp [hc, length_ntt, ha, hb]) fun i h1 h2 => ?_
  have hi : i < 512 := hc ▸ h1
  rw [List.getElem_zipWith]
  refine eq_of_cast_eq (ntt_canonical _ _ (List.getElem_mem h1)) (fmul_lt _ _) ?_
  rw [cast_fmul, cast_getElem_ntt (length_convolution a b) hi, cast_getElem_ntt ha hi, cast_getElem_ntt hb hi,
    ofDigits_convolution (odd_pow_pow_512 _) ha hb]

theorem mulring_eq_convolution {a b : List Nat} (ha : a.length = 512) (hb : b.length = 512) : mulring a b = convolution a b := by
  rw [mulring, ← ntt_convolution ha hb, intt_ntt (length_convolution a b) (convolution_canonical a b)]

/-- Settles O28: the transform of the convolution is the product lane by lane, and the inverse transform takes it back. -/
theorem ringProductIsNegacyclic : Obligations.RingProductIsNegacyclic := fun a b ⟨ha, _⟩ ⟨hb, _⟩ =>
  ⟨rfl, length_mulring a b ha hb, fun k hk => by rw [mulring_eq_convolution ha hb, getD_convolution a b hk]⟩

end Sys2Proof.Machine

/-! PROOFS. The pointwise unit (42_pointwise.md): what `PMUL`, `PSUB`, `PCTR` and `PCAN` answer lane by lane (R132 to R135), and that
`PCTR` and `PCAN` take each other back (R136). -/

namespace Sys2Proof.Machine

open Sys2Proof.Cert

/-! ### The lanes of a register as integers -/

theorem poly_eq_of_laneInt_eq {u v : Poly} (h : ∀ i < 512, laneInt u i = laneInt v i) : u = v := by
  refine Vector.ext fun i hi => BitVec.eq_of_toInt_eq ?_
  rw [← laneInt_eq_getElem u hi, h i hi, laneInt_eq_getElem v hi]

theorem getElem_signedLanes_eq_laneInt (v : Poly) {i : Nat} (hi : i < 512) :
    (signedLanes v)[i]'(by simpa using hi) = laneInt v i := by
  rw [getElem_signedLanes v i hi, laneInt_eq_getElem v hi]

theorem forall_mem_signedLanes_iff {lo hi : Int} {v : Poly} :
    (∀ x ∈ signedLanes v, lo ≤ x ∧ x ≤ hi) ↔ Within lo hi v := by
  rw [List.forall_mem_iff_getElem]
  refine ⟨fun h i hi' => ?_, fun h i hi' => ?_⟩
  · rw [← getElem_signedLanes_eq_laneInt v hi']
    exact h i _
  · rw [length_signedLanes] at hi'
    rw [getElem_signedLanes_eq_laneInt v hi']
    exact h i hi'

/-- A register in the range is read as its signed lanes (42_pointwise.md R131). -/
theorem rangedLanes_of_within {lo hi : Int} {v : Poly} (h : Within lo hi v) : rangedLanes lo hi v = some (signedLanes v) :=
  (rangedLanes_eq_some lo hi v _).mpr ⟨rfl, forall_mem_signedLanes_iff.mpr h⟩

theorem rangedLanes_of_not_within {lo hi : Int} {v : Poly} (h : ¬Within lo hi v) : rangedLanes lo hi v = none := by
  refine Option.eq_none_iff_forall_ne_some.mpr fun l hl => h ?_
  obtain ⟨rfl, hb⟩ := (rangedLanes_eq_some lo hi v l).mp hl
  exact forall_mem_signedLanes_iff.mp hb

/-- The unsigned and the signed lanes of a canonical register are the same numbers (41_ntt_engine.md R116). -/
theorem cast_getElem_coefs {v : Poly} (h : Canonical v) {i : Nat} (hi : i < 512) :
    ((coefs v)[i]'(by rwa [length_coefs]) : Int) = laneInt v i := by
  obtain ⟨-, -, he⟩ := (canonicalLanes_eq_some v _).mp (canonicalLanes_of_canonical h)
  rw [← getElem_signedLanes_eq_laneInt v hi]
  simp [he]

theorem coefs_canonical {v : Poly} (h : Canonical v) : AllCanonical (coefs v) := by
  obtain ⟨-, hlt, -⟩ := (canonicalLanes_eq_some v _).mp (canonicalLanes_of_canonical h)
  exact hlt

/-! ### Written lanes -/

theorem laneInt_of_writesLanes {s t : State} {rd : PReg} {f : Nat → Int} (h : WritesLanes s t rd f) {i : Nat} (hi : i < 512) :
    laneInt (t.poly rd) i = f i := h.1 i hi

theorem writesLanes_congr {s t : State} {rd : PReg} {f g : Nat → Int} (hfg : ∀ i < 512, f i = g i)
    (h : WritesLanes s t rd f) : WritesLanes s t rd g :=
  ⟨fun i hi => (laneInt_of_writesLanes h hi).trans (hfg i hi), h.2⟩

theorem within_of_writesLanes {s t : State} {rd : PReg} {f : Nat → Int} {lo hi : Int} (h : WritesLanes s t rd f)
    (hf : ∀ i < 512, lo ≤ f i ∧ f i ≤ hi) : Within lo hi (t.poly rd) := fun i hi' =>
  (laneInt_of_writesLanes h hi').symm ▸ hf i hi'

/-- What a command leaves that writes 512 signed 16-bit values to a register and ends without error. -/
theorem writesLanes_polyOfInts (s : State) (rd : PReg) {l : List Int} (hlen : l.length = 512)
    (hl : ∀ x ∈ l, -(2 ^ 15) ≤ x ∧ x < 2 ^ 15) :
    WritesLanes s (complete (writePoly rd (polyOfInts l) s)) rd fun i => l.getD i 0 := by
  have hpoly : (complete (writePoly rd (polyOfInts l) s)).poly rd = polyOfInts l := by simp [State.poly]
  rw [WritesLanes, hpoly]
  refine ⟨fun i hi => ?_, rfl⟩
  rw [laneInt_eq_getElem _ hi, toInt_polyOfInts l hlen hl i hi, List.getD_eq_getElem _ _ (hlen ▸ hi)]

/-! ### `PMUL` and `PSUB` -/

/-- A command of two canonical registers that works lane by lane, in the words of the statements (42_pointwise.md R131). -/
theorem lanewiseBinary_result {f : Nat → Nat → Nat} {g : Int → Int → Int} (hf : ∀ x y, f x y < Config.q)
    (hfg : ∀ x y : Nat, y < 12289 → (f x y : Int) = g x y) (rd rs1 rs2 : PReg) (s : State) :
    (Canonical (s.poly rs1) → Canonical (s.poly rs2) → ∃ t, canonicalBinary (List.zipWith f) rd rs1 rs2 s = .next t ∧
      WritesLanes s t rd fun i => g (laneInt (s.poly rs1) i) (laneInt (s.poly rs2) i)) ∧
    (¬(Canonical (s.poly rs1) ∧ Canonical (s.poly rs2)) →
      canonicalBinary (List.zipWith f) rd rs1 rs2 s = .next (ended .operandRange s)) := by
  obtain ⟨hok, hrefused⟩ := canonicalBinary_result (f := List.zipWith f) (fun a b ha hb => by simp [ha, hb])
    (allCanonical_zipWith f hf) rd rs1 rs2 s
  refine ⟨fun h1 h2 => ?_, hrefused⟩
  obtain ⟨t, ht, hw⟩ := hok h1 h2
  refine ⟨t, ht, writesLanes_congr (fun i hi => ?_) hw⟩
  rw [List.getD_eq_getElem _ _ (by simpa [length_coefs] using hi), List.getElem_zipWith,
    hfg _ _ (coefs_canonical h2 _ (List.getElem_mem _)), cast_getElem_coefs h1 hi, cast_getElem_coefs h2 hi]

/-- Settles O29: lane by lane with `fmul`. -/
theorem pmulResult : Obligations.PmulResult := fun rd rs1 rs2 s =>
  ⟨by revert rd rs1 rs2; decide,
    lanewiseBinary_result (g := fun x y => x * y % 12289) fmul_lt (fun x y _ => by simp [fmul_eq_mod]) rd rs1 rs2 s⟩

/-- Settles O30: lane by lane with `fsub`, whose value is the residue of the integer difference. -/
theorem psubResult : Obligations.PsubResult := fun rd rs1 rs2 s =>
  ⟨by revert rd rs1 rs2; decide,
    lanewiseBinary_result (g := fun x y => (x - y) % 12289) fsub_lt (fun x _ hy => fsub_eq_emod x hy) rd rs1 rs2 s⟩

/-! ### `PCTR` and `PCAN` -/

theorem execPctr_of_canonical (rd : PReg) {rs1 : PReg} {s : State} (h : Canonical (s.poly rs1)) :
    execPctr rd rs1 s = .next (complete (writePoly rd (polyOfInts ((coefs (s.poly rs1)).map center)) s)) := by
  rw [execPctr, canonicalLanes_of_canonical h]

theorem execPctr_of_not_canonical (rd : PReg) {rs1 : PReg} {s : State} (h : ¬Canonical (s.poly rs1)) :
    execPctr rd rs1 s = .next (ended .operandRange s) := by
  rw [execPctr, canonicalLanes_of_not_canonical h, raise_eq_ended]

theorem execPcan_of_within (rd : PReg) {rs1 : PReg} {s : State} (h : Within (-12288) 12288 (s.poly rs1)) :
    execPcan rd rs1 s = .next (complete (writePoly rd (polyOfNats ((signedLanes (s.poly rs1)).map canon)) s)) := by
  rw [execPcan, rangedLanes_of_within h]

theorem execPcan_of_not_within (rd : PReg) {rs1 : PReg} {s : State} (h : ¬Within (-12288) 12288 (s.poly rs1)) :
    execPcan rd rs1 s = .next (ended .operandRange s) := by
  rw [execPcan, rangedLanes_of_not_within h, raise_eq_ended]

/-- `PCTR` of a canonical register writes the centered lanes (42_pointwise.md R134). -/
theorem execPctr_writesLanes (rd : PReg) {rs1 : PReg} {s : State} (h : Canonical (s.poly rs1)) :
    ∃ t, execPctr rd rs1 s = .next t ∧ WritesLanes s t rd fun i =>
      if laneInt (s.poly rs1) i ≤ 6144 then laneInt (s.poly rs1) i else laneInt (s.poly rs1) i - 12289 := by
  have hlen : ((coefs (s.poly rs1)).map center).length = 512 := by rw [List.length_map, length_coefs]
  have hrange : ∀ x ∈ (coefs (s.poly rs1)).map center, -(2 ^ 15) ≤ x ∧ x < 2 ^ 15 := by
    refine List.forall_mem_map.mpr fun x hx => ?_
    obtain ⟨hlo, hhi⟩ := center_range x (coefs_canonical h x hx)
    omega
  refine ⟨_, execPctr_of_canonical rd h, writesLanes_congr (fun i hi => ?_) (writesLanes_polyOfInts s rd hlen hrange)⟩
  rw [List.getD_eq_getElem _ _ (hlen ▸ hi), List.getElem_map, center_eq_ite, ← cast_getElem_coefs h hi]
  simp only [Nat.cast_le_ofNat]

/-- `PCAN` of a register in its range writes the residues (42_pointwise.md R135). -/
theorem execPcan_writesLanes (rd : PReg) {rs1 : PReg} {s : State} (h : Within (-12288) 12288 (s.poly rs1)) :
    ∃ t, execPcan rd rs1 s = .next t ∧ WritesLanes s t rd fun i => laneInt (s.poly rs1) i % 12289 := by
  have hlen : ((signedLanes (s.poly rs1)).map canon).length = 512 := by rw [List.length_map, length_signedLanes]
  have hcanon : AllCanonical ((signedLanes (s.poly rs1)).map canon) := List.forall_mem_map.mpr fun v hv => by
    obtain ⟨hlo, hhi⟩ := forall_mem_signedLanes_iff.mpr h v hv
    exact canon_lt v hlo hhi
  refine ⟨_, execPcan_of_within rd h, writesLanes_congr (fun i hi => ?_) (writesLanes_polyOfNats s rd hlen hcanon)⟩
  obtain ⟨hlo, hhi⟩ := h i hi
  rw [List.getD_eq_getElem _ _ (hlen ▸ hi), List.getElem_map, getElem_signedLanes_eq_laneInt _ hi,
    canon_eq_emod (by omega) (by omega)]

/-- Settles O31: the lanes of a canonical register are centered one by one. -/
theorem pctrResult : Obligations.PctrResult := fun rd rs1 _ =>
  ⟨by revert rd rs1; decide, execPctr_writesLanes rd, execPctr_of_not_canonical rd⟩

/-- Settles O32: the lanes of a register in the range are reduced one by one. -/
theorem pcanResult : Obligations.PcanResult := fun rd rs1 _ =>
  ⟨by revert rd rs1; decide, execPcan_writesLanes rd, execPcan_of_not_within rd⟩

/-- Settles O33: the lanes the first command leaves are in the range of the second, which takes each of them back. -/
theorem pcanPctrRestore : Obligations.PcanPctrRestore := by
  refine fun rd rs1 s => ⟨fun h => ?_, fun h => ?_⟩
  · have hwithin : Within (-12288) 12288 (s.poly rs1) := fun i hi => by
      obtain ⟨hlo, hhi⟩ := h i hi
      omega
    obtain ⟨t, ht, hpcan⟩ := execPcan_writesLanes rd hwithin
    have hcanonical : Canonical (t.poly rd) := within_of_writesLanes hpcan fun i _ => by omega
    obtain ⟨u, hu, hpctr⟩ := execPctr_writesLanes rd hcanonical
    refine ⟨t, u, ht, hu, poly_eq_of_laneInt_eq fun i hi => ?_⟩
    obtain ⟨hlo, hhi⟩ := h i hi
    simp only [laneInt_of_writesLanes hpctr hi, laneInt_of_writesLanes hpcan hi]
    split <;> omega
  · obtain ⟨t, ht, hpctr⟩ := execPctr_writesLanes rd h
    have hwithin : Within (-12288) 12288 (t.poly rd) := within_of_writesLanes hpctr fun i hi => by
      obtain ⟨hlo, hhi⟩ := h i hi
      split <;> omega
    obtain ⟨u, hu, hpcan⟩ := execPcan_writesLanes rd hwithin
    refine ⟨t, u, ht, hu, poly_eq_of_laneInt_eq fun i hi => ?_⟩
    obtain ⟨hlo, hhi⟩ := h i hi
    simp only [laneInt_of_writesLanes hpcan hi, laneInt_of_writesLanes hpctr hi]
    split <;> omega

end Sys2Proof.Machine

/-! PROOFS. The sponge unit (43_sponge_keccak.md): the steps of a round and the permutation (R141 to R149), the sponge byte by byte
(R151), and what `KECF`, `SHINIT`, `SHABS`, `SHFIN` and `SHSQZ` answer (R150 to R158). -/

namespace Sys2Proof.Machine

open Sys2Proof.Cert

/-! ### The steps of a round, lane by lane -/

theorem laneAt_map_range (f : Nat → Word64) {n j : Nat} (h : j < n) : laneAt ((List.range n).map f) j = f j := by
  simp [laneAt_eq_getD, h]

theorem lane_theta (v : Lanes) {x y : Nat} (hx : x < 5) (hy : y < 5) :
    lane (theta v) (x + 5 * y) =
      lane v (x + 5 * y) ^^^ (columnParity v ((x + 4) % 5) ^^^ (columnParity v ((x + 1) % 5)).rotateLeft 1) := by
  have hcol : (x + 5 * y) % 5 = x := by omega
  rw [theta, lane_tabulate _ _ (by omega), hcol, laneAt_map_range _ hx, laneAt_map_range _ (Nat.mod_lt _ (by decide)),
    laneAt_map_range _ (Nat.mod_lt _ (by decide)), rol64]

/-- The slot formula of 43_sponge_keccak.md R145: lane `x + 5*y` is the one that arrives at slot `y + 5*((2*x + 3*y) mod 5)`. -/
theorem idxOf_piSlots : ∀ x < 5, ∀ y < 5, piSlots.idxOf (y + 5 * ((2 * x + 3 * y) % 5)) = x + 5 * y := by decide

theorem rhoOffsets_eq : rhoOffsets = rho := by decide

theorem lane_piRho (v : Lanes) {x y : Nat} (hx : x < 5) (hy : y < 5) :
    lane (piRho v) (y + 5 * ((2 * x + 3 * y) % 5)) = (lane v (x + 5 * y)).rotateLeft (rho.getD (x + 5 * y) 0) := by
  rw [piRho, lane_tabulate _ _ (by omega), idxOf_piSlots x hx y hy, rol64, rhoOffsets_eq]

theorem lane_chi (v : Lanes) {x y : Nat} (hx : x < 5) (hy : y < 5) :
    lane (chi v) (x + 5 * y) =
      lane v (x + 5 * y) ^^^ (~~~(lane v ((x + 1) % 5 + 5 * y)) &&& lane v ((x + 2) % 5 + 5 * y)) := by
  have hrow : (x + 5 * y) / 5 = y := by omega
  have hnext : (x + 5 * y + 1) % 5 = (x + 1) % 5 := by omega
  have hafter : (x + 5 * y + 2) % 5 = (x + 2) % 5 := by omega
  rw [chi, lane_tabulate _ _ (by omega), hrow, hnext, hafter]

theorem lane_iota (rc : Word64) (v : Lanes) {j : Nat} (hj : j < 25) :
    lane (iota rc v) j = if j = 0 then lane v 0 ^^^ rc else lane v j := by
  rw [iota, lane_tabulate _ _ hj]
  split
  case isTrue h => rw [h]
  case isFalse => rfl

/-- Settles O35: each step is a table of 25 lanes; the table of `pi_rho` is read backwards by the slot formula. -/
theorem keccakStepsFollowTheirFormulas : Obligations.KeccakStepsFollowTheirFormulas := fun v _ _ hx hy =>
  ⟨lane_theta v hx hy, lane_piRho v hx hy, lane_chi v hx hy, fun rc => lane_iota rc v (by omega)⟩

/-! ### The permutation -/

theorem roundConstants_eq : roundConstants = (List.range 24).map rc := by decide

/-- The permutation by the number of the round (43_sponge_keccak.md R141, R143). -/
theorem keccakF_eq_foldl_range (v : Lanes) :
    keccakF v = (List.range 24).foldl (fun x r => iota (rc r) (chi (piRho (theta x)))) v := by
  rw [keccakF, roundConstants_eq, List.foldl_map]
  rfl

/-- Settles O36: the constants are those of the table; the check values of R149 by evaluation. -/
theorem kecfResult : Obligations.KecfResult :=
  ⟨by decide, fun _ => rfl, keccakF_eq_foldl_range, by decide +kernel, by decide +kernel, by decide +kernel⟩

/-- Settles O37: `SHINIT` reads nothing. -/
theorem shinitResult : Obligations.ShinitResult := ⟨by decide, fun _ => rfl⟩

/-! ### The sponge, byte by byte -/

/-- A state byte after an exclusive-or into one of them, where the others take a zero byte (20_memory.md R55). -/
theorem stateByte_xorStateByte (v : Lanes) (x : Byte) {k j : Nat} (hk : k < 200) (hj : j < 200) :
    stateByte (xorStateByte v k x) j = stateByte v j ^^^ (if j = k then x else 0#8) := by
  obtain ⟨-, hbytes⟩ := stateByteView v k hk
  rw [hbytes x j hj]
  split
  case isTrue h => rw [h]
  case isFalse => rw [BitVec.xor_zero]

theorem absorb_singleton (sp : Sponge) (x : Byte) : absorb sp [x] = absorbByte sp x := rfl

/-- Settles O39: `absorb` folds `absorbByte` over the bytes, which permutes where it fills the block. -/
theorem absorbIsByteWise : Obligations.AbsorbIsByteWise := by
  refine fun sp x l hcur => ⟨rfl, rfl, fun hpart => ?_, fun hlast => ?_⟩
  · rw [absorb_singleton, absorbByte_part sp x (by omega)]
    refine ⟨rfl, fun k hk => (stateByte_xorStateByte sp.ks x (by omega) hk).trans ?_⟩
    rw [apply_ite (stateByte sp.ks k ^^^ ·), BitVec.xor_zero]
  · rw [absorb_singleton, absorbByte_full sp x (by omega), hlast]
    exact ⟨rfl, rfl⟩

/-- The padding: the suffix at the cursor and `0x80` in the last byte of the rate portion (43_sponge_keccak.md R157). -/
theorem stateByte_finishSponge (sp : Sponge) {k : Nat} (hk : k < 200) :
    stateByte (finishSponge sp).ks k =
      stateByte sp.ks k ^^^ (if k = sp.cur.val then 0x1F#8 else 0#8) ^^^ (if k = 135 then 0x80#8 else 0#8) := by
  have hcur : sp.cur.val < 200 := by omega
  simp only [finishSponge, stateByte_xorStateByte _ _ (by decide : Config.rate - 1 < 200) hk,
    stateByte_xorStateByte _ _ hcur hk]
  rfl

/-! ### `SHABS` -/

section
variable {sel : Fin 4} {s : State} (hsel : selectorLegal sel = true)
include hsel

theorem execShabs_of_squeezing (hmode : s.kmode = .squeezing) : execShabs sel s = .next (ended .spongeMode s) := by
  simp [execShabs, hsel, hmode, raise_eq_ended]

theorem execShabs_of_sourceError {k : ErrorKind} (hmode : s.kmode = .absorbing) (hk : absorbSource sel s = .error k) :
    execShabs sel s = .next (ended k s) := by
  simp [execShabs, hsel, hmode, hk, raise_eq_ended]

theorem execShabs_of_sourceBytes {l : List Byte} (hmode : s.kmode = .absorbing) (hl : absorbSource sel s = .bytes l) :
    execShabs sel s = .next (ended .ok (s.setSponge (absorb s.sponge l))) := by
  simp [execShabs, hsel, hmode, hl, complete_eq_ended]

end

theorem sourceBytes_of_holds {s : State} {sp : ByteSpace} {size k : Nat} {l : List Byte}
    (hw : Memory.wf size (s.space sp) = true) (hlen : l.length = k) (hl : Holds (s.space sp) l) :
    sourceBytes s sp k = .bytes l := by
  rw [sourceBytes, (memRead_eq_some size _ k l hw).mpr ⟨hlen, hl⟩]

theorem absorbSource_message_of_long {s : State} (h : s.msgMax < s.mlen.toNat) :
    absorbSource 1 s = .error .lengthRange := if_pos h

theorem absorbSource_message_of_fits {s : State} (h : s.mlen.toNat ≤ s.msgMax) :
    absorbSource 1 s = sourceBytes s .msgbuf s.mlen.toNat := if_neg (Nat.not_lt.mpr h)

/-- Settles O38: by the mode, then by what the source is. -/
theorem shabsResult : Obligations.ShabsResult := by
  refine ⟨by decide, by decide, fun s l => ⟨fun hmode => ?_, fun hmode hw hlen hl => ?_, fun hmode hlong => ?_,
    fun hmode hfits hw hlen hl => ?_, rfl, rfl⟩⟩
  · exact ⟨execShabs_of_squeezing rfl hmode, execShabs_of_squeezing rfl hmode⟩
  · exact execShabs_of_sourceBytes rfl hmode (sourceBytes_of_holds (sp := .salt) hw hlen hl)
  · exact execShabs_of_sourceError rfl hmode (absorbSource_message_of_long hlong)
  · have hsource : absorbSource 1 s = .bytes l :=
      (absorbSource_message_of_fits hfits).trans (sourceBytes_of_holds (sp := .msgbuf) hw hlen hl)
    exact execShabs_of_sourceBytes rfl hmode hsource

/-! ### `SHFIN` and `SHSQZ` -/

theorem execShfin_of_squeezing {s : State} (h : s.kmode = .squeezing) : execShfin s = .next (ended .spongeMode s) := by
  rw [execShfin, h, raise_eq_ended]

theorem execShfin_of_absorbing {s : State} (h : s.kmode = .absorbing) :
    execShfin s = .next (ended .ok { s with ks := (finishSponge s.sponge).ks, kcur := 136, kmode := .squeezing }) := by
  rw [execShfin, h]
  rfl

/-- Settles O40: by the mode; the bytes by those of the padding. -/
theorem shfinResult : Obligations.ShfinResult :=
  ⟨by decide, fun s => ⟨execShfin_of_squeezing, fun h =>
    ⟨_, execShfin_of_absorbing h, rfl, fun _ hk => stateByte_finishSponge s.sponge hk⟩⟩⟩

theorem execShsqz_of_absorbing {s : State} (h : s.kmode = .absorbing) : execShsqz s = .next (ended .spongeMode s) := by
  rw [execShsqz, h, raise_eq_ended]

theorem execShsqz_of_squeezing {s : State} (h : s.kmode = .squeezing) :
    execShsqz s = .next (ended .ok
      { s.setSponge (squeezeByte s.sponge).2 with r := (squeezeByte s.sponge).1.setWidth 16 }) := by
  rw [execShsqz, h]
  rfl

/-- Settles O41: by the mode, then by whether the rate portion is used up. -/
theorem shsqzResult : Obligations.ShsqzResult := by
  refine ⟨by decide, fun s => ⟨execShsqz_of_absorbing, fun hmode hinside => ?_, fun hmode hused => ?_⟩⟩
  · refine ⟨_, execShsqz_of_squeezing hmode, ?_⟩
    rw [squeezeByte_inside s.sponge hinside]
    exact ⟨rfl, rfl⟩
  · refine (execShsqz_of_squeezing hmode).trans ?_
    rw [squeezeByte_exhausted s.sponge hused]
    rfl

/-! ### The modes -/

theorem execH2p_of_absorbing (rd : PReg) {s : State} (h : s.kmode = .absorbing) :
    execH2p rd s = .next (ended .spongeMode s) := by
  rw [execH2p, h, raise_eq_ended]

theorem execShfin_leaves_squeezing {s t : State} (h : execShfin s = .next t) : t.kmode = .squeezing := by
  rcases execShfin_cases s with ⟨hmode, e⟩ | ⟨-, e⟩ <;> cases e.symm.trans h
  · exact hmode
  · rfl

/-- Only `SHINIT`, `SHFIN` and `VERIFY` move the mode (43_sponge_keccak.md R150, 47_verify_orchestrator.md R222). -/
theorem exec_writes_kmode {i : Instr} {s t : State} (h : exec i s = .next t) (hk : t.kmode ≠ s.kmode) :
    i = .shinit ∨ i = .shfin ∨ i = .verify := by
  by_cases hi : i = .verify
  · exact .inr (.inr hi)
  · exact ((commandEnd_of_exec hi h).writes_kmode hk).imp_right .inl

/-- Settles O42: the wrong mode is looked at first; the mode is moved by the commands that can end with another one. -/
theorem spongeModeRules : Obligations.SpongeModeRules := by
  refine ⟨fun s hmode => ⟨fun sel hsel => ?_, execShfin_of_squeezing hmode⟩,
    fun s hmode => ⟨execShsqz_of_absorbing hmode, fun rd => execH2p_of_absorbing rd hmode⟩,
    fun s t h => ?_, fun s t h => execShfin_leaves_squeezing h, fun s t h => ?_,
    fun i s t h hk => exec_writes_kmode h hk⟩
  · exact execShabs_of_squeezing (decide_eq_true hsel) hmode
  · cases h
    rfl
  · cases h
    exact ⟨rfl, rfl⟩

end Sys2Proof.Machine

/-! PROOFS. The hash-to-point unit (44_hash_to_point.md): the stream chunk by chunk, where the sampling loop ends (R170, R172), and
what `H2P` answers (R173). The laws of the stream are stated here, so that no proof rests on the model's tests. -/

namespace Sys2Proof.Machine

open Sys2Proof.Cert

/-! ### The stream, chunk by chunk -/

theorem accepted_succ (k : Nat) (sp : Sponge) :
    accepted (k + 1) sp = if (nextChunk sp).1 < 61445 then (nextChunk sp).1 :: accepted k (nextChunk sp).2
      else accepted k (nextChunk sp).2 := by
  have hcons : chunks (squeezed (2 * (k + 1)) sp).1 =
      (nextChunk sp).1 :: chunks (squeezed (2 * k) (nextChunk sp).2).1 := rfl
  simp only [accepted, hcons, List.filter_cons, decide_eq_true_eq]

theorem length_accepted (k : Nat) (sp : Sponge) : (accepted k sp).length = acceptedCount k sp := by
  induction k generalizing sp with
  | zero => rfl
  | succ k ih =>
    rw [accepted_succ, acceptedCount, ← ih, apply_ite List.length, List.length_cons]
    split <;> omega

/-- A chunk is two squeezed bytes (R170). -/
theorem squeezed_two_mul_sponge (k : Nat) (sp : Sponge) : (squeezed (2 * k) sp).2 = afterChunks k sp := by
  induction k generalizing sp with
  | zero => rfl
  | succ k ih => exact ih (nextChunk sp).2

/-! ### Where the sampling loop ends -/

@[simp] theorem sample_need_zero (fuel : Nat) (sp : Sponge) (acc : List Nat) :
    sample fuel 0 sp acc = some (acc.reverse, sp) := by
  cases fuel <;> rfl

theorem sample_succ (fuel need : Nat) (sp : Sponge) (acc : List Nat) :
    sample (fuel + 1) (need + 1) sp acc =
      if (nextChunk sp).1 < 61445 then sample fuel need (nextChunk sp).2 ((nextChunk sp).1 % 12289 :: acc)
      else sample fuel (need + 1) (nextChunk sp).2 acc := rfl

/-- The loop ends after the first `k` chunks that hold as many accepted ones as were asked for (R170). -/
theorem sample_of_first {k fuel need : Nat} {sp : Sponge} (hk : k ≤ fuel) (hlen : (accepted k sp).length = need)
    (hfirst : ∀ j < k, (accepted j sp).length < need) (acc : List Nat) :
    sample fuel need sp acc = some (acc.reverse ++ (accepted k sp).map (· % 12289), afterChunks k sp) := by
  induction k generalizing fuel need sp acc with
  | zero =>
    obtain rfl : 0 = need := hlen
    simp [accepted, squeezed, chunks, afterChunks]
  | succ k ih =>
    obtain ⟨fuel, rfl⟩ : ∃ f, fuel = f + 1 := ⟨fuel - 1, by omega⟩
    obtain ⟨need, rfl⟩ : ∃ n, need = n + 1 := ⟨need - 1, by have := hfirst 0 k.succ_pos; omega⟩
    have hfirst' : ∀ j < k, (accepted (j + 1) sp).length < need + 1 := fun j hj => hfirst (j + 1) (by omega)
    have hk' : k ≤ fuel := by omega
    rw [sample_succ, accepted_succ, afterChunks]
    by_cases hw : (nextChunk sp).1 < 61445
    · simp only [accepted_succ, if_pos hw, List.length_cons, Nat.add_lt_add_iff_right,
        Nat.add_right_cancel_iff] at hlen hfirst' ⊢
      simp [ih hk' hlen hfirst']
    · simp only [accepted_succ, if_neg hw] at hlen hfirst' ⊢
      exact ih hk' hlen hfirst' acc

/-- The fuel reaches every number of chunks that is the first to hold 512 accepted ones (R172; log 7). -/
theorem le_sampleFuel_of_first {k : Nat} {sp : Sponge} (hlen : (accepted k sp).length = 512)
    (hfirst : ∀ j < k, (accepted j sp).length < 512) : k ≤ sampleFuel := by
  by_contra hk
  have hnone : sample sampleFuel 512 sp [] = none := by
    rw [sample_eq_none, ← length_accepted]
    exact hfirst sampleFuel (by omega)
  have := (sample_never_ends_iff sp).mp hnone k
  rw [← length_accepted] at this
  omega

/-! ### `H2P` -/

theorem execH2p_of_first (rd : PReg) {s : State} {k : Nat} (hmode : s.kmode = .squeezing)
    (hlen : (accepted k s.sponge).length = 512) (hfirst : ∀ j < k, (accepted j s.sponge).length < 512) :
    execH2p rd s = .next (complete (writePoly rd (polyOfNats ((accepted k s.sponge).map (· % 12289)))
      (s.setSponge (squeezed (2 * k) s.sponge).2))) := by
  rw [execH2p, hmode, squeezed_two_mul_sponge]
  simp only [sample_of_first (le_sampleFuel_of_first hlen hfirst) hlen hfirst, Config.n, List.reverse_nil, List.nil_append]

theorem execH2p_faults_iff (rd : PReg) {s : State} (hmode : s.kmode = .squeezing) :
    execH2p rd s = .fault .sampleNeverEnds ↔ sample sampleFuel 512 s.sponge [] = none := by
  rcases execH2p_cases rd s with ⟨habs, -⟩ | ⟨-, hnone, e⟩ | ⟨-, c, sp, hsome, e⟩
  · simp [habs] at hmode
  · simp [hnone, e]
  · simp [hsome, e]

/-- Settles O43: the loop ends at the first chunks that hold 512 accepted ones, whose residues fit a register. -/
theorem h2pResult : Obligations.H2pResult := by
  refine fun rd s => ⟨by revert rd; decide, execH2p_of_absorbing rd, fun k hmode hlen hfirst => ?_⟩
  have hcanon : AllCanonical ((accepted k s.sponge).map (· % 12289)) :=
    List.forall_mem_map.mpr fun x _ => Nat.mod_lt x (by decide)
  obtain ⟨hlanes, hframe⟩ := writesLanes_polyOfNats (s.setSponge (squeezed (2 * k) s.sponge).2) rd
    ((List.length_map _).trans hlen) hcanon
  refine ⟨_, execH2p_of_first rd hmode hlen hfirst, fun i hi => (hlanes i hi).trans ?_, hframe⟩
  simp [hlen, hi]

/-- Settles O44: the accepted chunks are counted by the count that decides whether the loop ends. -/
theorem h2pStopsOnlyWhereNothingEnds : Obligations.H2pStopsOnlyWhereNothingEnds := fun rd s hmode => by
  simp only [length_accepted]
  exact (execH2p_faults_iff rd hmode).trans (sample_never_ends_iff s.sponge)

end Sys2Proof.Machine

/-! PROOFS. Bit fields and byte streams (20_memory.md R54): the bits of a number and the number of a bit field, the stream by
positions, and packing (45_codec.md R199), which undoes the stream. -/

namespace Sys2Proof.Machine

open Sys2Proof.Cert

/-! ### The bits of a number -/

@[simp] theorem length_natBits (w x : Nat) : (natBits w x).length = w := by simp [natBits]

theorem getElem_natBits (w x : Nat) {k : Nat} (h : k < (natBits w x).length) :
    (natBits w x)[k] = x.testBit (w - 1 - k) := by
  simp [natBits, Nat.testBit_eq_decide_div_mod_eq]

theorem natBits_succ (w x : Nat) : natBits (w + 1) x = decide (x / 2 ^ w % 2 = 1) :: natBits w x := by
  simp only [natBits, List.range_succ_eq_map, List.map_cons, List.map_map]
  refine congrArg₂ _ rfl (List.map_congr_left fun k _ => ?_)
  rw [Function.comp_apply, show w + 1 - 1 - (k + 1) = w - 1 - k by omega]

/-- The bits above the field do not show in it. -/
theorem natBits_two_pow_mul_add (w a : Nat) {b : Nat} (hb : b < 2 ^ w) : natBits w (2 ^ w * a + b) = natBits w b := by
  refine List.ext_getElem (by simp) fun k hk _ => ?_
  have hlow : w - 1 - k < w := by simp at hk; omega
  rw [getElem_natBits, getElem_natBits, Nat.testBit_two_pow_mul_add a hb, if_pos hlow]

/-! ### The number of a bit field -/

theorem foldl_bits (bits : List Bool) (v : Nat) :
    bits.foldl (fun v x => 2 * v + (if x then 1 else 0)) v = 2 ^ bits.length * v + fieldValue bits := by
  induction bits generalizing v with
  | nil => simp [fieldValue]
  | cons x rest ih =>
    rw [fieldValue, List.foldl_cons, List.foldl_cons, ih, ih (2 * 0 + _), List.length_cons]
    ring

/-- The first bit read is the most significant. -/
theorem fieldValue_cons (x : Bool) (bits : List Bool) :
    fieldValue (x :: bits) = 2 ^ bits.length * (if x then 1 else 0) + fieldValue bits := by
  rw [fieldValue, List.foldl_cons, foldl_bits, Nat.mul_zero, Nat.zero_add]

theorem fieldValue_lt (bits : List Bool) : fieldValue bits < 2 ^ bits.length := by
  induction bits with
  | nil => decide
  | cons x rest ih =>
    rw [fieldValue_cons, List.length_cons, pow_succ]
    split <;> omega

theorem natBits_fieldValue (bits : List Bool) : natBits bits.length (fieldValue bits) = bits := by
  induction bits with
  | nil => rfl
  | cons x rest ih =>
    have hlt := fieldValue_lt rest
    rw [List.length_cons, natBits_succ, fieldValue_cons, natBits_two_pow_mul_add _ _ hlt, ih,
      Nat.mul_add_div (Nat.two_pow_pos _), Nat.div_eq_of_lt hlt]
    cases x <;> rfl

theorem ite_decide_eq_one {b : Nat} (hb : b < 2) : (if decide (b = 1) then 1 else 0) = b := by
  interval_cases b <;> rfl

theorem fieldValue_natBits (w x : Nat) : fieldValue (natBits w x) = x % 2 ^ w := by
  induction w with
  | zero => simp [natBits, fieldValue, Nat.mod_one]
  | succ w ih =>
    have hbit : x / 2 ^ w % 2 < 2 := Nat.mod_lt _ (by decide)
    rw [natBits_succ, fieldValue_cons, length_natBits, ih, ite_decide_eq_one hbit, Nat.mod_pow_succ, Nat.add_comm]

/-- A list of `w` bits is the field of a number below `2^w` exactly when the number is its value. -/
theorem eq_natBits_iff {w x : Nat} {bits : List Bool} (hx : x < 2 ^ w) (hlen : bits.length = w) :
    bits = natBits w x ↔ fieldValue bits = x := by
  constructor
  · rintro rfl
    rw [fieldValue_natBits, Nat.mod_eq_of_lt hx]
  · rintro rfl
    rw [← hlen, natBits_fieldValue]

/-- A stream that goes on with the field of a number below `2^w`. -/
theorem eq_natBits_append_iff {w x : Nat} {bits rest : List Bool} (hx : x < 2 ^ w) (hlen : w ≤ bits.length) :
    bits = natBits w x ++ rest ↔ fieldValue (bits.take w) = x ∧ bits.drop w = rest := by
  have htake : (bits.take w).length = w := List.length_take_of_le hlen
  conv_lhs => rw [← List.take_append_drop w bits]
  rw [List.append_eq_append_iff_of_size_eq_left (by rw [htake, length_natBits]), eq_natBits_iff hx htake]

/-! ### The stream of a byte buffer -/

theorem byteBits_eq_natBits (x : Byte) : byteBits x = natBits 8 x.toNat := by
  simp [byteBits, natBits, List.range_succ, BitVec.getLsbD, Nat.testBit_eq_decide_div_mod_eq]

@[simp] theorem length_byteBits (x : Byte) : (byteBits x).length = 8 := rfl

@[simp] theorem streamBits_cons (x : Byte) (l : List Byte) : streamBits (x :: l) = byteBits x ++ streamBits l := rfl

theorem streamBits_drop (l : List Byte) (n : Nat) : streamBits (l.drop n) = (streamBits l).drop (8 * n) := by
  induction n generalizing l with
  | zero => rfl
  | succ n ih =>
    cases l with
    | nil => rfl
    | cons x rest =>
      have hskip : 8 * (n + 1) = (byteBits x).length + 8 * n := by rw [length_byteBits]; ring
      rw [List.drop_succ_cons, ih, streamBits_cons, hskip, List.drop_length_add_append]

/-- Element `p` of the stream is `bit(B, p)` (20_memory.md R54). -/
theorem getElem_streamBits (l : List Byte) {p : Nat} (h : p < (streamBits l).length) :
    (streamBits l)[p] = decide (bitAt l p = 1) := by
  induction l generalizing p with
  | nil => simp [streamBits] at h
  | cons x rest ih =>
    simp only [streamBits_cons]
    by_cases hp : p < 8
    · have hzero : p / 8 = 0 := by omega
      have hpos : p % 8 = p := by omega
      rw [List.getElem_append_left (by simpa using hp)]
      simp only [byteBits_eq_natBits]
      rw [getElem_natBits, Nat.testBit_eq_decide_div_mod_eq, bitAt, hzero, hpos]
      rfl
    · obtain ⟨r, rfl⟩ : ∃ r, p = r + 8 := ⟨p - 8, by omega⟩
      rw [List.getElem_append_right (by simp)]
      simp only [length_byteBits, Nat.add_sub_cancel]
      rw [ih, bitAt, bitAt, Nat.add_mod_right, Nat.add_div_right r (by decide), List.getD_cons_succ]

/-- The stream from a position inside the buffer on starts with the bit there. -/
theorem drop_streamBits {l : List Byte} {p : Nat} (h : p < 8 * l.length) :
    (streamBits l).drop p = decide (bitAt l p = 1) :: (streamBits l).drop (p + 1) := by
  have hp : p < (streamBits l).length := (length_streamBits l).symm ▸ h
  rw [List.drop_eq_getElem_cons hp, getElem_streamBits]

theorem drop_streamBits_of_le {l : List Byte} {p : Nat} (h : 8 * l.length ≤ p) : (streamBits l).drop p = [] :=
  List.drop_eq_nil_of_le ((length_streamBits l).trans_le h)

theorem bitAt_lt_two (l : List Byte) (p : Nat) : bitAt l p < 2 := Nat.mod_lt _ (by decide)

theorem fieldAt_succ (l : List Byte) (w p : Nat) : fieldAt l (w + 1) p = 2 ^ w * bitAt l p + fieldAt l w (p + 1) := by
  rw [fieldAt, Finset.sum_range_succ', Nat.add_comm]
  refine congrArg₂ _ (Nat.mul_comm _ _) (Finset.sum_congr rfl fun k _ => ?_)
  rw [show p + (k + 1) = p + 1 + k by omega, show w + 1 - 1 - (k + 1) = w - 1 - k by omega]

/-- The value of the next `w` bits is the field at the position (20_memory.md R54). -/
theorem fieldValue_take_streamBits (l : List Byte) (w : Nat) {p : Nat} (h : p + w ≤ 8 * l.length) :
    fieldValue (((streamBits l).drop p).take w) = fieldAt l w p := by
  induction w generalizing p with
  | zero => rfl
  | succ w ih =>
    have hlen : (((streamBits l).drop (p + 1)).take w).length = w := by
      rw [List.length_take, List.length_drop, length_streamBits]
      omega
    rw [drop_streamBits (by omega), List.take_succ_cons, fieldValue_cons, hlen, ite_decide_eq_one (bitAt_lt_two l p),
      ih (by omega), fieldAt_succ]

/-! ### Packing -/

@[simp] theorem length_packBits (bits : List Bool) : (packBits bits).length = bits.length / 8 := by simp [packBits]

theorem packBits_append {bits rest : List Bool} (h : bits.length = 8) :
    packBits (bits ++ rest) = BitVec.ofNat 8 (fieldValue bits) :: packBits rest := by
  have hcount : (bits ++ rest).length / 8 = rest.length / 8 + 1 := by
    rw [List.length_append, h, Nat.add_div_left _ (by decide)]
  rw [packBits, packBits, hcount, List.range_succ_eq_map, List.map_cons, List.map_map]
  refine congrArg₂ _ ?_ (List.map_congr_left fun i _ => ?_)
  · rw [Nat.mul_zero, List.drop_zero, List.take_left' h]
    rfl
  · have hskip : 8 * (i + 1) = bits.length + 8 * i := by omega
    rw [Function.comp_apply, hskip, List.drop_length_add_append]

theorem packBits_streamBits (l : List Byte) : packBits (streamBits l) = l := by
  induction l with
  | nil => rfl
  | cons x rest ih =>
    rw [streamBits_cons, packBits_append (length_byteBits x), ih, byteBits_eq_natBits, fieldValue_natBits,
      Nat.mod_eq_of_lt x.isLt, BitVec.ofNat_toNat, BitVec.setWidth_eq]

theorem byteBits_ofNat_fieldValue {bits : List Bool} (h : bits.length = 8) :
    byteBits (BitVec.ofNat 8 (fieldValue bits)) = bits := by
  have hlt := fieldValue_lt bits
  rw [h] at hlt
  rw [byteBits_eq_natBits, BitVec.toNat_ofNat, Nat.mod_eq_of_lt hlt, ← h, natBits_fieldValue]

theorem streamBits_packBits {n : Nat} {bits : List Bool} (h : bits.length = 8 * n) : streamBits (packBits bits) = bits := by
  induction n generalizing bits with
  | zero =>
    obtain rfl := List.length_eq_zero_iff.mp h
    rfl
  | succ n ih =>
    have hhead : (bits.take 8).length = 8 := by rw [List.length_take]; omega
    have htail : (bits.drop 8).length = 8 * n := by rw [List.length_drop]; omega
    conv_lhs => rw [← List.take_append_drop 8 bits]
    rw [packBits_append hhead, streamBits_cons, byteBits_ofNat_fieldValue hhead, ih htail, List.take_append_drop]

/-- Packing is the inverse of the stream, on whole bytes. -/
theorem packBits_eq_iff {n : Nat} {bits : List Bool} {l : List Byte} (h : bits.length = 8 * n) :
    packBits bits = l ↔ streamBits l = bits := by
  constructor
  · rintro rfl
    exact streamBits_packBits h
  · rintro rfl
    exact packBits_streamBits l

end Sys2Proof.Machine

/-! PROOFS. The public key (45_codec.md R183, R184, R199): its fields by stream positions and by their bits, and what `PKDEC`
answers. -/

namespace Sys2Proof.Machine

open Sys2Proof.Cert

/-! ### The fields of a key -/

/-- The fields of a key by stream positions (45_codec.md R183). -/
theorem keyFields_drop_streamBits (l : List Byte) (k : Nat) {p : Nat} (h : p + 14 * k ≤ 8 * l.length) :
    keyFields k ((streamBits l).drop p) = if ∀ i < k, fieldAt l 14 (p + 14 * i) < 12289
      then some ((List.range k).map fun i => fieldAt l 14 (p + 14 * i)) else none := by
  induction k generalizing p with
  | zero => simp [keyFields]
  | succ k ih =>
    have hfield : fieldValue (((streamBits l).drop p).take 14) = fieldAt l 14 p := fieldValue_take_streamBits l 14 (by omega)
    have hrest := ih (p := p + 14) (by omega)
    have hnext : ∀ i, p + 14 * (i + 1) = p + 14 + 14 * i := fun i => by ring
    simp only [keyFields, Config.coefBits, Config.q, hfield, List.drop_drop, hrest, Nat.forall_lt_succ_left',
      List.range_succ_eq_map, List.map_cons, List.map_map, Function.comp_def, hnext, Nat.mul_zero, Nat.add_zero]
    by_cases hv : fieldAt l 14 p < 12289
    · simp only [hv, if_true, true_and]
      split <;> rfl
    · simp only [hv, if_false, false_and]

/-- The fields of a key by their bits: 14 for each coefficient (45_codec.md R199). -/
theorem keyFields_eq_some_iff {k : Nat} {bits : List Bool} {h : List Nat} (hlen : bits.length = 14 * k) :
    keyFields k bits = some h ↔ (h.length = k ∧ ∀ x ∈ h, x < 12289) ∧ bits = h.flatMap (natBits 14) := by
  induction k generalizing bits h with
  | zero =>
    obtain rfl := List.length_eq_zero_iff.mp hlen
    cases h <;> simp [keyFields]
  | succ k ih =>
    cases h with
    | nil => simp [keyFields]
    | cons v t =>
      have hfirst : v < 12289 → (bits = natBits 14 v ++ t.flatMap (natBits 14) ↔
          fieldValue (bits.take 14) = v ∧ bits.drop 14 = t.flatMap (natBits 14)) := fun hv =>
        eq_natBits_append_iff (hv.trans (by decide)) (by omega)
      have hrest (t : List Nat) := ih (bits := bits.drop 14) (h := t) (by rw [List.length_drop]; omega)
      simp only [keyFields, Config.coefBits, Config.q, Option.ite_none_right_eq_some, Option.map_eq_some_iff, hrest,
        List.cons.injEq, List.length_cons, Nat.add_right_cancel_iff, List.forall_mem_cons, List.flatMap_cons]
      constructor
      · rintro ⟨hv, _, ⟨⟨hk, ht⟩, hbits⟩, rfl, rfl⟩
        exact ⟨⟨hk, hv, ht⟩, (hfirst hv).mpr ⟨rfl, hbits⟩⟩
      · rintro ⟨⟨hk, hv, ht⟩, hbits⟩
        obtain ⟨hval, htail⟩ := (hfirst hv).mp hbits
        exact ⟨hval ▸ hv, t, ⟨⟨hk, ht⟩, htail⟩, hval, rfl⟩

/-! ### The decoder of a key -/

theorem decodePk_eq_ite (l : List Byte) :
    decodePk params 897 l = if l.getD 0 0 ≠ 0x09 then .error .badHeader
      else (keyFields 512 (streamBits (l.drop 1))).elim (.error .badCoefficient) .ok := by
  rw [decodePk, if_neg (by decide)]
  refine if_congr Iff.rfl rfl ?_
  cases keyFields Config.n (streamBits (l.drop 1)) <;> rfl

theorem length_keyBits (h : List Nat) : (h.flatMap (natBits 14)).length = 14 * h.length := by
  simp [List.length_flatMap, Nat.mul_comm]

/-- A byte string decodes to `h` exactly when it is the encoding of the canonical list `h` (45_codec.md R199). -/
theorem decodePk_eq_ok_iff {l : List Byte} {h : List Nat} (hlen : l.length = 897) :
    decodePk params 897 l = .ok h ↔ IsCanonicalList h ∧ encodePk h = l := by
  obtain ⟨x, t, rfl⟩ := List.exists_cons_of_length_eq_add_one hlen
  have hbits : (streamBits t).length = 14 * 512 := by
    rw [length_streamBits, Nat.succ.inj hlen]
  have hpack : IsCanonicalList h → (packBits (h.flatMap (natBits 14)) = t ↔ streamBits t = h.flatMap (natBits 14)) :=
    fun hcanon => packBits_eq_iff (n := 896) ((length_keyBits h).trans (congrArg (14 * ·) hcanon.1))
  calc decodePk params 897 (x :: t) = .ok h
    _ ↔ x = 0x09#8 ∧ keyFields 512 (streamBits t) = some h := by
      rw [decodePk_eq_ite]
      by_cases hx : x = 0x09#8 <;> cases hk : keyFields 512 (streamBits t) <;> simp [hx, hk]
    _ ↔ x = 0x09#8 ∧ IsCanonicalList h ∧ streamBits t = h.flatMap (natBits 14) :=
      and_congr_right fun _ => keyFields_eq_some_iff hbits
    _ ↔ IsCanonicalList h ∧ encodePk h = x :: t := by
      rw [encodePk, List.cons.injEq, eq_comm (b := x), and_left_comm (a := IsCanonicalList h)]
      exact and_congr_right fun _ => and_congr_right fun hcanon => (hpack hcanon).symm

theorem length_encodePk {h : List Nat} (hlen : h.length = 512) : (encodePk h).length = 897 := by
  rw [encodePk, List.length_cons, length_packBits, length_keyBits, hlen]

/-! ### `PKDEC` -/

/-- A decoder reads the buffer where the declared length is the fixed one (45_codec.md R182). -/
theorem readDeclared_of_holds {m : Memory} {declared fixed : Nat} {l : List Byte} (hd : declared = fixed)
    (hw : Memory.wf fixed m = true) (hlen : l.length = fixed) (hl : Holds m l) :
    readDeclared m declared fixed = some l := by
  rw [readDeclared, if_pos hd]
  exact (memRead_eq_some fixed m fixed l hw).mpr ⟨hlen, hl⟩

section
variable {s : State} {l : List Byte} (rd : PReg) (hread : readDeclared s.pkbuf s.pklen.toNat 897 = some l)
include hread

theorem execPkdec_of_error {k : ErrorKind} (hd : decodePk params s.pklen.toNat l = .error k) :
    execPkdec rd s = .next (ended k s) := by
  simp [execPkdec, hread, hd, raise_eq_ended]

theorem execPkdec_of_ok {h : List Nat} (hd : decodePk params s.pklen.toNat l = .ok h) :
    execPkdec rd s = .next (complete (writePoly rd (polyOfNats h) s)) := by
  simp [execPkdec, hread, hd]

end

/-- Settles O45: by the length, the header, and the fields by stream positions. -/
theorem pkdecResult : Obligations.PkdecResult := by
  refine fun rd s => ⟨by revert rd; decide, execPkdec_of_badLength rd s, fun l hpk hw hlen hl => ?_⟩
  have hread : readDeclared s.pkbuf s.pklen.toNat 897 = some l := readDeclared_of_holds hpk hw hlen hl
  have hfields := keyFields_drop_streamBits l 512 (p := 8) (by omega)
  have hdecode : decodePk params s.pklen.toNat l = _ := (congrArg (decodePk params · l) hpk).trans (decodePk_eq_ite l)
  rw [streamBits_drop] at hdecode
  refine ⟨fun hhead => ?_, fun hhead ⟨i, hi, hbig⟩ => ?_, fun hhead hsmall => ?_⟩
  · exact execPkdec_of_error rd hread (hdecode.trans (if_pos hhead))
  · refine execPkdec_of_error rd hread (hdecode.trans ?_)
    rw [if_neg (not_not.mpr hhead), hfields, if_neg fun hall => absurd (hall i hi) (by omega)]
    rfl
  · have hok : decodePk params s.pklen.toNat l = .ok ((List.range 512).map fun i => fieldAt l 14 (8 + 14 * i)) := by
      rw [hdecode, if_neg (not_not.mpr hhead), hfields, if_pos hsmall]
      rfl
    have hcanon : AllCanonical ((List.range 512).map fun i => fieldAt l 14 (8 + 14 * i)) :=
      List.forall_mem_map.mpr fun i hi => hsmall i (List.mem_range.mp hi)
    refine ⟨_, execPkdec_of_ok rd hread hok, writesLanes_congr (fun i hi => ?_)
      (writesLanes_polyOfNats s rd (by simp) hcanon)⟩
    simp [hi]

end Sys2Proof.Machine

/-! PROOFS. The decoder of a signature by stream positions (45_codec.md R189, R194, R196), and what `SIGDEC` answers (R195). -/

namespace Sys2Proof.Machine

open Sys2Proof.Cert

/-! ### One coefficient code -/

theorem getField_eq (k v : Nat) {c : Cursor} (h : k ≤ c.rest.length) :
    getField k v c = .ok (2 ^ k * v + fieldValue (c.rest.take k), ⟨c.pos + k, c.rest.drop k⟩) := by
  induction k generalizing v c with
  | zero => simp [getField, fieldValue]
  | succ k ih =>
    obtain ⟨p, bits⟩ := c
    cases bits with
    | nil => simp at h
    | cons x rest =>
      simp only [List.length_cons, Nat.add_le_add_iff_right] at h
      simp only [getField, getBit]
      rw [ih _ h]
      simp only [List.take_succ_cons, List.drop_succ_cons, fieldValue_cons, List.length_take_of_le h, Except.ok.injEq,
        Prod.mk.injEq, Cursor.mk.injEq, and_true]
      exact ⟨by ring, by omega⟩

theorem decodeCoeff_of_no_room {c : Cursor} (h : 5328 - c.pos < 8) : decodeCoeff params c = .error (.codecDesync, c.pos) :=
  if_pos h

/-- A code whose sign and low field lie inside the buffer is decided by its run and its value (45_codec.md R189). -/
theorem decodeCoeff_of_room {p : Nat} {x : Bool} {rest : List Bool} (hroom : ¬5328 - p < 8) (hrest : 7 ≤ rest.length) :
    decodeCoeff params ⟨p, x :: rest⟩ = (unaryRun 15 (rest.drop 7) (p + 8) 0).bind fun r =>
      (signedCoefficient params x (fieldValue (rest.take 7) + 128 * r.1) r.2.pos).map fun v => (v, r.2) := by
  have hlow : getField params.lowBits 0 ⟨p + 1, rest⟩ = .ok (fieldValue (rest.take 7), ⟨p + 8, rest.drop 7⟩) :=
    (getField_eq 7 0 hrest).trans (by simp)
  refine (if_neg hroom).trans ?_
  simp only [getBit, hlow, show params.unaryMax = 15 from rfl]
  rcases unaryRun 15 (rest.drop 7) (p + 8) 0 with e | ⟨k, c⟩
  · rfl
  · simp only [Except.bind]
    have hlowBits : 2 ^ params.lowBits = 128 := rfl
    rw [hlowBits]
    cases signedCoefficient params x (fieldValue (rest.take 7) + 128 * k) c.pos <;> rfl

theorem signedCoefficient_eq_ite (negative : Prop) [Decidable negative] (m p : Nat) :
    signedCoefficient params (decide negative) m p = if 2047 < m then .error (.codecOverflow, p)
      else if negative ∧ m = 0 then .error (.badCoefficient, p) else .ok (if negative then -(m : Int) else (m : Int)) := by
  simp [signedCoefficient, params]

/-! ### The codes by stream positions -/

/-- The cursor at a stream position of a buffer. -/
def cursorAt (l : List Byte) (p : Nat) : Cursor := ⟨p, (streamBits l).drop p⟩

section
variable {l : List Byte} (hlen : l.length = 666)
include hlen

theorem unaryRun_streamBits {fuel k : Nat} (p : Nat) (hfuel : fuel + k = 16) (hk : k ≤ 15) :
    unaryRun 15 ((streamBits l).drop p) p k = (specRun l fuel p k).map (Prod.map id (cursorAt l)) := by
  induction fuel generalizing p k with
  | zero => omega
  | succ fuel ih =>
    rw [specRun]
    by_cases hend : 5328 ≤ p
    · rw [if_pos hend, drop_streamBits_of_le (by omega)]
      rfl
    · rw [if_neg hend, drop_streamBits (by omega)]
      by_cases hbit : bitAt l p = 1
      · rw [if_pos hbit, decide_eq_true hbit]
        rfl
      · rw [if_neg hbit, decide_eq_false hbit, unaryRun]
        by_cases hlong : 15 < k + 1
        · rw [if_pos hlong, if_pos hlong]
          rfl
        · rw [if_neg hlong, if_neg hlong]
          exact ih (p + 1) (by omega) (by omega)

theorem decodeCoeff_cursorAt (p : Nat) :
    decodeCoeff params (cursorAt l p) = (specCoeff l p).map (Prod.map id (cursorAt l)) := by
  rw [specCoeff]
  by_cases hroom : 5328 - p < 8
  · rw [if_pos hroom]
    exact decodeCoeff_of_no_room hroom
  · have hrest : 7 ≤ ((streamBits l).drop (p + 1)).length := by
      rw [List.length_drop, length_streamBits]
      omega
    rw [if_neg hroom, cursorAt, drop_streamBits (by omega), decodeCoeff_of_room hroom hrest, List.drop_drop,
      fieldValue_take_streamBits l 7 (by omega), unaryRun_streamBits hlen (p + 8) (k := 0) rfl (by decide)]
    rcases specRun l 16 (p + 8) 0 with e | ⟨k, p'⟩
    · rfl
    · simp only [Except.map, Except.bind, Prod.map, id, signedCoefficient_eq_ite, cursorAt]
      split_ifs <;> rfl

theorem decodeCoeffs_cursorAt (k p : Nat) :
    decodeCoeffs params k (cursorAt l p) = (specCoeffs l k p).map (Prod.map id (cursorAt l)) := by
  induction k generalizing p with
  | zero => rfl
  | succ k ih =>
    simp only [decodeCoeffs, specCoeffs, decodeCoeff_cursorAt hlen]
    rcases specCoeff l p with e | ⟨v, p1⟩
    · rfl
    · simp only [Except.map, Prod.map, id, ih]
      rcases specCoeffs l k p1 with e | ⟨vs, p2⟩ <;> rfl

/-- The bits from a position on are zero where no stream position from there on holds a one. -/
theorem any_drop_streamBits (p : Nat) :
    ((streamBits l).drop p).any id = (List.range 5328).any fun t => decide (p ≤ t) && decide (bitAt l t = 1) := by
  rw [Bool.eq_iff_iff]
  simp only [List.any_eq_true, List.mem_drop_iff_getElem, List.mem_range, Bool.and_eq_true, decide_eq_true_eq, id,
    exists_eq_right, getElem_streamBits, length_streamBits, hlen]
  constructor
  · rintro ⟨j, hj, hbit⟩
    exact ⟨p + j, by omega, by omega, hbit⟩
  · rintro ⟨t, ht, hp, hbit⟩
    obtain ⟨j, rfl⟩ := Nat.exists_eq_add_of_le hp
    exact ⟨j, by omega, hbit⟩

/-- The decoder of a signature is the one by stream positions (45_codec.md R194, R196). -/
theorem decodeSig_eq_specSig :
    decodeSig params 666 l = (specSig l).map fun r => ⟨(l.drop 1).take 40, r.1, r.2⟩ := by
  have hstart : (⟨328, streamBits (l.drop 41)⟩ : Cursor) = cursorAt l 328 := by rw [cursorAt, streamBits_drop]
  rw [decodeSig, if_neg (by decide), specSig]
  by_cases hhead : l.getD 0 0 ≠ 0x39
  · rw [if_pos hhead]
    exact if_pos hhead
  · rw [if_neg hhead]
    refine (if_neg hhead).trans ?_
    simp only [hstart, decodeCoeffs_cursorAt hlen, Config.n, Config.saltLen, Config.sigBodyBit]
    rcases specCoeffs l 512 328 with e | ⟨vs, p⟩
    · rfl
    · simp only [Except.map, Prod.map, id, cursorAt, ← any_drop_streamBits hlen]
      split <;> rfl

end

/-! ### `SIGDEC` -/

theorem execSigdec_of_badLength (rd : PReg) (s : State) (h : s.siglen.toNat ≠ 666) :
    execSigdec rd s = .next (ended .badLength { s with byteix := 0, bitoff := 0 }) := by
  simp [execSigdec, readDeclared, decodeSig, h, raise_eq_ended, setCursor]

section
variable {s : State} {l : List Byte} (rd : PReg) (hread : readDeclared s.sigbuf s.siglen.toNat 666 = some l)
include hread

theorem execSigdec_of_error {k : ErrorKind} {p : Nat} (hd : decodeSig params s.siglen.toNat l = .error (k, p)) :
    execSigdec rd s = .next (ended k (setCursor p s)) := by
  simp [execSigdec, hread, hd, raise_eq_ended]

theorem execSigdec_of_ok {d : DecodedSig} (hd : decodeSig params s.siglen.toNat l = .ok d) :
    execSigdec rd s = .next (complete (writePoly rd (polyOfInts d.s2)
      { setCursor d.pos s with salt := memWrite s.salt 0 d.salt })) := by
  simp [execSigdec, hread, hd]

end

/-- `SALT` after a signature of 666 bytes: its bytes 1 to 40, and the old contents elsewhere (45_codec.md R195). -/
theorem read_memWrite_salt {l : List Byte} (hlen : l.length = 666) (m : Memory) (j : Nat) :
    Memory.read (memWrite m 0 ((l.drop 1).take 40)) j = if j < 40 then some (l.getD (1 + j) 0) else Memory.read m j := by
  have hsalt : ((l.drop 1).take 40).length = 40 := by simp [hlen]
  rw [read_memWrite]
  by_cases hj : j < 40
  · rw [dif_pos (by omega), if_pos hj, List.getD_eq_getElem _ _ (by omega)]
    simp only [List.getElem_take, List.getElem_drop, Nat.sub_zero]
  · rw [dif_neg (by omega), if_neg hj]

/-- Settles O46: `SIGDEC` answers by the decoder, which is the one by stream positions. -/
theorem sigdecResult : Obligations.SigdecResult := by
  refine fun rd s => ⟨by revert rd; decide, execSigdec_of_badLength rd s, fun l hsig hw hlen hl => ?_⟩
  have hread : readDeclared s.sigbuf s.siglen.toNat 666 = some l := readDeclared_of_holds hsig hw hlen hl
  have hdecode : decodeSig params s.siglen.toNat l = _ :=
    (congrArg (decodeSig params · l) hsig).trans (decodeSig_eq_specSig hlen)
  refine ⟨fun k p hspec => ?_, fun vs p hspec => ?_⟩ <;> rw [hspec] at hdecode
  · exact execSigdec_of_error rd hread hdecode
  · have answers := decodeSig_cases params s.siglen.toNat l fun _ => hlen
    rw [hdecode] at answers
    obtain ⟨_, ⟨⟩, -, -, -, hcount, hshort, -⟩ | ⟨_, _, ⟨⟩, -⟩ := answers
    have hsmall : ∀ v ∈ vs, -(2 ^ 15) ≤ v ∧ v < 2 ^ 15 := fun v hv => by
      have hv : v.natAbs ≤ 2047 := hshort v hv
      omega
    have hsalt := read_memWrite_salt hlen s.salt
    obtain ⟨hlanes, hframe⟩ := writesLanes_polyOfInts
      { setCursor p s with salt := memWrite s.salt 0 ((l.drop 1).take 40) } rd hcount hsmall
    exact ⟨_, execSigdec_of_ok rd hread hdecode, hlanes, fun j hj => (hsalt j).trans (if_pos hj),
      fun j hj => (hsalt j).trans (if_neg (by omega)), hframe⟩

end Sys2Proof.Machine

/-! PROOFS. The decoder of a signature by the bits it reads: the codes of 45_codec.md R199 and no others (R189 to R194), so that
decoding and encoding are inverse, for keys too. -/

namespace Sys2Proof.Machine

open Sys2Proof.Cert

/-! ### Reading bits -/

/-- The cursor moves over these bits of the stream. -/
def Cursor.Reads (code : List Bool) (c c' : Cursor) : Prop := c.rest = code ++ c'.rest ∧ c'.pos = c.pos + code.length

theorem reads_nil_iff {c c' : Cursor} : Cursor.Reads [] c c' ↔ c = c' := by
  obtain ⟨p, rest⟩ := c
  obtain ⟨p', rest'⟩ := c'
  simp [Cursor.Reads, and_comm, eq_comm]

theorem reads_cons_iff {b x : Bool} {code rest : List Bool} {p : Nat} {c' : Cursor} :
    Cursor.Reads (b :: code) ⟨p, x :: rest⟩ c' ↔ b = x ∧ Cursor.Reads code ⟨p + 1, rest⟩ c' := by
  simp only [Cursor.Reads, List.cons_append, List.cons.injEq, List.length_cons, and_assoc, eq_comm (a := b),
    Nat.add_assoc, Nat.add_comm 1]

theorem reads_append_iff {code code' : List Bool} {c c' : Cursor} :
    Cursor.Reads (code ++ code') c c' ↔ ∃ c1, Cursor.Reads code c c1 ∧ Cursor.Reads code' c1 c' := by
  simp only [Cursor.Reads, List.append_assoc, List.length_append]
  constructor
  · rintro ⟨hrest, hpos⟩
    exact ⟨⟨c.pos + code.length, code' ++ c'.rest⟩, ⟨hrest, rfl⟩, rfl, hpos.trans (Nat.add_assoc _ _ _).symm⟩
  · rintro ⟨c1, ⟨hrest, hpos⟩, hrest', hpos'⟩
    exact ⟨by rw [hrest, hrest'], by omega⟩

theorem reads_natBits_iff {w x : Nat} {c c' : Cursor} (hx : x < 2 ^ w) (hlen : w ≤ c.rest.length) :
    Cursor.Reads (natBits w x) c c' ↔ fieldValue (c.rest.take w) = x ∧ ⟨c.pos + w, c.rest.drop w⟩ = c' := by
  obtain ⟨p', rest'⟩ := c'
  rw [Cursor.Reads, eq_natBits_append_iff hx hlen, length_natBits, Cursor.mk.injEq, and_assoc, eq_comm (a := p'),
    and_comm (a := c.rest.drop w = rest')]

theorem Cursor.Reads.inside {code : List Bool} {c c' : Cursor} (h : Cursor.Reads code c c') (hin : c.Inside) : c'.Inside := by
  obtain ⟨hrest, hpos⟩ := h
  simp only [Cursor.Inside, hrest, List.length_append] at hin ⊢
  omega

/-! ### One coefficient code -/

theorem length_coeffCode (v : Int) : (coeffCode v).length = v.natAbs / 128 + 9 := by
  simp only [coeffCode, List.length_cons, List.length_append, length_natBits, List.length_replicate, List.length_nil]
  omega

/-- A run of at most `maxRun` zeros and the one that ends it (45_codec.md R189, R190). -/
theorem unaryRun_eq_ok_iff {maxRun p k j : Nat} {bits : List Bool} {c : Cursor} (hk : k ≤ maxRun) :
    unaryRun maxRun bits p k = .ok (j, c) ↔
      j ≤ maxRun ∧ ∃ i, k + i = j ∧ Cursor.Reads (List.replicate i false ++ [true]) ⟨p, bits⟩ c := by
  induction bits generalizing p k with
  | nil => simp [unaryRun, Cursor.Reads]
  | cons x rest ih =>
    rw [← Nat.or_exists_add_one]
    simp only [List.replicate_zero, List.nil_append, List.replicate_succ, List.cons_append, reads_cons_iff, reads_nil_iff]
    cases x with
    | true =>
      simp only [unaryRun, Except.ok.injEq, Prod.mk.injEq, true_and, Bool.false_eq_true, false_and, and_false,
        exists_false, or_false, Nat.add_zero]
      exact ⟨fun ⟨hj, hc⟩ => ⟨hj ▸ hk, hj, hc⟩, fun ⟨_, hj, hc⟩ => ⟨hj, hc⟩⟩
    | false =>
      simp only [unaryRun, Bool.true_eq_false, false_and, and_false, true_and, false_or]
      by_cases hlong : maxRun < k + 1
      · simp only [if_pos hlong, reduceCtorEq, false_iff]
        rintro ⟨hj, i, hi, -⟩
        omega
      · rw [if_neg hlong, ih (by omega)]
        simp only [Nat.add_assoc, Nat.add_comm 1]

theorem signedCoefficient_eq_ok_iff {negative : Bool} {m p : Nat} {v : Int} :
    signedCoefficient params negative m p = .ok v ↔
      m = v.natAbs ∧ (-2047 ≤ v ∧ v ≤ 2047) ∧ decide (v < 0) = negative := by
  have hite := signedCoefficient_eq_ite (negative = true) m p
  rw [Bool.decide_eq_true] at hite
  have hsign : decide (v < 0) = negative ↔ (v < 0 ↔ negative = true) := by rw [Bool.eq_iff_iff, decide_eq_true_iff]
  rw [hite, hsign]
  by_cases hbig : 2047 < m
  · simp only [if_pos hbig, reduceCtorEq, false_iff]
    omega
  · by_cases hzero : negative = true ∧ m = 0
    · simp only [if_neg hbig, if_pos hzero, reduceCtorEq, false_iff]
      rintro ⟨hm, -, hneg⟩
      have hlt : v < 0 := hneg.mpr hzero.1
      omega
    · rw [if_neg hbig, if_neg hzero, Except.ok.injEq]
      cases negative with
      | false =>
        simp only [Bool.false_eq_true, if_false, iff_false]
        omega
      | true =>
        simp only [true_and, if_true, iff_true] at hzero ⊢
        omega

/-- What is read on success: a run, then a value for its number of zeros. -/
theorem decodeCoeff_eq_ok_iff_run {p : Nat} {x : Bool} {rest : List Bool} {c' : Cursor} {v : Int} (hroom : ¬5328 - p < 8)
    (hrest : 7 ≤ rest.length) :
    decodeCoeff params ⟨p, x :: rest⟩ = .ok (v, c') ↔ ∃ j, unaryRun 15 (rest.drop 7) (p + 8) 0 = .ok (j, c') ∧
      signedCoefficient params x (fieldValue (rest.take 7) + 128 * j) c'.pos = .ok v := by
  rw [decodeCoeff_of_room hroom hrest]
  rcases unaryRun 15 (rest.drop 7) (p + 8) 0 with e | ⟨j, c⟩
  · simp [Except.bind]
  · simp only [Except.bind, Except.ok.injEq, Prod.mk.injEq]
    constructor
    · intro h
      cases hv : signedCoefficient params x (fieldValue (rest.take 7) + 128 * j) c.pos <;> rw [hv] at h <;> cases h
      exact ⟨j, ⟨rfl, rfl⟩, hv⟩
    · rintro ⟨_, ⟨rfl, rfl⟩, hv⟩
      rw [hv]
      rfl

theorem reads_coeffCode_iff {p : Nat} {x : Bool} {rest : List Bool} {c' : Cursor} {v : Int} (hrest : 7 ≤ rest.length) :
    Cursor.Reads (coeffCode v) ⟨p, x :: rest⟩ c' ↔ decide (v < 0) = x ∧ fieldValue (rest.take 7) = v.natAbs % 128 ∧
      Cursor.Reads (List.replicate (v.natAbs / 128) false ++ [true]) ⟨p + 8, rest.drop 7⟩ c' := by
  have hlow : v.natAbs % 128 < 2 ^ 7 := Nat.mod_lt _ (by decide)
  rw [coeffCode, List.cons_append, List.cons_append, reads_cons_iff, List.append_assoc, reads_append_iff]
  simp only [reads_natBits_iff (c := ⟨p + 1, rest⟩) hlow hrest, and_assoc, exists_and_left, exists_eq_left']

/-- A coefficient and its code (45_codec.md R189, R199). -/
theorem decodeCoeff_eq_ok_iff {c c' : Cursor} {v : Int} (hin : c.Inside) :
    decodeCoeff params c = .ok (v, c') ↔ (-2047 ≤ v ∧ v ≤ 2047) ∧ Cursor.Reads (coeffCode v) c c' := by
  obtain ⟨p, bits⟩ := c
  simp only [Cursor.Inside, Config.sigEndBit] at hin
  by_cases hroom : 5328 - p < 8
  · rw [decodeCoeff_of_no_room hroom]
    have hshort : ¬Cursor.Reads (coeffCode v) ⟨p, bits⟩ c' := fun ⟨hbits, _⟩ => by
      have hcount := congrArg List.length hbits
      simp only [List.length_append, length_coeffCode] at hcount
      omega
    simp [hshort]
  · obtain ⟨x, rest, rfl⟩ := List.exists_cons_of_length_pos (l := bits) (by omega)
    have hrest : 7 ≤ rest.length := by
      rw [List.length_cons] at hin
      omega
    have hlow : fieldValue (rest.take 7) < 128 := by
      simpa [List.length_take_of_le hrest] using fieldValue_lt (rest.take 7)
    rw [decodeCoeff_eq_ok_iff_run hroom hrest, reads_coeffCode_iff hrest]
    simp only [unaryRun_eq_ok_iff (Nat.zero_le 15), signedCoefficient_eq_ok_iff, Nat.zero_add, exists_eq_left]
    constructor
    · rintro ⟨j, ⟨-, hrun⟩, hval, hrange, hsign⟩
      obtain rfl : v.natAbs / 128 = j := by omega
      exact ⟨hrange, hsign, by omega, hrun⟩
    · rintro ⟨hrange, hsign, hval, hrun⟩
      exact ⟨v.natAbs / 128, ⟨by omega, hrun⟩, by omega, hrange, hsign⟩

/-! ### The codes of a signature -/

theorem decodeCoeffs_succ_eq_ok_iff {k : Nat} {c c' : Cursor} {v : Int} {vs : List Int} :
    decodeCoeffs params (k + 1) c = .ok (v :: vs, c') ↔
      ∃ c1, decodeCoeff params c = .ok (v, c1) ∧ decodeCoeffs params k c1 = .ok (vs, c') := by
  rw [decodeCoeffs]
  rcases decodeCoeff params c with e | ⟨w, c1⟩
  · simp
  · rcases hrest : decodeCoeffs params k c1 with e | ⟨ws, c2⟩
    · simp [hrest]
    · simp only [hrest, Except.ok.injEq, Prod.mk.injEq, List.cons.injEq]
      constructor
      · rintro ⟨⟨rfl, rfl⟩, rfl⟩
        exact ⟨c1, ⟨rfl, rfl⟩, hrest⟩
      · rintro ⟨_, ⟨rfl, rfl⟩, h⟩
        cases hrest.symm.trans h
        exact ⟨⟨rfl, rfl⟩, rfl⟩

/-- Coefficients and their codes (45_codec.md R194, R199). -/
theorem decodeCoeffs_eq_ok_iff {k : Nat} {c c' : Cursor} {vs : List Int} (hin : c.Inside) :
    decodeCoeffs params k c = .ok (vs, c') ↔
      (vs.length = k ∧ ∀ v ∈ vs, -2047 ≤ v ∧ v ≤ 2047) ∧ Cursor.Reads (sigBody vs) c c' := by
  induction k generalizing c vs with
  | zero =>
    cases vs <;> simp [decodeCoeffs, sigBody, reads_nil_iff, eq_comm]
  | succ k ih =>
    cases vs with
    | nil =>
      rcases decodeCoeffs_cases params (k + 1) c hin with ⟨ws, c1, e, -, -, hcount, -⟩ | ⟨_, _, e, -⟩
      · have hws : ws ≠ [] := List.ne_nil_of_length_eq_add_one hcount
        simp [e, hws]
      · simp [e]
    | cons v vs =>
      rw [decodeCoeffs_succ_eq_ok_iff, sigBody, List.flatMap_cons, reads_append_iff, List.length_cons, List.forall_mem_cons,
        Nat.add_right_cancel_iff]
      constructor
      · rintro ⟨c1, hfirst, hrest⟩
        obtain ⟨hv, hread⟩ := (decodeCoeff_eq_ok_iff hin).mp hfirst
        obtain ⟨⟨hcount, hvs⟩, hreads⟩ := (ih (hread.inside hin)).mp hrest
        exact ⟨⟨hcount, hv, hvs⟩, c1, hread, hreads⟩
      · rintro ⟨⟨hcount, hv, hvs⟩, c1, hread, hreads⟩
        exact ⟨c1, (decodeCoeff_eq_ok_iff hin).mpr ⟨hv, hread⟩,
          (ih (hread.inside hin)).mpr ⟨⟨hcount, hvs⟩, hreads⟩⟩

/-! ### The encoding of a signature -/

/-- Codes filled up with zeros to the end of the buffer (45_codec.md R194, R199). -/
theorem exists_reads_zeros_iff {code bits : List Bool} {p p' : Nat} :
    (∃ c, Cursor.Reads code ⟨p, bits⟩ c ∧ c.rest.any id = false ∧ c.pos = p') ↔
      code.length ≤ bits.length ∧ bits = code ++ List.replicate (bits.length - code.length) false ∧
        p' = p + code.length := by
  constructor
  · rintro ⟨⟨pos, zeros⟩, ⟨hbits, hpos⟩, hzero, rfl⟩
    have hzeros : zeros = List.replicate zeros.length false := List.eq_replicate_iff.mpr ⟨rfl, by simpa using hzero⟩
    obtain rfl : bits = code ++ zeros := hbits
    exact ⟨by simp, by simpa using hzeros, hpos⟩
  · rintro ⟨hle, hbits, rfl⟩
    exact ⟨⟨p + code.length, List.replicate (bits.length - code.length) false⟩, ⟨hbits, rfl⟩, by simp, rfl⟩

theorem decodeSig_eq_ok_iff_codes {x : Byte} {salt t : List Byte} {d : DecodedSig} (hsalt : salt.length = 40) :
    decodeSig params 666 (x :: (salt ++ t)) = .ok d ↔ x = 0x39#8 ∧ salt = d.salt ∧
      ∃ c, decodeCoeffs params 512 ⟨328, streamBits t⟩ = .ok (d.s2, c) ∧ c.rest.any id = false ∧ c.pos = d.pos := by
  have hhead : (x :: (salt ++ t)).getD 0 0 = x := rfl
  have htake : ((x :: (salt ++ t)).drop 1).take 40 = salt := List.take_left' hsalt
  have hdrop : (x :: (salt ++ t)).drop (1 + 40) = t := by
    rw [Nat.add_comm, List.drop_succ_cons, List.drop_left' hsalt]
  obtain ⟨dsalt, ds2, dpos⟩ := d
  simp only [decodeSig, Config.sigLen, Config.saltLen, Config.n, Config.sigBodyBit, hhead, htake, hdrop, ne_eq, not_true,
    if_false, show params.sigHeader = 0x39#8 from rfl]
  by_cases hx : x = 0x39#8
  · rcases decodeCoeffs params 512 ⟨328, streamBits t⟩ with e | ⟨s2, c⟩
    · simp [hx]
    · simp only [hx, not_true, if_false, true_and, Except.ok.injEq, Prod.mk.injEq]
      cases hzero : c.rest.any id <;> simp [hzero]
  · simp [hx]

/-- The coefficients are 512 in `-2047 .. 2047` whose codes fit, the salt has 40 bytes, the position is the end of the codes
(45_codec.md R199). -/
structure Encodable (d : DecodedSig) : Prop where
  salt : d.salt.length = 40
  coefficients : d.s2.length = 512 ∧ ∀ v ∈ d.s2, -2047 ≤ v ∧ v ≤ 2047
  fits : (sigBody d.s2).length ≤ 5000
  pos : d.pos = 328 + (sigBody d.s2).length

theorem length_encodeSig {salt : List Byte} {s2 : List Int} (hsalt : salt.length = 40) (hfits : (sigBody s2).length ≤ 5000) :
    (encodeSig salt s2).length = 666 := by
  rw [encodeSig, List.length_append, List.length_cons, hsalt, length_packBits, List.length_append, List.length_replicate,
    Nat.add_sub_cancel' hfits]

theorem exists_signature_parts {l : List Byte} (hlen : l.length = 666) :
    ∃ x salt t, l = x :: (salt ++ t) ∧ salt.length = 40 ∧ t.length = 625 := by
  obtain ⟨x, rest, rfl⟩ := List.exists_cons_of_length_eq_add_one hlen
  have hrest : rest.length = 665 := Nat.succ.inj hlen
  exact ⟨x, rest.take 40, rest.drop 40, by rw [List.take_append_drop], by simp [hrest], by simp [hrest]⟩

/-- A byte string decodes to `d` exactly when it is the encoding of `d` (45_codec.md R199). -/
theorem decodeSig_eq_ok_iff {l : List Byte} {d : DecodedSig} (hlen : l.length = 666) :
    decodeSig params 666 l = .ok d ↔ Encodable d ∧ encodeSig d.salt d.s2 = l := by
  obtain ⟨x, salt, t, rfl, hsalt, ht⟩ := exists_signature_parts hlen
  have hbits : (streamBits t).length = 5000 := by rw [length_streamBits, ht]
  have hin : (Cursor.mk 328 (streamBits t)).Inside := congrArg (328 + ·) hbits
  have hpack : (sigBody d.s2).length ≤ 5000 →
      (packBits (sigBody d.s2 ++ List.replicate (5000 - (sigBody d.s2).length) false) = t ↔
        streamBits t = sigBody d.s2 ++ List.replicate (5000 - (sigBody d.s2).length) false) := fun hfits =>
    packBits_eq_iff (n := 625) (by rw [List.length_append, List.length_replicate, Nat.add_sub_cancel' hfits])
  rw [decodeSig_eq_ok_iff_codes hsalt, encodeSig, List.cons_append, List.cons.injEq]
  simp only [decodeCoeffs_eq_ok_iff hin, and_assoc, exists_and_left, exists_reads_zeros_iff, hbits]
  constructor
  · rintro ⟨rfl, rfl, hcount, hrange, hfits, hstream, hpos⟩
    exact ⟨⟨hsalt, ⟨hcount, hrange⟩, hfits, hpos⟩, rfl, by rw [(hpack hfits).mpr hstream]⟩
  · rintro ⟨⟨hdsalt, ⟨hcount, hrange⟩, hfits, hpos⟩, hx, hl⟩
    obtain ⟨rfl, htail⟩ := List.append_inj hl (hdsalt.trans hsalt.symm)
    exact ⟨hx.symm, rfl, hcount, hrange, hfits, (hpack hfits).mp htail, hpos⟩

/-- Settles O47: the encoding has the length of its buffer, and what it decodes to is what was encoded. -/
theorem decodeUndoesEncode : Obligations.DecodeUndoesEncode :=
  ⟨fun _ hcanon => (decodePk_eq_ok_iff (length_encodePk hcanon.1)).mpr ⟨hcanon, rfl⟩,
    fun _ _ hsalt hcount hrange hfits => (decodeSig_eq_ok_iff (length_encodeSig hsalt hfits)).mpr
      ⟨⟨hsalt, ⟨hcount, hrange⟩, hfits, rfl⟩, rfl⟩⟩

/-- Settles O48: the bytes are the encoding of what they decode to. -/
theorem acceptedBytesAreTheOnlyEncoding : Obligations.AcceptedBytesAreTheOnlyEncoding := by
  refine ⟨fun l h hlen hdecode => ?_, fun l d hlen hdecode => ?_⟩
  · obtain ⟨-, hl⟩ := (decodePk_eq_ok_iff hlen).mp hdecode
    exact hl
  · obtain ⟨⟨-, ⟨-, hrange⟩, hfits, hpos⟩, hl⟩ := (decodeSig_eq_ok_iff hlen).mp hdecode
    exact ⟨hl, hpos, hfits, hrange⟩

end Sys2Proof.Machine

/-! PROOFS. The norm checker (46_norm_check.md R210, R211, R213): the squared norm as a sum over the lanes, and what `NORM`
answers. -/

namespace Sys2Proof.Machine

open Sys2Proof.Cert

/-! ### The squared norm lane by lane -/

theorem cnorm_eq_centered (v : Int) : cnorm v = centered v := rfl

theorem squareSum_eq_sum_map (l : List Int) : squareSum l = (l.map fun v => (centered v).natAbs ^ 2).sum := by
  rw [List.sum_eq_foldl, List.foldl_map]
  simp only [squareSum, cnorm_eq_centered]

theorem signedLanes_eq_ofFn (v : Poly) : signedLanes v = List.ofFn fun i : Fin 512 => laneInt v i := by
  refine List.ext_getElem (by rw [length_signedLanes, List.length_ofFn]) fun i hi _ => ?_
  rw [length_signedLanes] at hi
  rw [getElem_signedLanes_eq_laneInt v hi, List.getElem_ofFn]

theorem squareSum_signedLanes (v : Poly) :
    squareSum (signedLanes v) = ∑ i ∈ Finset.range 512, (centered (laneInt v i)).natAbs ^ 2 := by
  rw [squareSum_eq_sum_map, signedLanes_eq_ofFn, List.map_ofFn, List.sum_ofFn, Finset.sum_range]
  rfl

/-- The checker's sum is the squared norm of R211. -/
theorem normSquare_signedLanes (u v : Poly) :
    normSquare (signedLanes u) (signedLanes v) = normOf (laneInt u) (laneInt v) := by
  rw [normSquare, squareSum_signedLanes, squareSum_signedLanes, normOf]

theorem normOf_le {u v : Poly} (hu : Within (-6144) 12288 u) (hv : Within (-6144) 12288 v) :
    normOf (laneInt u) (laneInt v) ≤ 38654705664 :=
  (normSquare_signedLanes u v).symm.trans_le (normSquare_le (rangedLanes_of_within hu) (rangedLanes_of_within hv))

/-! ### `NORM` -/

/-- The end of `NORM` with operands in range, accepting or rejecting, as one equation (46_norm_check.md R213). -/
theorem normResult_eq_ended (n : Nat) (s : State) :
    normResult params n s = ended (if n ≤ 34034726 then .ok else .verificationFailed)
      { s with normsq := BitVec.ofNat 64 n, accept := decide (n ≤ 34034726) } := by
  have hbound : params.bound = 34034726 := rfl
  rw [normResult, hbound]
  by_cases hn : n ≤ 34034726
  · simp only [if_pos hn, decide_eq_true hn]
    exact complete_eq_ended _
  · simp only [if_neg hn, decide_eq_false hn]
    exact raise_eq_ended _ _

/-- A sum that R211 allows fits in the 64 bits of `NORMSQ`. -/
theorem toNat_normsq_normResult {n : Nat} (hn : n ≤ 38654705664) (s : State) : (normResult params n s).normsq.toNat = n := by
  rw [normResult_eq_ended]
  exact (BitVec.toNat_ofNat n 64).trans (Nat.mod_eq_of_lt (by omega))

theorem execNorm_of_within {rs1 rs2 : PReg} {s : State} (h1 : Within (-6144) 12288 (s.poly rs1))
    (h2 : Within (-6144) 12288 (s.poly rs2)) :
    execNorm rs1 rs2 s = .next (normResult params (normOf (laneInt (s.poly rs1)) (laneInt (s.poly rs2))) s) := by
  rw [execNorm, rangedLanes_of_within h1, rangedLanes_of_within h2, ← normSquare_signedLanes]

theorem execNorm_of_not_within {rs1 rs2 : PReg} {s : State}
    (h : ¬(Within (-6144) 12288 (s.poly rs1) ∧ Within (-6144) 12288 (s.poly rs2))) :
    execNorm rs1 rs2 s = .next (ended .operandRange { s with accept := false }) := by
  rcases execNorm_cases rs1 rs2 s with ⟨u, v, hu, hv, -⟩ | ⟨-, e⟩
  · obtain ⟨rfl, h1⟩ := (rangedLanes_eq_some _ _ _ _).mp hu
    obtain ⟨rfl, h2⟩ := (rangedLanes_eq_some _ _ _ _).mp hv
    exact absurd ⟨forall_mem_signedLanes_iff.mp h1, forall_mem_signedLanes_iff.mp h2⟩ h
  · rw [e, raise_eq_ended, setAccept]

/-- Settles O49: the lanes in range give a sum that fits in `NORMSQ`; the end is written by the bound. -/
theorem NormChecker.normResult : Obligations.NormResult := fun rs1 rs2 s =>
  ⟨by revert rs1 rs2; decide,
    fun h1 h2 => ⟨normOf_le h1 h2, _, execNorm_of_within h1 h2, toNat_normsq_normResult (normOf_le h1 h2) s,
      by rw [normResult_eq_ended]; rfl⟩,
    execNorm_of_not_within⟩

end Sys2Proof.Machine

/-! PROOFS. The steps 4 and 5 of `VERIFY` (47_verify_orchestrator.md R220, R222, R225): on the key, the signature and the challenge
that the steps before leave in their registers, every line finds its operands in range, and the squared norm decides. -/

namespace Sys2Proof.Machine

open Sys2Proof.Cert

/-! ### Registers written from lists -/

/-- 512 signature coefficients (45_codec.md R192). -/
def IsShortList (l : List Int) : Prop := l.length = 512 ∧ ∀ v ∈ l, -2047 ≤ v ∧ v ≤ 2047

theorem laneInt_polyOfNats {l : List Nat} (hl : IsCanonicalList l) {i : Nat} (hi : i < 512) :
    laneInt (polyOfNats l) i = (l.getD i 0 : Nat) := by
  have hsmall : ∀ x ∈ l, x < 2 ^ 15 := fun x hx => (hl.2 x hx).trans (by decide)
  rw [laneInt_eq_getElem _ hi, toInt_polyOfNats l hl.1 hsmall i hi, List.getD_eq_getElem _ _ (hl.1 ▸ hi)]

theorem signedLanes_polyOfInts_of_within {lo hi : Int} {l : List Int} (hlen : l.length = 512)
    (hl : ∀ v ∈ l, lo ≤ v ∧ v ≤ hi) (hlo : -(2 ^ 15) ≤ lo) (hhi : hi < 2 ^ 15) : signedLanes (polyOfInts l) = l :=
  signedLanes_polyOfInts l hlen fun v hv => ⟨hlo.trans (hl v hv).1, (hl v hv).2.trans_lt hhi⟩

theorem laneInt_eq_getD_signedLanes (v : Poly) {i : Nat} (hi : i < 512) : laneInt v i = (signedLanes v).getD i 0 := by
  rw [List.getD_eq_getElem _ _ (by simpa using hi), getElem_signedLanes_eq_laneInt v hi]

/-- A command of two registers that hold canonical lists works on these lists. -/
theorem canonicalBinary_of_lists (f : List Nat → List Nat → List Nat) (rd : PReg) {rs1 rs2 : PReg} {s : State}
    {a b : List Nat} (ha : IsCanonicalList a) (hb : IsCanonicalList b) (h1 : s.poly rs1 = polyOfNats a)
    (h2 : s.poly rs2 = polyOfNats b) :
    canonicalBinary f rd rs1 rs2 s = .next (complete (writePoly rd (polyOfNats (f a b)) s)) := by
  rw [canonicalBinary, canonicalPair, h1, h2, canonicalLanes_polyOfNats a ha.1 ha.2, canonicalLanes_polyOfNats b hb.1 hb.2]

theorem execPctr_of_list (rd : PReg) {rs1 : PReg} {s : State} {a : List Nat} (ha : IsCanonicalList a)
    (h1 : s.poly rs1 = polyOfNats a) :
    execPctr rd rs1 s = .next (complete (writePoly rd (polyOfInts (a.map center)) s)) := by
  rw [execPctr, h1, canonicalLanes_polyOfNats a ha.1 ha.2]

theorem IsShortList.signedLanes_polyOfInts {l : List Int} (hl : IsShortList l) : signedLanes (polyOfInts l) = l :=
  signedLanes_polyOfInts_of_within hl.1 hl.2 (by decide) (by decide)

theorem IsShortList.rangedLanes_polyOfInts {l : List Int} (hl : IsShortList l) {lo hi : Int} (hlo : lo ≤ -2047)
    (hhi : 2047 ≤ hi) : rangedLanes lo hi (polyOfInts l) = some l :=
  (rangedLanes_eq_some lo hi _ l).mpr
    ⟨hl.signedLanes_polyOfInts.symm, fun v hv => ⟨hlo.trans (hl.2 v hv).1, (hl.2 v hv).2.trans hhi⟩⟩

theorem execPcan_of_shortList (rd : PReg) {rs1 : PReg} {s : State} {l : List Int} (hl : IsShortList l)
    (h1 : s.poly rs1 = polyOfInts l) :
    execPcan rd rs1 s = .next (complete (writePoly rd (polyOfNats (l.map canon)) s)) := by
  rw [execPcan, h1, hl.rangedLanes_polyOfInts (by decide) (by decide)]

theorem normOf_congr {u u' v v' : Nat → Int} (hu : ∀ i < 512, u i = u' i) (hv : ∀ i < 512, v i = v' i) :
    normOf u v = normOf u' v' :=
  congrArg₂ (· + ·) (Finset.sum_congr rfl fun i hi => by rw [hu i (Finset.mem_range.mp hi)])
    (Finset.sum_congr rfl fun i hi => by rw [hv i (Finset.mem_range.mp hi)])

/-! ### The steps 4 and 5 -/

/-- What the steps 1 to 3 leave for step 4: the key, the coefficients of the signature and the challenge
(47_verify_orchestrator.md R225). -/
structure Operands (h : List Nat) (s2 : List Int) (c : List Nat) : Prop where
  key : IsCanonicalList h
  signature : IsShortList s2
  challenge : IsCanonicalList c

/-- `t` of 47_verify_orchestrator.md R220, the ring product of the signature and the key. -/
def ringProduct (h : List Nat) (s2 : List Int) : List Nat := mulring (s2.map canon) h

/-- `s1` of R220 as a list. -/
def s1List (h : List Nat) (s2 : List Int) (c : List Nat) : List Int :=
  (List.zipWith fsub c (ringProduct h s2)).map center

/-- The squared norm of R220. -/
def decidingNorm (h : List Nat) (s2 : List Int) (c : List Nat) : Nat := normOf (s1Of h s2 c) fun i => s2.getD i 0

section
variable {h : List Nat} {s2 : List Int} {c : List Nat} (ops : Operands h s2 c)
include ops

theorem Operands.residues_canonical : IsCanonicalList (s2.map canon) := by
  refine ⟨by rw [List.length_map, ops.signature.1], List.forall_mem_map.mpr fun v hv => ?_⟩
  obtain ⟨hlo, hhi⟩ := ops.signature.2 v hv
  exact canon_lt v (by omega) (by omega)

theorem Operands.ringProduct_canonical : IsCanonicalList (ringProduct h s2) :=
  ⟨length_mulring _ _ ops.residues_canonical.1 ops.key.1, mulring_canonical _ _⟩

theorem Operands.difference_canonical : IsCanonicalList (List.zipWith fsub c (ringProduct h s2)) :=
  ⟨by rw [List.length_zipWith, ops.challenge.1, ops.ringProduct_canonical.1, min_self], allCanonical_zipWith _ fsub_lt _ _⟩

theorem Operands.length_s1List : (s1List h s2 c).length = 512 := by
  rw [s1List, List.length_map, ops.difference_canonical.1]

theorem Operands.getD_s1List {i : Nat} (hi : i < 512) : (s1List h s2 c).getD i 0 = s1Of h s2 c i := by
  have hc : i < c.length := ops.challenge.1 ▸ hi
  have ht : i < (ringProduct h s2).length := ops.ringProduct_canonical.1 ▸ hi
  rw [List.getD_eq_getElem _ _ (ops.length_s1List ▸ hi), s1Of, ← ringProduct, List.getD_eq_getElem _ _ hc,
    List.getD_eq_getElem _ _ ht]
  simp only [s1List, List.getElem_map, List.getElem_zipWith]

/-- The lanes of `s1` are centered (40_field_arithmetic.md R94). -/
theorem Operands.s1List_centered : ∀ v ∈ s1List h s2 c, -6144 ≤ v ∧ v ≤ 6144 :=
  List.forall_mem_map.mpr fun x hx => center_range x (ops.difference_canonical.2 x hx)

theorem Operands.signedLanes_s1 : signedLanes (polyOfInts (s1List h s2 c)) = s1List h s2 c :=
  signedLanes_polyOfInts_of_within ops.length_s1List ops.s1List_centered (by decide) (by decide)

theorem Operands.laneInt_s1 {i : Nat} (hi : i < 512) : laneInt (polyOfInts (s1List h s2 c)) i = s1Of h s2 c i := by
  rw [laneInt_eq_getD_signedLanes _ hi, ops.signedLanes_s1, ops.getD_s1List hi]

theorem Operands.laneInt_s2 {i : Nat} (hi : i < 512) : laneInt (polyOfInts s2) i = s2.getD i 0 := by
  rw [laneInt_eq_getD_signedLanes _ hi, ops.signature.signedLanes_polyOfInts]

theorem Operands.within_s1 : Within (-6144) 12288 (polyOfInts (s1List h s2 c)) := by
  refine forall_mem_signedLanes_iff.mp fun v hv => ?_
  obtain ⟨hlo, hhi⟩ := ops.s1List_centered v (ops.signedLanes_s1 ▸ hv)
  exact ⟨hlo, by omega⟩

theorem Operands.within_s2 : Within (-6144) 12288 (polyOfInts s2) := by
  refine forall_mem_signedLanes_iff.mp fun v hv => ?_
  obtain ⟨hlo, hhi⟩ := ops.signature.2 v (ops.signature.signedLanes_polyOfInts ▸ hv)
  exact ⟨by omega, by omega⟩

theorem Operands.normOf_lanes :
    normOf (laneInt (polyOfInts (s1List h s2 c))) (laneInt (polyOfInts s2)) = decidingNorm h s2 c :=
  normOf_congr (fun _ => ops.laneInt_s1) (fun _ => ops.laneInt_s2)

/-- The squared norm fits in `NORMSQ` (46_norm_check.md R211). -/
theorem Operands.decidingNorm_le : decidingNorm h s2 c ≤ 38654705664 :=
  ops.normOf_lanes ▸ normOf_le ops.within_s1 ops.within_s2

end

/-- The end of a `VERIFY` that reaches step 5 with the squared norm `n` (47_verify_orchestrator.md R222, R223): accept and
`PHASE = 6`, or reject in step 5. -/
def judged (n : Nat) (s : State) : State :=
  ended (if n ≤ 34034726 then .ok else .verificationFailed)
    { s with normsq := BitVec.ofNat 64 n, accept := decide (n ≤ 34034726), phase := if n ≤ 34034726 then 6 else 5 }

theorem poly_judged (n : Nat) (s : State) (k : PReg) : (judged n s).poly k = s.poly k := rfl

theorem judged_accept (n : Nat) (s : State) : (judged n s).accept = decide (n ≤ 34034726) := rfl

theorem judged_err (n : Nat) (s : State) : (judged n s).err = if n ≤ 34034726 then .ok else .verificationFailed := rfl

theorem judged_phase (n : Nat) (s : State) : (judged n s).phase = if n ≤ 34034726 then 6 else 5 := rfl

theorem toNat_normsq_judged {n : Nat} (hn : n ≤ 38654705664) (s : State) : (judged n s).normsq.toNat = n :=
  (BitVec.toNat_ofNat n 64).trans (Nat.mod_eq_of_lt (by omega))

/-- The state after a line of step 4, all of which write `T`. -/
def stepFourLine (v : Poly) (u : State) : State := complete (writePoly regT v (setPhase 4 u))

theorem stepFourLine_twice (v w : Poly) (u : State) : stepFourLine v (stepFourLine w u) = stepFourLine v u := by
  simp [stepFourLine, writePoly, complete, finishCommand, setPhase]

@[simp] theorem poly_stepFourLine_same (v : Poly) (u : State) : (stepFourLine v u).poly regT = v := by
  simp [stepFourLine]

theorem poly_stepFourLine_other (v : Poly) (u : State) {k : PReg} (hk : k ≠ regT) :
    (stepFourLine v u).poly k = u.poly k := by
  simp [stepFourLine, poly_writePoly_other _ _ _ _ hk]

/-- `NORM` as the last line of `VERIFY`. -/
theorem runLines_norm {u : State} (h1 : Within (-6144) 12288 (u.poly regT)) (h2 : Within (-6144) 12288 (u.poly regS2)) :
    runLines [(5, execNorm regT regS2)] u =
      .next (judged (normOf (laneInt (u.poly regT)) (laneInt (u.poly regS2))) u) := by
  have hline := execNorm_of_within (s := setPhase 5 u) h1 h2
  rw [normResult_eq_ended, poly_setPhase, poly_setPhase] at hline
  by_cases hn : normOf (laneInt (u.poly regT)) (laneInt (u.poly regS2)) ≤ 34034726
  · simp only [judged, if_pos hn, decide_eq_true hn] at hline ⊢
    exact runLines_goes_on _ _ _ _ _ hline rfl
  · simp only [judged, if_neg hn, decide_eq_false hn] at hline ⊢
    exact runLines_stops _ _ _ _ _ hline nofun

/-- The steps 4 and 5 on the operands that the steps before leave: every line of step 4 writes `T`, and `NORM` decides. -/
theorem runLines_stepFour {u : State} {h : List Nat} {s2 : List Int} {c : List Nat} (ops : Operands h s2 c)
    (hH : u.poly regH = polyOfNats h) (hS : u.poly regS2 = polyOfInts s2) (hC : u.poly regC = polyOfNats c) :
    runLines (verifyLines.drop 7) u =
      .next (judged (decidingNorm h s2 c) (stepFourLine (polyOfInts (s1List h s2 c)) u)) := by
  have keeps (v : Poly) {k : PReg} (hk : k ≠ regT) : (setPhase 4 (stepFourLine v u)).poly k = u.poly k :=
    poly_stepFourLine_other v u hk
  have writesT (v : Poly) : (setPhase 4 (stepFourLine v u)).poly regT = v := poly_stepFourLine_same v u
  have pcan : execPcan regT regS2 (setPhase 4 u) = .next (stepFourLine (polyOfNats (s2.map canon)) u) :=
    execPcan_of_shortList regT ops.signature hS
  have nttmul : execNttmul regT regT regH (setPhase 4 (stepFourLine (polyOfNats (s2.map canon)) u)) =
      .next (stepFourLine (polyOfNats (ringProduct h s2)) (stepFourLine _ u)) :=
    canonicalBinary_of_lists mulring regT ops.residues_canonical ops.key (writesT _) ((keeps _ (by decide)).trans hH)
  have psub : execPsub regT regC regT (setPhase 4 (stepFourLine (polyOfNats (ringProduct h s2)) u)) =
      .next (stepFourLine (polyOfNats (List.zipWith fsub c (ringProduct h s2))) (stepFourLine _ u)) :=
    canonicalBinary_of_lists _ regT ops.challenge ops.ringProduct_canonical ((keeps _ (by decide)).trans hC) (writesT _)
  have pctr : execPctr regT regT (setPhase 4 (stepFourLine (polyOfNats (List.zipWith fsub c (ringProduct h s2))) u)) =
      .next (stepFourLine (polyOfInts (s1List h s2 c)) (stepFourLine _ u)) :=
    execPctr_of_list regT ops.difference_canonical (writesT _)
  rw [stepFourLine_twice] at nttmul psub pctr
  have hS' : (stepFourLine (polyOfInts (s1List h s2 c)) u).poly regS2 = polyOfInts s2 :=
    (poly_stepFourLine_other _ u (by decide)).trans hS
  calc runLines (verifyLines.drop 7) u
    _ = runLines (verifyLines.drop 8) _ := runLines_goes_on _ _ _ _ _ pcan rfl
    _ = runLines (verifyLines.drop 9) _ := runLines_goes_on _ _ _ _ _ nttmul rfl
    _ = runLines (verifyLines.drop 10) _ := runLines_goes_on _ _ _ _ _ psub rfl
    _ = runLines (verifyLines.drop 11) _ := runLines_goes_on _ _ _ _ _ pctr rfl
    _ = _ := runLines_norm (by simpa using ops.within_s1) (by simpa only [hS'] using ops.within_s2)
    _ = _ := by rw [poly_stepFourLine_same, hS', ops.normOf_lanes]

end Sys2Proof.Machine

/-! PROOFS. `VERIFY` as a whole (47_verify_orchestrator.md): a verdict that the six inputs alone determine (R220, R229), the end
that each verdict gives (R222 to R224), and from these what an accepting and a rejecting `VERIFY` leave. -/

namespace Sys2Proof.Machine

open Sys2Proof.Cert

/-! ### What a buffer is read as -/

/-- The bytes of a successful `Memory.scan` are those the memory reads as, whatever the memory. -/
theorem read_of_scan {m : Memory} {i k : Nat} {l : List Byte} (h : Memory.scan m i k = some l) (j : Nat)
    (hj : j < l.length) : Memory.read m (i + j) = some l[j] := by
  induction k generalizing m i l j with
  | zero => simp [length_scan m i 0 l h] at hj
  | succ k ih =>
    cases m with
    | nil => simp [Memory.scan] at h
    | cons cell rest =>
      obtain ⟨x, v⟩ := cell
      simp only [Memory.scan, Option.ite_none_right_eq_some, Option.map_eq_some_iff] at h
      obtain ⟨rfl, t, ht, rfl⟩ := h
      cases j with
      | zero => simp [Memory.read]
      | succ j =>
        have hne : x ≠ x + (j + 1) := by omega
        have htail := ih ht j (by simpa using hj)
        rw [Nat.add_right_comm, Nat.add_assoc] at htail
        simpa [Memory.read, hne] using htail

theorem holds_of_memRead {m : Memory} {k : Nat} {l : List Byte} (h : memRead m k = some l) : Holds m l := fun j hj => by
  simpa using read_of_scan h j hj

/-- A signature's salt, read back from `SALT`. -/
theorem eq_of_memRead_memWrite {m : Memory} {salt l : List Byte} {k : Nat} (hlen : salt.length = k)
    (h : memRead (memWrite m 0 salt) k = some l) : l = salt := by
  have hl := length_memRead _ _ _ h
  refine List.ext_getElem (hl.trans hlen.symm) fun j hj hj' => Option.some.inj ?_
  rw [← holds_of_memRead h j hj, read_memWrite, dif_pos (by omega)]
  simp

theorem memRead_memWrite_of_wf {m : Memory} {salt : List Byte} {k : Nat} (hlen : salt.length = k)
    (hw : Memory.wf k m = true) : memRead (memWrite m 0 salt) k = some salt := by
  refine (memRead_eq_some k _ k salt (memWrite_wf k m 0 salt (by omega) hw)).mpr ⟨hlen, fun j hj => ?_⟩
  rw [read_memWrite, dif_pos (by omega)]
  simp

/-! ### What the decoders and the sampling loop answer -/

/-- The errors that stop step 1 (R224). -/
def keyErrors : List ErrorKind := [.badLength, .badHeader, .badCoefficient]

/-- The errors that stop step 2 (R224). -/
def signatureErrors : List ErrorKind :=
  [.badLength, .badHeader, .badCoefficient, .codecDesync, .codecOverflow, .internalBoundExceeded]

/-- The errors of a rejecting `VERIFY` (R228). -/
def rejectErrors : List ErrorKind :=
  [.badLength, .badHeader, .badCoefficient, .codecDesync, .codecOverflow, .verificationFailed, .internalBoundExceeded,
    .lengthRange]

theorem keyErrors_subset : keyErrors ⊆ rejectErrors := by decide

theorem signatureErrors_subset : signatureErrors ⊆ rejectErrors := by decide

theorem decodePk_errors {prm : Config.Params} {len : Nat} {l : List Byte} {k : ErrorKind}
    (h : decodePk prm len l = .error k) : k ∈ keyErrors := by
  unfold decodePk at h
  split at h
  · cases h; decide
  · split at h
    · cases h; decide
    · split at h <;> cases h
      decide

theorem isCanonicalList_of_sample {fuel : Nat} {sp sp' : Sponge} {c : List Nat}
    (hc : sample fuel 512 sp [] = some (c, sp')) : IsCanonicalList c := by
  obtain ⟨hlen, hcan⟩ := sample_some _ _ _ _ _ _ hc
  exact ⟨by simpa using hlen, hcan nofun⟩

/-- A signature decoded from a buffer: its salt is 40 bytes of the buffer, from index 1 on, and its coefficients are short
(45_codec.md R194). -/
structure SignatureOf (m : Memory) (d : DecodedSig) : Prop where
  length_salt : d.salt.length = 40
  salt : ∀ j < 40, Memory.read m (1 + j) = some (d.salt.getD j 0)
  s2 : IsShortList d.s2

section
variable {m : Memory} {len : Nat} {sg : List Byte} (hread : readDeclared m len 666 = some sg)
include hread

theorem signatureOf_of_decodeSig {d : DecodedSig} (hd : decodeSig params len sg = .ok d) : SignatureOf m d := by
  have answers := decodeSig_cases params len sg (length_readDeclared hread)
  rw [hd] at answers
  obtain ⟨_, ⟨⟩, rfl, hsalt, hlen, hcount, hshort, -⟩ | ⟨_, _, ⟨⟩, -⟩ := answers
  have hbytes : sg.length = 666 := length_readDeclared hread rfl
  rw [readDeclared, if_pos rfl] at hread
  refine ⟨hlen, fun j hj => ?_, hcount, fun v hv => ?_⟩
  · rw [holds_of_memRead hread (1 + j) (by omega), List.getD_eq_getElem _ _ (by omega)]
    simp only [hsalt, List.getElem_take, List.getElem_drop]
  · have hv : v.natAbs ≤ 2047 := hshort v hv
    omega

theorem decodeSig_errors {k : ErrorKind} {p : Nat} (hd : decodeSig params len sg = .error (k, p)) :
    k ∈ signatureErrors := by
  have answers := decodeSig_cases params len sg (length_readDeclared hread)
  rw [hd] at answers
  obtain ⟨_, ⟨⟩, -⟩ | ⟨_, _, ⟨⟩, -, hk⟩ := answers
  rcases hk with rfl | rfl | rfl | rfl | rfl | rfl <;> decide

end

/-- `SALT` after a signature has been decoded. -/
theorem SignatureOf.read_salt {m : Memory} {d : DecodedSig} (hd : SignatureOf m d) (old : Memory) {j : Nat} (hj : j < 40) :
    Memory.read (memWrite old 0 d.salt) j = some (d.salt.getD j 0) := by
  have hlen := hd.length_salt
  rw [read_memWrite, dif_pos (by omega), List.getD_eq_getElem _ _ (by omega)]
  rfl

/-- Bytes that do not fill the rate portion move the cursor by their number (43_sponge_keccak.md R151). -/
theorem absorb_cur (sp : Sponge) (l : List Byte) (h : sp.cur.val + l.length < 136) :
    (absorb sp l).cur.val = sp.cur.val + l.length := by
  induction l generalizing sp with
  | nil => rfl
  | cons x l ih =>
    rw [List.length_cons] at h ⊢
    have hpart := absorbByte_part sp x (by omega)
    rw [show absorb sp (x :: l) = absorb (absorbByte sp x) l from rfl, ih _ (by simp only [hpart]; omega)]
    simp only [hpart]
    omega

theorem SignatureOf.absorb_salt_cur {m : Memory} {d : DecodedSig} (hd : SignatureOf m d) :
    (absorb emptySponge d.salt).cur = 40 := by
  have hcur := absorb_cur emptySponge d.salt (by simp [hd.length_salt, emptySponge])
  exact Fin.ext (hcur.trans (by simp [hd.length_salt, emptySponge]))

/-! ### What the lines of step 3 answer -/

theorem execShabs_of_sourceUnwritten {sel : Fin 4} {s : State} {sp : ByteSpace} (hsel : selectorLegal sel = true)
    (hmode : s.kmode = .absorbing) (hsp : absorbSource sel s = .unwritten sp) :
    execShabs sel s = .refused (.neverWritten sp) := by
  simp [execShabs, hsel, hmode, hsp]

theorem sourceBytes_of_memRead {s : State} {sp : ByteSpace} {k : Nat} {l : List Byte}
    (h : memRead (s.space sp) k = some l) : sourceBytes s sp k = .bytes l := by
  rw [sourceBytes, h]

theorem sourceBytes_of_unwritten {s : State} {sp : ByteSpace} {k : Nat} (h : memRead (s.space sp) k = none) :
    sourceBytes s sp k = .unwritten sp := by
  rw [sourceBytes, h]

theorem execH2p_of_sample (rd : PReg) {s : State} {c : List Nat} {sp : Sponge} (hmode : s.kmode = .squeezing)
    (hc : sample sampleFuel 512 s.sponge [] = some (c, sp)) :
    execH2p rd s = .next (complete (writePoly rd (polyOfNats c) (s.setSponge sp))) := by
  rw [execH2p, hmode]
  simp only [Config.n, hc]

/-! ### The verdict -/

/-- How a `VERIFY` ends, with the values its end state shows (47_verify_orchestrator.md R220, R224). -/
inductive Verdict where
  /-- A byte of the key, the signature or the message has never been written (70_reset_and_hazards.md R262). -/
  | unwritten (sp : ByteSpace)
  /-- The sampling loop of step 3 does not end (44_hash_to_point.md R172). -/
  | neverEnds
  /-- Step 1 stops. -/
  | badKey (k : ErrorKind)
  /-- Step 2 stops, at a position of the signature. -/
  | badSignature (h : List Nat) (k : ErrorKind) (p : Nat)
  /-- Step 3 stops. -/
  | longMessage (h : List Nat) (d : DecodedSig)
  /-- Step 5 decides. -/
  | decided (h : List Nat) (d : DecodedSig) (c : List Nat) (sp : Sponge)

/-- The sampling of step 3, and what follows from it. -/
def challengeVerdict (h : List Nat) (d : DecodedSig) (m : List Byte) : Verdict :=
  match sample sampleFuel 512 (finishSponge (absorb emptySponge (d.salt ++ m))) [] with
  | none => .neverEnds
  | some (c, sp) => .decided h d c sp

/-- Step 3 with the key and the signature decoded, and what follows from it. -/
def messageVerdict (h : List Nat) (d : DecodedSig) (s : State) : Verdict :=
  if s.msgMax < s.mlen.toNat then .longMessage h d
  else
    match memRead s.msgbuf s.mlen.toNat with
    | none => .unwritten .msgbuf
    | some m => challengeVerdict h d m

/-- Step 2 with the key decoded, and what follows from it. -/
def signatureVerdict (h : List Nat) (s : State) : Verdict :=
  match readDeclared s.sigbuf s.siglen.toNat 666 with
  | none => .unwritten .sigbuf
  | some sg =>
    match decodeSig params s.siglen.toNat sg with
    | .error (k, p) => .badSignature h k p
    | .ok d => messageVerdict h d s

/-- The verdict on the key, the signature and the message of a state (R220). -/
def verdict (s : State) : Verdict :=
  match readDeclared s.pkbuf s.pklen.toNat 897 with
  | none => .unwritten .pkbuf
  | some pk =>
    match decodePk params s.pklen.toNat pk with
    | .error k => .badKey k
    | .ok h => signatureVerdict h s

/-! ### The states of a `VERIFY` -/

/-- What step 1 writes. -/
def keyDecoded (h : List Nat) (s : State) : State := writePoly regH (polyOfNats h) s

/-- What the steps 1 and 2 write. -/
def signatureDecoded (h : List Nat) (d : DecodedSig) (s : State) : State :=
  writePoly regS2 (polyOfInts d.s2) { setCursor d.pos (keyDecoded h s) with salt := memWrite s.salt 0 d.salt }

/-- What has been written when step 3 has absorbed the salt. -/
def saltAbsorbed (h : List Nat) (d : DecodedSig) (s : State) : State :=
  { (signatureDecoded h d s).setSponge (absorb emptySponge d.salt) with kmode := .absorbing }

/-- The state after `SHINIT`. -/
def spongeEmptied (u : State) : State := { u.setSponge emptySponge with kmode := .absorbing }

/-- What `SHABS MSG`, `SHFIN` and `H2P` write. -/
def challengeSampled (c : List Nat) (sp : Sponge) (u : State) : State :=
  writePoly regC (polyOfNats c) { u.setSponge sp with kmode := .squeezing }

/-- A `VERIFY` stopped in a step with an error (R222). -/
def stoppedIn (step : Fin 7) (k : ErrorKind) (s : State) : State := ended k { s with phase := step, accept := false }

@[simp] theorem stoppedIn_err (step : Fin 7) (k : ErrorKind) (s : State) : (stoppedIn step k s).err = k := rfl

@[simp] theorem stoppedIn_phase (step : Fin 7) (k : ErrorKind) (s : State) : (stoppedIn step k s).phase = step := rfl

theorem poly_signatureDecoded_key (h : List Nat) (d : DecodedSig) (s : State) :
    (signatureDecoded h d s).poly regH = polyOfNats h :=
  (poly_writePoly_other _ regS2 regH _ (by decide)).trans (poly_writePoly_same s regH _)

theorem poly_signatureDecoded_s2 (h : List Nat) (d : DecodedSig) (s : State) :
    (signatureDecoded h d s).poly regS2 = polyOfInts d.s2 := poly_writePoly_same _ regS2 _

theorem poly_challengeSampled_challenge (c : List Nat) (sp : Sponge) (u : State) :
    (challengeSampled c sp u).poly regC = polyOfNats c := poly_writePoly_same _ regC _

theorem poly_challengeSampled_other (c : List Nat) (sp : Sponge) (u : State) {k : PReg} (hk : k ≠ regC) :
    (challengeSampled c sp u).poly k = u.poly k := poly_writePoly_other _ regC k _ hk

/-- A `VERIFY` that reached step 5 (R223). -/
def decidedEnd (h : List Nat) (d : DecodedSig) (c : List Nat) (sp : Sponge) (s : State) : State :=
  judged (decidingNorm h d.s2 c)
    (writePoly regT (polyOfInts (s1List h d.s2 c)) (challengeSampled c sp (signatureDecoded h d s)))

/-- How a `VERIFY` of a state with a given verdict ends (R223, R224). -/
def Verdict.result (s : State) : Verdict → Result
  | .unwritten sp => .refused (.neverWritten sp)
  | .neverEnds => .fault .sampleNeverEnds
  | .badKey k => .next (stoppedIn 1 k s)
  | .badSignature h k p => .next (stoppedIn 2 k (setCursor p (keyDecoded h s)))
  | .longMessage h d => .next (stoppedIn 3 .lengthRange (saltAbsorbed h d s))
  | .decided h d c sp => .next (decidedEnd h d c sp s)

/-- The state after a line that ends without error. -/
def passed (step : Fin 7) (s : State) : State := complete (setPhase step s)

/-! ### From line to line -/

theorem runLines_refused {k : Fin 7} {line : State → Result} {rest : List (Fin 7 × (State → Result))} {s : State}
    {r : Refusal} (h : line (setPhase k s) = .refused r) : runLines ((k, line) :: rest) s = .refused r := by
  rw [runLines, h]

theorem runLines_fault {k : Fin 7} {line : State → Result} {rest : List (Fin 7 × (State → Result))} {s : State}
    {r : Fault} (h : line (setPhase k s) = .fault r) : runLines ((k, line) :: rest) s = .fault r := by
  rw [runLines, h]

theorem runLines_stops_in {k : Fin 7} {line : State → Result} {rest : List (Fin 7 × (State → Result))} {u : State}
    {e : ErrorKind} (h : line (setPhase k u) = .next (ended e (setPhase k u))) (he : e ≠ .ok) :
    runLines ((k, line) :: rest) u = .next (stoppedIn k e u) := runLines_stops k line rest u _ h he

section
variable (u : State)

/-- `SHABS MSG` with a message that does not fit. -/
theorem runLines_message_of_long (hmode : u.kmode = .absorbing) (hlong : u.msgMax < u.mlen.toNat) :
    runLines (verifyLines.drop 4) (passed 3 u) = .next (stoppedIn 3 .lengthRange u) :=
  runLines_stops_in (u := passed 3 u)
    (execShabs_of_sourceError rfl hmode (absorbSource_message_of_long (s := setPhase 3 (passed 3 u)) hlong)) nofun

/-- `SHABS MSG` with a byte of the message never written. -/
theorem runLines_message_of_unwritten (hmode : u.kmode = .absorbing) (hfits : u.mlen.toNat ≤ u.msgMax)
    (hm : memRead u.msgbuf u.mlen.toNat = none) :
    runLines (verifyLines.drop 4) (passed 3 u) = .refused (.neverWritten .msgbuf) := by
  have hsource := absorbSource_message_of_fits (s := setPhase 3 (passed 3 u)) hfits
  exact runLines_refused
    (execShabs_of_sourceUnwritten rfl hmode (hsource.trans (sourceBytes_of_unwritten (sp := .msgbuf) hm)))

/-- `SHABS MSG` and `SHFIN` with a message that fits. -/
theorem runLines_message_of_bytes {m : List Byte} (hmode : u.kmode = .absorbing) (hfits : u.mlen.toNat ≤ u.msgMax)
    (hm : memRead u.msgbuf u.mlen.toNat = some m) :
    runLines (verifyLines.drop 4) (passed 3 u) =
      runLines (verifyLines.drop 6) (passed 3 { u.setSponge (finishSponge (absorb u.sponge m)) with kmode := .squeezing }) := by
  have hsource := absorbSource_message_of_fits (s := setPhase 3 (passed 3 u)) hfits
  have shabs : execShabs 1 (setPhase 3 (passed 3 u)) = .next (passed 3 (u.setSponge (absorb u.sponge m))) :=
    execShabs_of_sourceBytes rfl hmode (hsource.trans (sourceBytes_of_memRead (sp := .msgbuf) hm))
  have shfin := execShfin_of_absorbing (s := setPhase 3 (passed 3 (u.setSponge (absorb u.sponge m)))) hmode
  exact (runLines_goes_on _ _ _ _ _ shabs rfl).trans (runLines_goes_on _ _ _ _ _ shfin rfl)

/-- `H2P` where the sampling loop does not end. -/
theorem runLines_h2p_of_none {sp : Sponge} (hc : sample sampleFuel 512 sp [] = none) :
    runLines (verifyLines.drop 6) (passed 3 { u.setSponge sp with kmode := .squeezing }) = .fault .sampleNeverEnds :=
  runLines_fault ((execH2p_faults_iff regC rfl).mpr hc)

/-- `H2P` where the sampling loop ends. -/
theorem runLines_h2p_of_sample {sp sp' : Sponge} {c : List Nat} (hc : sample sampleFuel 512 sp [] = some (c, sp')) :
    runLines (verifyLines.drop 6) (passed 3 { u.setSponge sp with kmode := .squeezing }) =
      runLines (verifyLines.drop 7) (passed 3 (challengeSampled c sp' u)) := by
  have hline := execH2p_of_sample regC
    (s := setPhase 3 (passed 3 { u.setSponge sp with kmode := .squeezing })) rfl hc
  exact runLines_goes_on _ _ _ _ _ hline rfl

theorem runLines_shinit :
    runLines (verifyLines.drop 2) (passed 2 u) = runLines (verifyLines.drop 3) (passed 3 (spongeEmptied u)) :=
  runLines_goes_on _ _ _ _ (passed 3 (spongeEmptied u)) rfl rfl

/-- `SHABS SALT` with a byte of the salt never written. -/
theorem runLines_salt_of_unwritten (hmode : u.kmode = .absorbing) (hl : memRead u.salt 40 = none) :
    runLines (verifyLines.drop 3) (passed 3 u) = .refused (.neverWritten .salt) :=
  runLines_refused (execShabs_of_sourceUnwritten rfl hmode
    (sourceBytes_of_unwritten (s := setPhase 3 (passed 3 u)) (sp := .salt) hl))

/-- `SHABS SALT` with a salt. -/
theorem runLines_salt_of_bytes {l : List Byte} (hmode : u.kmode = .absorbing) (hl : memRead u.salt 40 = some l) :
    runLines (verifyLines.drop 3) (passed 3 u) =
      runLines (verifyLines.drop 4) (passed 3 (u.setSponge (absorb u.sponge l))) := by
  have shabs : execShabs 0 (setPhase 3 (passed 3 u)) = .next (passed 3 (u.setSponge (absorb u.sponge l))) :=
    execShabs_of_sourceBytes rfl hmode (sourceBytes_of_memRead (s := setPhase 3 (passed 3 u)) (sp := .salt) hl)
  exact runLines_goes_on _ _ _ _ _ shabs rfl

end

theorem judged_stepFourLine_passed (n : Nat) (v : Poly) (k : Fin 7) (u : State) :
    judged n (stepFourLine v (passed k u)) = judged n (writePoly regT v u) := by
  simp only [judged, stepFourLine, passed, ended, writePoly, complete, finishCommand, setPhase]

/-! ### `VERIFY` ends as the verdict says -/

/-- The steps 4 and 5 after the challenge. -/
theorem runLines_challenge {h : List Nat} {d : DecodedSig} {c : List Nat} (s : State) (sp : Sponge)
    (ops : Operands h d.s2 c) :
    runLines (verifyLines.drop 7) (passed 3 (challengeSampled c sp (signatureDecoded h d s))) =
      (Verdict.decided h d c sp).result s := by
  rw [runLines_stepFour (u := passed 3 (challengeSampled c sp (signatureDecoded h d s))) ops
    ((poly_challengeSampled_other c sp _ (by decide)).trans (poly_signatureDecoded_key h d s))
    ((poly_challengeSampled_other c sp _ (by decide)).trans (poly_signatureDecoded_s2 h d s))
    (poly_challengeSampled_challenge c sp _),
    judged_stepFourLine_passed, Verdict.result, decidedEnd]

/-- Step 3 after the salt has been absorbed, and what follows from it. -/
theorem runLines_message {h : List Nat} {d : DecodedSig} (s : State) (hkey : IsCanonicalList h) (hs2 : IsShortList d.s2) :
    runLines (verifyLines.drop 4) (passed 3 (saltAbsorbed h d s)) = (messageVerdict h d s).result s := by
  rw [messageVerdict]
  by_cases hlong : s.msgMax < s.mlen.toNat
  · rw [if_pos hlong]
    exact runLines_message_of_long _ rfl hlong
  rw [if_neg hlong]
  have hfits : s.mlen.toNat ≤ s.msgMax := Nat.not_lt.mp hlong
  cases hm : memRead s.msgbuf s.mlen.toNat with
  | none => exact runLines_message_of_unwritten (saltAbsorbed h d s) rfl hfits hm
  | some m =>
    have hsponge : absorb (saltAbsorbed h d s).sponge m = absorb emptySponge (d.salt ++ m) := List.foldl_append.symm
    rw [runLines_message_of_bytes (saltAbsorbed h d s) rfl hfits hm, hsponge]
    show _ = (challengeVerdict h d m).result s
    rw [challengeVerdict]
    cases hc : sample sampleFuel 512 (finishSponge (absorb emptySponge (d.salt ++ m))) [] with
    | none => exact runLines_h2p_of_none _ hc
    | some r =>
      obtain ⟨c, sp⟩ := r
      exact (runLines_h2p_of_sample _ hc).trans (runLines_challenge s sp ⟨hkey, hs2, isCanonicalList_of_sample hc⟩)

/-- Step 3 ends as the verdict says, or the model refuses to read the salt, where `SALT` is not canonical. -/
theorem runLines_stepThree {h : List Nat} {d : DecodedSig} (s : State) (hkey : IsCanonicalList h)
    (hd : SignatureOf s.sigbuf d) :
    runLines (verifyLines.drop 2) (passed 2 (signatureDecoded h d s)) = (messageVerdict h d s).result s ∨
      Memory.wf 40 s.salt = false ∧
        runLines (verifyLines.drop 2) (passed 2 (signatureDecoded h d s)) = .refused (.neverWritten .salt) := by
  rw [runLines_shinit]
  cases hl : memRead (memWrite s.salt 0 d.salt) 40 with
  | none =>
    refine .inr ⟨Bool.eq_false_iff.mpr fun hw => ?_, runLines_salt_of_unwritten _ rfl hl⟩
    cases (memRead_memWrite_of_wf hd.length_salt hw).symm.trans hl
  | some l =>
    obtain rfl := eq_of_memRead_memWrite hd.length_salt hl
    exact .inl ((runLines_salt_of_bytes (spongeEmptied (signatureDecoded h d s)) rfl hl).trans
      (runLines_message s hkey hd.s2))

/-- Step 2 with the key decoded, and what follows from it. -/
theorem runLines_stepTwo {h : List Nat} (s : State) (hkey : IsCanonicalList h) :
    runLines (verifyLines.drop 1) (passed 1 (keyDecoded h s)) = (signatureVerdict h s).result s ∨
      Memory.wf 40 s.salt = false ∧
        runLines (verifyLines.drop 1) (passed 1 (keyDecoded h s)) = .refused (.neverWritten .salt) := by
  rcases execSigdec_cases regS2 (setPhase 2 (passed 1 (keyDecoded h s))) with
    ⟨hread, hline⟩ | ⟨sg, hread, ⟨k, p, hd, hline⟩ | ⟨d, hd, hline⟩⟩ <;>
    replace hread : readDeclared s.sigbuf s.siglen.toNat 666 = _ := hread
  · exact .inl ((runLines_refused hline).trans (by rw [signatureVerdict, hread]; rfl))
  · replace hd : decodeSig params s.siglen.toNat sg = .error (k, p) := hd
    refine .inl ((runLines_stops _ _ _ _ _ hline ?_).trans (by simp only [signatureVerdict, hread, hd]; rfl))
    rintro rfl
    exact absurd (decodeSig_errors hread hd) (by decide)
  · replace hd : decodeSig params s.siglen.toNat sg = .ok d := hd
    have hnext : runLines (verifyLines.drop 1) (passed 1 (keyDecoded h s)) =
        runLines (verifyLines.drop 2) (passed 2 (signatureDecoded h d s)) := runLines_goes_on _ _ _ _ _ hline rfl
    rw [hnext]
    simp only [signatureVerdict, hread, hd]
    exact runLines_stepThree s hkey (signatureOf_of_decodeSig hread hd)

/-- `VERIFY` ends as its verdict says, or the model refuses to read the salt, where `SALT` is not canonical. -/
theorem execVerify_eq_result_or (s : State) :
    execVerify s = (verdict s).result s ∨
      Memory.wf 40 s.salt = false ∧ execVerify s = .refused (.neverWritten .salt) := by
  rcases execPkdec_cases regH (setPhase 1 s) with ⟨hread, hline⟩ | ⟨pk, hread, ⟨k, hd, hline⟩ | ⟨h, hd, hline⟩⟩ <;>
    replace hread : readDeclared s.pkbuf s.pklen.toNat 897 = _ := hread
  · exact .inl ((runLines_refused hline).trans (by rw [verdict, hread]; rfl))
  · replace hd : decodePk params s.pklen.toNat pk = .error k := hd
    exact .inl ((runLines_stops _ _ _ _ _ hline (decodePk_error_ne_ok hd)).trans
      (by simp only [verdict, hread, hd]; rfl))
  · replace hd : decodePk params s.pklen.toNat pk = .ok h := hd
    have hnext : execVerify s = runLines (verifyLines.drop 1) (passed 1 (keyDecoded h s)) :=
      runLines_goes_on _ _ _ _ _ hline rfl
    rw [hnext]
    simp only [verdict, hread, hd]
    exact runLines_stepTwo s (decodePk_ok _ _ _ _ hd).2

/-- `VERIFY` of a core with a canonical salt buffer ends as its verdict says. -/
theorem execVerify_of_canonicalSalt {s : State} (hw : Memory.wf 40 s.salt = true) :
    execVerify s = (verdict s).result s :=
  (execVerify_eq_result_or s).resolve_right fun h => by simp [hw] at h

/-! ### What a verdict says of its state -/

/-- The values in the verdict on a state are what the decoders and the sampling loop can answer. -/
def Verdict.Sound (s : State) : Verdict → Prop
  | .unwritten _ => True
  | .neverEnds => True
  | .badKey k => k ∈ keyErrors
  | .badSignature _ k _ => k ∈ signatureErrors
  | .longMessage _ d => s.msgMax < s.mlen.toNat ∧ SignatureOf s.sigbuf d
  | .decided h d c _ => Operands h d.s2 c ∧ SignatureOf s.sigbuf d

theorem challengeVerdict_sound {h : List Nat} {d : DecodedSig} {s : State} (hkey : IsCanonicalList h)
    (hd : SignatureOf s.sigbuf d) (m : List Byte) : (challengeVerdict h d m).Sound s := by
  rw [challengeVerdict]
  split
  · trivial
  · next c sp hc => exact ⟨⟨hkey, hd.s2, isCanonicalList_of_sample hc⟩, hd⟩

theorem messageVerdict_sound {h : List Nat} {d : DecodedSig} {s : State} (hkey : IsCanonicalList h)
    (hd : SignatureOf s.sigbuf d) : (messageVerdict h d s).Sound s := by
  rw [messageVerdict]
  split
  · next hlong => exact ⟨hlong, hd⟩
  · split
    · trivial
    · exact challengeVerdict_sound hkey hd _

theorem signatureVerdict_sound {h : List Nat} {s : State} (hkey : IsCanonicalList h) : (signatureVerdict h s).Sound s := by
  rw [signatureVerdict]
  split
  · trivial
  · next sg hread =>
    split
    · next k p hd => exact decodeSig_errors hread hd
    · next d hd => exact messageVerdict_sound hkey (signatureOf_of_decodeSig hread hd)

theorem verdict_sound (s : State) : (verdict s).Sound s := by
  rw [verdict]
  split
  · trivial
  · split
    · next k hd => exact decodePk_errors hd
    · next h hd => exact signatureVerdict_sound (decodePk_ok _ _ _ _ hd).2

/-- Everything a `VERIFY` that answers a next state can do. -/
theorem sound_verdict_of_execVerify_next {s t : State} (h : execVerify s = .next t) :
    ∃ v : Verdict, v.Sound s ∧ v.result s = .next t := by
  rcases execVerify_eq_result_or s with e | ⟨-, e⟩
  · exact ⟨verdict s, verdict_sound s, e.symm.trans h⟩
  · cases e.symm.trans h

/-- The verdict depends on the six inputs alone, for one buffer size (47_verify_orchestrator.md R229). -/
theorem verdict_congr {s s' : State} (hpklen : s.pklen = s'.pklen) (hpk : s.pkbuf = s'.pkbuf) (hsiglen : s.siglen = s'.siglen)
    (hsig : s.sigbuf = s'.sigbuf) (hmlen : s.mlen = s'.mlen) (hmsg : s.msgbuf = s'.msgbuf) (hmax : s.msgMax = s'.msgMax) :
    verdict s = verdict s' := by
  simp only [verdict, signatureVerdict, messageVerdict, hpklen, hpk, hsiglen, hsig, hmlen, hmsg, hmax]

/-! ### The end states -/

/-- After the steps 1 to 4 every polynomial register is written. -/
theorem set_all_eq_replicate {α : Type} (v : Vector α 4) (x : α) :
    (((v.set 0 x).set 1 x).set 2 x).set 3 x = Vector.replicate 4 x := by
  refine Vector.ext fun i hi => ?_
  interval_cases i <;> simp

section
variable (h : List Nat) (d : DecodedSig) (c : List Nat) (sp : Sponge) (s : State)

/-- The end state of R223, with what it leaves unchanged. -/
theorem decidedEnd_eq_ended :
    decidedEnd h d c sp s = ended (decidedEnd h d c sp s).err { s with
      p := (decidedEnd h d c sp s).p, pWritten := Vector.replicate 4 (Vector.replicate 512 true)
      salt := memWrite s.salt 0 d.salt, ks := sp.ks, kcur := sp.cur, kmode := .squeezing
      byteix := BitVec.ofNat 16 (d.pos / 8), bitoff := BitVec.ofNat 3 (d.pos % 8)
      normsq := (decidedEnd h d c sp s).normsq, accept := (decidedEnd h d c sp s).accept
      phase := (decidedEnd h d c sp s).phase } := by
  simp only [decidedEnd, judged, ended, writePoly, challengeSampled, signatureDecoded, keyDecoded, setCursor,
    State.setSponge, ← set_all_eq_replicate s.pWritten]
  rfl

theorem decidedEnd_salt : (decidedEnd h d c sp s).salt = memWrite s.salt 0 d.salt :=
  congrArg State.salt (decidedEnd_eq_ended h d c sp s)

theorem poly_decidedEnd_s1 : (decidedEnd h d c sp s).poly regT = polyOfInts (s1List h d.s2 c) :=
  (poly_judged _ _ regT).trans (poly_writePoly_same _ regT _)

theorem poly_decidedEnd_other {k : PReg} (hk : k ≠ regT) :
    (decidedEnd h d c sp s).poly k = (challengeSampled c sp (signatureDecoded h d s)).poly k :=
  (poly_judged _ _ k).trans (poly_writePoly_other _ regT k _ hk)

theorem poly_decidedEnd_challenge : (decidedEnd h d c sp s).poly regC = polyOfNats c :=
  (poly_decidedEnd_other h d c sp s (by decide)).trans (poly_challengeSampled_challenge c sp _)

theorem poly_decidedEnd_s2 : (decidedEnd h d c sp s).poly regS2 = polyOfInts d.s2 :=
  (poly_decidedEnd_other h d c sp s (by decide)).trans
    ((poly_challengeSampled_other c sp _ (by decide)).trans (poly_signatureDecoded_s2 h d s))

theorem poly_decidedEnd_key : (decidedEnd h d c sp s).poly regH = polyOfNats h :=
  (poly_decidedEnd_other h d c sp s (by decide)).trans
    ((poly_challengeSampled_other c sp _ (by decide)).trans (poly_signatureDecoded_key h d s))

theorem decidedEnd_accept : (decidedEnd h d c sp s).accept = decide (decidingNorm h d.s2 c ≤ 34034726) :=
  judged_accept _ _

theorem decidedEnd_err : (decidedEnd h d c sp s).err =
    if decidingNorm h d.s2 c ≤ 34034726 then .ok else .verificationFailed := judged_err _ _

theorem decidedEnd_phase : (decidedEnd h d c sp s).phase = if decidingNorm h d.s2 c ≤ 34034726 then 6 else 5 :=
  judged_phase _ _

end

/-- The registers at the end hold `h`, `s2`, `c` and `s1` (R223). -/
theorem decidedEnd_lanes {h : List Nat} {d : DecodedSig} {c : List Nat} (ops : Operands h d.s2 c) (sp : Sponge) (s : State)
    {i : Nat} (hi : i < 512) :
    laneInt ((decidedEnd h d c sp s).poly 0) i = (h.getD i 0 : Nat) ∧
      laneInt ((decidedEnd h d c sp s).poly 1) i = d.s2.getD i 0 ∧
      laneInt ((decidedEnd h d c sp s).poly 2) i = (c.getD i 0 : Nat) ∧
      laneInt ((decidedEnd h d c sp s).poly 3) i = s1Of h d.s2 c i := by
  rw [poly_decidedEnd_key, poly_decidedEnd_s2, poly_decidedEnd_challenge, poly_decidedEnd_s1]
  exact ⟨laneInt_polyOfNats ops.key hi, ops.laneInt_s2 hi, laneInt_polyOfNats ops.challenge hi, ops.laneInt_s1 hi⟩

/-! ### What `VERIFY` does -/

/-- Settles O50: the hypotheses give the verdict, whose end state holds the values of R220. -/
theorem verifyComputesVerify : Obligations.VerifyComputesVerify := by
  intro s pk sg m h d c sp hwpk hwsig hwmsg hwsalt hpklen hpk hpkbuf hsiglen hsg hsigbuf hfits hm hmsgbuf hkey hsig hc
  have hreadPk := readDeclared_of_holds hpklen hwpk hpk hpkbuf
  have hreadSig := readDeclared_of_holds hsiglen hwsig hsg hsigbuf
  have hreadMsg := (memRead_eq_some s.msgMax s.msgbuf _ m hwmsg).mpr ⟨hm, hmsgbuf⟩
  have hverdict : verdict s = .decided h d c sp := by
    rw [← hpklen] at hkey
    rw [← hsiglen] at hsig
    simp only [verdict, signatureVerdict, messageVerdict, challengeVerdict, hreadPk, hkey, hreadSig, hsig,
      if_neg (Nat.not_lt.mpr hfits), hreadMsg, hc]
  obtain ⟨ops, hd⟩ : (Verdict.decided h d c sp).Sound s := hverdict ▸ verdict_sound s
  have hexec := execVerify_of_canonicalSalt hwsalt
  rw [hverdict] at hexec
  exact ⟨_, hexec, decidedEnd_accept h d c sp s, decidedEnd_err h d c sp s, decidedEnd_phase h d c sp s,
    toNat_normsq_judged ops.decidingNorm_le _, fun i hi => decidedEnd_lanes ops sp s hi,
    fun j hj => decidedEnd_salt h d c sp s ▸ hd.read_salt s.salt hj,
    decidedEnd_salt h d c sp s ▸ decidedEnd_eq_ended h d c sp s⟩

/-- Settles O51: the verdicts with `ACCEPT = 0` are one for each step that can stop, and each names what was written. -/
theorem rejectingVerifyWrites : Obligations.RejectingVerifyWrites := by
  intro s t ht haccept
  obtain ⟨v, hsound, hresult⟩ := sound_verdict_of_execVerify_next ht
  cases v with
  | unwritten sp => cases hresult
  | neverEnds => cases hresult
  | badKey k =>
    cases hresult
    exact .inl ⟨rfl, hsound, rfl⟩
  | badSignature h k p =>
    cases hresult
    have hH : (stoppedIn 2 k (setCursor p (keyDecoded h s))).poly 0 = polyOfNats h := poly_writePoly_same s regH _
    refine .inr (.inl ⟨rfl, hsound, ?_⟩)
    rw [hH]
    rfl
  | longMessage h d =>
    cases hresult
    obtain ⟨hlong, hd⟩ := hsound
    have hH : (stoppedIn 3 .lengthRange (saltAbsorbed h d s)).poly 0 = polyOfNats h := poly_signatureDecoded_key h d s
    have hS2 : (stoppedIn 3 .lengthRange (saltAbsorbed h d s)).poly 1 = polyOfInts d.s2 := poly_signatureDecoded_s2 h d s
    refine .inr (.inr (.inl ⟨rfl, rfl, hlong, ⟨d.salt, hd.length_salt, hd.salt, fun j => hd.read_salt s.salt, rfl⟩, ?_⟩))
    rw [hH, hS2, ← hd.absorb_salt_cur]
    rfl
  | decided h d c sp =>
    cases hresult
    obtain ⟨ops, hd⟩ := hsound
    have hbound := of_decide_eq_false ((decidedEnd_accept h d c sp s).symm.trans haccept)
    have hphase := decidedEnd_phase h d c sp s
    have herr := decidedEnd_err h d c sp s
    have hframe := decidedEnd_eq_ended h d c sp s
    rw [if_neg hbound] at hphase herr
    rw [haccept, hphase] at hframe
    refine .inr (.inr (.inr ⟨hphase, herr, ?_, fun j hj => ?_, hframe⟩))
    · exact (Nat.lt_of_not_le hbound).trans_eq (toNat_normsq_judged ops.decidingNorm_le _).symm
    · rw [decidedEnd_salt, hd.read_salt s.salt hj, hd.salt j hj]

/-- Settles O52: of the verdicts, only one reached in step 5 can accept, and it does by the bound. -/
theorem verifyAcceptsOrRejects : Obligations.VerifyAcceptsOrRejects := by
  intro s t ht
  obtain ⟨v, hsound, hresult⟩ := sound_verdict_of_execVerify_next ht
  cases v with
  | unwritten sp => cases hresult
  | neverEnds => cases hresult
  | badKey k =>
    cases hresult
    exact .inr ⟨rfl, keyErrors_subset hsound, by simp⟩
  | badSignature h k p =>
    cases hresult
    exact .inr ⟨rfl, signatureErrors_subset hsound, by simp⟩
  | longMessage h d =>
    cases hresult
    exact .inr ⟨rfl, by simp, by simp⟩
  | decided h d c sp =>
    cases hresult
    obtain ⟨ops, -⟩ := hsound
    have hnorm : (decidedEnd h d c sp s).normsq.toNat = decidingNorm h d.s2 c := toNat_normsq_judged ops.decidingNorm_le _
    rw [decidedEnd_accept, decidedEnd_err, decidedEnd_phase, hnorm]
    by_cases hbound : decidingNorm h d.s2 c ≤ 34034726
    · simp [hbound]
    · simp [hbound]

/-- Two ends of a `VERIFY` show the host the same outcome (R229). -/
def Alike (r r' : Result) : Prop :=
  (∀ t, r = .next t → ∃ t', r' = .next t' ∧ t.accept = t'.accept ∧ t.err = t'.err ∧ t.phase = t'.phase ∧
    ((t.phase = 5 ∨ t.phase = 6) → t.normsq = t'.normsq)) ∧
  (∀ e, r = .fault e → r' = .fault e) ∧ (∀ e, r = .refused e → r' = .refused e)

theorem stoppedIn_alike {k : Fin 7} (hk : ¬(k = 5 ∨ k = 6)) (e : ErrorKind) (u u' : State) :
    Alike (.next (stoppedIn k e u)) (.next (stoppedIn k e u')) := by
  refine ⟨?_, nofun, nofun⟩
  rintro _ ⟨⟩
  exact ⟨_, rfl, rfl, rfl, rfl, fun h => absurd h hk⟩

theorem judged_alike (n : Nat) (u u' : State) : Alike (.next (judged n u)) (.next (judged n u')) := by
  refine ⟨?_, nofun, nofun⟩
  rintro _ ⟨⟩
  exact ⟨_, rfl, rfl, rfl, rfl, fun _ => rfl⟩

/-- The outcome is a matter of the verdict: what else a state holds does not show in it. -/
theorem Verdict.result_alike (v : Verdict) (s s' : State) : Alike (v.result s) (v.result s') := by
  cases v with
  | unwritten sp => exact ⟨nofun, nofun, fun _ => id⟩
  | neverEnds => exact ⟨nofun, fun _ => id, nofun⟩
  | badKey k => exact stoppedIn_alike (by decide) k _ _
  | badSignature h k p => exact stoppedIn_alike (by decide) k _ _
  | longMessage h d => exact stoppedIn_alike (by decide) .lengthRange _ _
  | decided h d c sp => exact judged_alike (decidingNorm h d.s2 c) _ _

/-- Settles O53: equal inputs have one verdict, and its end states agree. -/
theorem verifyDependsOnSixInputs : Obligations.VerifyDependsOnSixInputs := by
  intro s s' hpklen hpk hsiglen hsig hmlen hmsg hmax hw hw'
  show Alike (execVerify s) (execVerify s')
  rw [execVerify_of_canonicalSalt hw, execVerify_of_canonicalSalt hw',
    verdict_congr hpklen hpk hsiglen hsig hmlen hmsg hmax]
  exact Verdict.result_alike _ s s'

end Sys2Proof.Machine

/-! PROOFS. How a command stops (60_exceptions.md R245), what one that fails leaves (R241), where the model refuses a buffer byte
never written (70_reset_and_hazards.md R262), and the host moves that stop nothing: the reset input (R260) and a command word
offered to a busy core (R267). -/

namespace Sys2Proof.Machine

open Sys2Proof.Cert

/-! ### Host moves -/

/-- Settles O8: the move is a command word, and the core is busy. -/
theorem wordWhileBusyIsDropped : Obligations.WordWhileBusyIsDropped := fun s w rest hmoves hbusy =>
  (step_move s (.cmd w) rest hmoves).trans (if_pos hbusy)

/-- Settles O12: the move is the reset input, which does not look at the state. -/
theorem resetInputGivesTheResetState : Obligations.ResetInputGivesTheResetState := fun s rest hmoves =>
  step_move s .reset rest hmoves

/-! ### Failing commands -/

/-- What a command other than `VERIFY` and `NORM` leaves that ends with an error: `ERR` and `ST` are written, and by `SIGDEC` the
cursor (60_exceptions.md R241, 45_codec.md R196). -/
theorem CommandEnd.eq_ended_of_error {i : Instr} {s t : State} (h : CommandEnd s i t) (herr : t.err ≠ .ok)
    (hnorm : ∀ rs1 rs2, i ≠ .norm rs1 rs2) :
    t = ended t.err s ∨ ∃ rd, i = .sigdec rd ∧ t = ended t.err { s with byteix := t.byteix, bitoff := t.bitoff } := by
  cases h with
  | raised i e => exact .inl rfl
  | malformed rd e p => exact .inr ⟨rd, rfl, rfl⟩
  | normOutOfRange rs1 rs2 => exact absurd rfl (hnorm rs1 rs2)
  | normAccepted rs1 rs2 n => exact absurd rfl (hnorm rs1 rs2)
  | normRejected rs1 rs2 n => exact absurd rfl (hnorm rs1 rs2)
  | _ => exact absurd rfl herr

/-- A `NORM` that rejects no pair but fails has found an operand out of range (46_norm_check.md R213). -/
theorem execNorm_error {rs1 rs2 : PReg} {s t : State} (h : execNorm rs1 rs2 s = .next t) (herr : t.err ≠ .ok)
    (hrejected : t.err ≠ .verificationFailed) : t = ended t.err { s with accept := false } := by
  rcases execNorm_cases rs1 rs2 s with ⟨u, v, -, -, e⟩ | ⟨-, e⟩
  · rw [normResult_eq_ended] at e
    cases e.symm.trans h
    by_cases hn : normSquare u v ≤ 34034726
    · exact absurd (if_pos hn) herr
    · exact absurd (if_neg hn) hrejected
  · cases e.symm.trans h
    rfl

/-- Settles O56: a command other than `VERIFY` by the way it ends, `VERIFY` by the forms of a reject. -/
theorem failingCommandsWriteNothingElse : Obligations.FailingCommandsWriteNothingElse := by
  intro i s t h herr
  refine ⟨fun hsigdec hnorm hverify => ?_, ?_, ?_, ?_⟩
  · rcases (commandEnd_of_exec hverify h).eq_ended_of_error herr hnorm with e | ⟨rd, hi, -⟩
    · exact e
    · exact absurd hi (hsigdec rd)
  · rintro rd rfl
    rcases (commandEnd_of_execSigdec h).eq_ended_of_error herr nofun with e | ⟨_, -, e⟩
    · exact e ▸ rfl
    · exact e
  · rintro rs1 rs2 rfl hrejected
    exact execNorm_error h herr hrejected
  · rintro rfl
    rcases verifyAcceptsOrRejects s t h with ⟨-, hok, -⟩ | ⟨haccept, -, hphase⟩
    · exact absurd hok herr
    · have hsteps : ∀ k ∈ [(1 : Fin 7), 2, 3, 5], k.val ≠ 0 ∧ k.val ≠ 6 := by decide
      exact ⟨haccept, hsteps t.phase hphase⟩

/-! ### Stopping commands -/

/-- The buffer a command other than `VERIFY` cannot read, since the bytes it asks for are not all written. -/
inductive BufferStop (s : State) : Instr → ByteSpace → Prop
  /-- `PKDEC`. -/
  | key (rd : PReg) (hread : readDeclared s.pkbuf s.pklen.toNat 897 = none) : BufferStop s (.pkdec rd) .pkbuf
  /-- `SIGDEC`. -/
  | signature (rd : PReg) (hread : readDeclared s.sigbuf s.siglen.toNat 666 = none) : BufferStop s (.sigdec rd) .sigbuf
  /-- `SHABS SALT`. -/
  | salt (hmode : s.kmode = .absorbing) (hread : memRead s.salt 40 = none) : BufferStop s (.shabs 0) .salt
  /-- `SHABS MSG`. -/
  | message (hmode : s.kmode = .absorbing) (hfits : s.mlen.toNat ≤ s.msgMax)
      (hread : memRead s.msgbuf s.mlen.toNat = none) : BufferStop s (.shabs 1) .msgbuf

/-- A command whose buffer cannot be read is refused. -/
theorem BufferStop.refused {s : State} {i : Instr} {sp : ByteSpace} (h : BufferStop s i sp) :
    exec i s = .refused (.neverWritten sp) := by
  cases h with
  | key rd hread =>
    rcases execPkdec_cases rd s with ⟨-, e⟩ | ⟨l, hl, -⟩
    · exact e
    · cases hread.symm.trans hl
  | signature rd hread =>
    rcases execSigdec_cases rd s with ⟨-, e⟩ | ⟨l, hl, -⟩
    · exact e
    · cases hread.symm.trans hl
  | salt hmode hread => exact execShabs_of_sourceUnwritten rfl hmode (sourceBytes_of_unwritten (sp := .salt) hread)
  | message hmode hfits hread =>
    exact execShabs_of_sourceUnwritten rfl hmode
      ((absorbSource_message_of_fits hfits).trans (sourceBytes_of_unwritten (sp := .msgbuf) hread))

/-- How a command other than `VERIFY` can end (60_exceptions.md R245). -/
inductive CommandOutcome (s : State) (i : Instr) : Prop
  /-- In a next state. -/
  | next (t : State) (h : exec i s = .next t)
  /-- It does not complete: the sampling never yields enough chunks (44_hash_to_point.md R172). -/
  | endless (rd : PReg) (hi : i = .h2p rd) (h : exec i s = .fault .sampleNeverEnds)
  /-- It is refused, since it cannot read its buffer (70_reset_and_hazards.md R262). -/
  | unwritten (sp : ByteSpace) (h : BufferStop s i sp)

theorem commandOutcome_fieldBinary {f : Nat → Nat → Nat} {i : Instr} {s : State} (h : exec i s = fieldBinary f s) :
    CommandOutcome s i := by
  rcases fieldBinary_cases f s with ⟨-, -, e⟩ | ⟨-, e⟩ <;> exact .next _ (h.trans e)

theorem commandOutcome_transformInPlace {f : List Nat → List Nat} {rd : PReg} {i : Instr} {s : State}
    (h : exec i s = transformInPlace f rd s) : CommandOutcome s i := by
  rcases transformInPlace_cases f rd s with ⟨a, -, e⟩ | ⟨-, e⟩ <;> exact .next _ (h.trans e)

theorem commandOutcome_canonicalBinary {f : List Nat → List Nat → List Nat} {rd rs1 rs2 : PReg} {i : Instr} {s : State}
    (h : exec i s = canonicalBinary f rd rs1 rs2 s) : CommandOutcome s i := by
  rcases canonicalBinary_cases f rd rs1 rs2 s with ⟨a, b, -, -, e⟩ | ⟨-, e⟩ <;> exact .next _ (h.trans e)

theorem commandOutcome_shabs (sel : Fin 4) (s : State) : CommandOutcome s (.shabs sel) := by
  rcases execShabs_cases sel s with
    ⟨-, e⟩ | ⟨-, -, e⟩ | ⟨-, -, -, e⟩ | ⟨hmode, hsel, sp, k, hsp, hk, ⟨l, -, e⟩ | ⟨hread, -⟩⟩
  · exact .next _ e
  · exact .next _ e
  · exact .next _ e
  · exact .next _ e
  · subst hsp hk
    rcases hsel with rfl | ⟨rfl, hfits⟩
    · exact .unwritten .salt (.salt hmode hread)
    · exact .unwritten .msgbuf (.message hmode hfits hread)

/-- Every command other than `VERIFY` ends in one of these ways. -/
theorem commandOutcome_of_ne_verify {i : Instr} (s : State) (hi : i ≠ .verify) : CommandOutcome s i := by
  cases i with
  | fadd => exact commandOutcome_fieldBinary (f := fadd) rfl
  | fsub => exact commandOutcome_fieldBinary (f := fsub) rfl
  | fmul => exact commandOutcome_fieldBinary (f := fmul) rfl
  | fctr => rcases execFctr_cases s with ⟨-, e⟩ | ⟨-, e⟩ <;> exact .next _ e
  | fcan => rcases execFcan_cases s with ⟨-, -, e⟩ | ⟨-, e⟩ <;> exact .next _ e
  | nttf rd => exact commandOutcome_transformInPlace (f := ntt) (rd := rd) rfl
  | ntti rd => exact commandOutcome_transformInPlace (f := intt) (rd := rd) rfl
  | nttmul rd rs1 rs2 => exact commandOutcome_canonicalBinary (f := mulring) (rd := rd) (rs1 := rs1) (rs2 := rs2) rfl
  | pmul rd rs1 rs2 =>
    exact commandOutcome_canonicalBinary (f := List.zipWith fmul) (rd := rd) (rs1 := rs1) (rs2 := rs2) rfl
  | psub rd rs1 rs2 =>
    exact commandOutcome_canonicalBinary (f := List.zipWith fsub) (rd := rd) (rs1 := rs1) (rs2 := rs2) rfl
  | pctr rd rs1 => rcases execPctr_cases rd rs1 s with ⟨a, -, e⟩ | ⟨-, e⟩ <;> exact .next _ e
  | pcan rd rs1 => rcases execPcan_cases rd rs1 s with ⟨v, -, e⟩ | ⟨-, e⟩ <;> exact .next _ e
  | kecf => exact .next _ rfl
  | shinit => exact .next _ rfl
  | shabs sel => exact commandOutcome_shabs sel s
  | shfin => rcases execShfin_cases s with ⟨-, e⟩ | ⟨-, e⟩ <;> exact .next _ e
  | shsqz => rcases execShsqz_cases s with ⟨-, e⟩ | ⟨-, e⟩ <;> exact .next _ e
  | h2p rd =>
    rcases execH2p_cases rd s with ⟨-, e⟩ | ⟨-, -, e⟩ | ⟨-, c, sp, -, e⟩
    · exact .next _ e
    · exact .endless rd rfl e
    · exact .next _ e
  | pkdec rd =>
    rcases execPkdec_cases rd s with ⟨hread, -⟩ | ⟨l, -, ⟨k, -, e⟩ | ⟨h, -, e⟩⟩
    · exact .unwritten .pkbuf (.key rd hread)
    · exact .next _ e
    · exact .next _ e
  | sigdec rd =>
    rcases execSigdec_cases rd s with ⟨hread, -⟩ | ⟨l, -, ⟨k, p, -, e⟩ | ⟨d, -, e⟩⟩
    · exact .unwritten .sigbuf (.signature rd hread)
    · exact .next _ e
    · exact .next _ e
  | norm rs1 rs2 => rcases execNorm_cases rs1 rs2 s with ⟨u, v, -, -, e⟩ | ⟨-, e⟩ <;> exact .next _ e
  | verify => exact absurd rfl hi

theorem CommandEnd.done {i : Instr} {s t : State} (h : CommandEnd s i t) : t.done = true := by
  cases h <;> rfl

theorem BufferStop.reads_buffer {s : State} {i : Instr} {sp : ByteSpace} (h : BufferStop s i sp) :
    (∃ sel, i = .shabs sel) ∨ (∃ rd, i = .pkdec rd) ∨ ∃ rd, i = .sigdec rd := by
  cases h with
  | key rd hread => exact .inr (.inl ⟨rd, rfl⟩)
  | signature rd hread => exact .inr (.inr ⟨rd, rfl⟩)
  | salt hmode hread => exact .inl ⟨0, rfl⟩
  | message hmode hfits hread => exact .inl ⟨1, rfl⟩

/-- How a `VERIFY` can end. -/
theorem execVerify_ends (s : State) :
    (∃ t, execVerify s = .next t ∧ t.busy = false ∧ t.done = true) ∨ execVerify s = .fault .sampleNeverEnds ∨
      ∃ sp, execVerify s = .refused (.neverWritten sp) := by
  rcases execVerify_eq_result_or s with e | ⟨-, e⟩
  · cases hv : verdict s <;> rw [hv] at e
    case unwritten sp => exact .inr (.inr ⟨sp, e⟩)
    case neverEnds => exact .inr (.inl e)
    all_goals exact .inl ⟨_, e, rfl, rfl⟩
  · exact .inr (.inr ⟨.salt, e⟩)

/-- Settles O55: `VERIFY` by its verdict, every other command by the ways it can end. -/
theorem everyCommandEnds : Obligations.EveryCommandEnds := by
  intro i s
  by_cases hi : i = .verify
  · subst hi
    rcases execVerify_ends s with hnext | hfault | ⟨sp, hrefused⟩
    · exact .inl hnext
    · exact .inr (.inl ⟨hfault, .inl rfl⟩)
    · exact .inr (.inr ⟨sp, hrefused, .inl rfl⟩)
  · cases commandOutcome_of_ne_verify s hi with
    | next t h =>
      have hend := commandEnd_of_exec hi h
      exact .inl ⟨t, h, hend.idle, hend.done⟩
    | endless rd hrd h => exact .inr (.inl ⟨h, .inr ⟨rd, hrd⟩⟩)
    | unwritten sp h => exact .inr (.inr ⟨sp, h.refused, .inr h.reads_buffer⟩)

end Sys2Proof.Machine

/-! PROOFS. Where the model refuses a command (70_reset_and_hazards.md R262): a command other than `VERIFY` by the buffer it reads,
`VERIFY` by its verdict. -/

namespace Sys2Proof.Machine

open Sys2Proof.Cert

/-- A command other than `VERIFY` is refused where it cannot read its buffer, and for nothing else. -/
theorem exec_refused_iff {i : Instr} {s : State} {r : Refusal} (hi : i ≠ .verify) :
    exec i s = .refused r ↔ ∃ sp, r = .neverWritten sp ∧ BufferStop s i sp := by
  constructor
  · intro hr
    cases commandOutcome_of_ne_verify s hi with
    | next t h => cases hr.symm.trans h
    | endless rd _ h => cases hr.symm.trans h
    | unwritten sp h =>
      cases hr.symm.trans h.refused
      exact ⟨sp, rfl, h⟩
  · rintro ⟨sp, rfl, h⟩
    exact h.refused

theorem readDeclared_eq_none_iff {m : Memory} {declared fixed : Nat} (hw : Memory.wf fixed m = true) :
    readDeclared m declared fixed = none ↔ declared = fixed ∧ ∃ j < fixed, Memory.read m j = none := by
  rw [readDeclared]
  split
  case isTrue h => simp [h, memRead_eq_none fixed m fixed hw]
  case isFalse h => simp [h]

/-- A buffer in canonical form cannot be read where one of the bytes the command asks for has never been written. -/
theorem bufferStop_iff_readsUnwritten {i : Instr} {s : State} {sp : ByteSpace} (hw : CanonicalBuffers s) (hi : i ≠ .verify) :
    BufferStop s i sp ↔ ReadsUnwritten i s sp := by
  obtain ⟨hpk, hsig, hmsg, hsalt⟩ := hw
  constructor
  · rintro (⟨rd, hread⟩ | ⟨rd, hread⟩ | ⟨hmode, hread⟩ | ⟨hmode, hfits, hread⟩)
    · exact ⟨.inl ⟨rd, rfl⟩, (readDeclared_eq_none_iff hpk).mp hread⟩
    · exact ⟨.inl ⟨rd, rfl⟩, (readDeclared_eq_none_iff hsig).mp hread⟩
    · exact ⟨rfl, hmode, (memRead_eq_none 40 _ _ hsalt).mp hread⟩
    · exact ⟨.inl ⟨rfl, hmode⟩, hfits, (memRead_eq_none s.msgMax _ _ hmsg).mp hread⟩
  · intro h
    cases sp with
    | pkbuf =>
      obtain ⟨⟨rd, rfl⟩ | rfl, hunwritten⟩ := h
      · exact .key rd ((readDeclared_eq_none_iff hpk).mpr hunwritten)
      · exact absurd rfl hi
    | sigbuf =>
      obtain ⟨⟨rd, rfl⟩ | ⟨rfl, -⟩, hunwritten⟩ := h
      · exact .signature rd ((readDeclared_eq_none_iff hsig).mpr hunwritten)
      · exact absurd rfl hi
    | msgbuf =>
      obtain ⟨⟨rfl, hmode⟩ | ⟨rfl, -⟩, hfits, hunwritten⟩ := h
      · exact .message hmode hfits ((memRead_eq_none s.msgMax _ _ hmsg).mpr hunwritten)
      · exact absurd rfl hi
    | salt =>
      obtain ⟨rfl, hmode, hunwritten⟩ := h
      exact .salt hmode ((memRead_eq_none 40 _ _ hsalt).mpr hunwritten)

/-! ### The steps of `VERIFY` that go through -/

section
variable {s : State}

theorem keyDecodes_of_read {l : List Byte} {h : List Nat} (hread : readDeclared s.pkbuf s.pklen.toNat 897 = some l)
    (hd : decodePk params s.pklen.toNat l = .ok h) : KeyDecodes s := by
  have hlen : s.pklen.toNat = 897 := (decodePk_ok _ _ _ _ hd).1
  rw [hlen, readDeclared, if_pos rfl] at hread
  exact ⟨hlen, l, h, length_memRead _ _ _ hread, holds_of_memRead hread, hlen ▸ hd⟩

theorem verdict_of_keyDecodes (hw : Memory.wf 897 s.pkbuf = true) (hkey : KeyDecodes s) :
    ∃ h, verdict s = signatureVerdict h s := by
  obtain ⟨hlen, l, h, hl, hbuf, hd⟩ := hkey
  refine ⟨h, ?_⟩
  rw [← hlen] at hd
  simp only [verdict, readDeclared_of_holds hlen hw hl hbuf, hd]

theorem signatureDecodes_of_read {l : List Byte} {d : DecodedSig}
    (hread : readDeclared s.sigbuf s.siglen.toNat 666 = some l) (hd : decodeSig params s.siglen.toNat l = .ok d) :
    SignatureDecodes s := by
  have hlen : s.siglen.toNat = 666 := by
    by_contra hne
    simp [decodeSig, hne] at hd
  rw [hlen, readDeclared, if_pos rfl] at hread
  exact ⟨hlen, l, d, length_memRead _ _ _ hread, holds_of_memRead hread, hlen ▸ hd⟩

theorem signatureVerdict_of_signatureDecodes (hw : Memory.wf 666 s.sigbuf = true) (hsig : SignatureDecodes s)
    (h : List Nat) : ∃ d, signatureVerdict h s = messageVerdict h d s := by
  obtain ⟨hlen, l, d, hl, hbuf, hd⟩ := hsig
  refine ⟨d, ?_⟩
  rw [← hlen] at hd
  simp only [signatureVerdict, readDeclared_of_holds hlen hw hl hbuf, hd]

end

/-! ### Where `VERIFY` is refused -/

section
variable {s : State} (hw : CanonicalBuffers s) {sp : ByteSpace}
include hw

theorem readsUnwritten_of_messageVerdict (hkey : KeyDecodes s) (hsig : SignatureDecodes s) {h : List Nat} {d : DecodedSig}
    (hv : messageVerdict h d s = .unwritten sp) : ReadsUnwritten .verify s sp := by
  obtain ⟨-, -, hmsg, -⟩ := hw
  rw [messageVerdict] at hv
  split at hv
  · cases hv
  · next hfits =>
    split at hv
    · next hread =>
      cases hv
      exact ⟨.inr ⟨rfl, hkey, hsig⟩, Nat.not_lt.mp hfits, (memRead_eq_none s.msgMax _ _ hmsg).mp hread⟩
    · rw [challengeVerdict] at hv
      split at hv <;> cases hv

theorem readsUnwritten_of_signatureVerdict (hkey : KeyDecodes s) {h : List Nat}
    (hv : signatureVerdict h s = .unwritten sp) : ReadsUnwritten .verify s sp := by
  have ⟨_, hsigbuf, _, _⟩ := hw
  rw [signatureVerdict] at hv
  split at hv
  · next hread =>
    cases hv
    exact ⟨.inr ⟨rfl, hkey⟩, (readDeclared_eq_none_iff hsigbuf).mp hread⟩
  · next l hread =>
    split at hv
    · cases hv
    · next d hd => exact readsUnwritten_of_messageVerdict hw hkey (signatureDecodes_of_read hread hd) hv

/-- The verdict refuses a buffer where `VERIFY` reads a byte of it that has never been written. -/
theorem verdict_eq_unwritten_iff : verdict s = .unwritten sp ↔ ReadsUnwritten .verify s sp := by
  have ⟨hpkbuf, hsigbuf, hmsgbuf, _⟩ := hw
  constructor
  · intro hv
    rw [verdict] at hv
    split at hv
    · next hread =>
      cases hv
      exact ⟨.inr rfl, (readDeclared_eq_none_iff hpkbuf).mp hread⟩
    · next l hread =>
      split at hv
      · cases hv
      · next h hd => exact readsUnwritten_of_signatureVerdict hw (keyDecodes_of_read hread hd) hv
  · intro hr
    cases sp with
    | pkbuf =>
      obtain ⟨-, hunwritten⟩ := hr
      rw [verdict, (readDeclared_eq_none_iff hpkbuf).mpr hunwritten]
    | sigbuf =>
      obtain ⟨⟨_, ⟨⟩⟩ | ⟨-, hkey⟩, hunwritten⟩ := hr
      obtain ⟨h, hv⟩ := verdict_of_keyDecodes hpkbuf hkey
      rw [hv, signatureVerdict, (readDeclared_eq_none_iff hsigbuf).mpr hunwritten]
    | msgbuf =>
      obtain ⟨⟨⟨⟩, -⟩ | ⟨-, hkey, hsig⟩, hfits, hunwritten⟩ := hr
      obtain ⟨h, hv⟩ := verdict_of_keyDecodes hpkbuf hkey
      obtain ⟨d, hd⟩ := signatureVerdict_of_signatureDecodes hsigbuf hsig h
      rw [hv, hd, messageVerdict, if_neg (Nat.not_lt.mpr hfits), (memRead_eq_none s.msgMax _ _ hmsgbuf).mpr hunwritten]
    | salt => cases hr.1

theorem execVerify_refused_iff {r : Refusal} :
    execVerify s = .refused r ↔ ∃ sp, r = .neverWritten sp ∧ ReadsUnwritten .verify s sp := by
  have ⟨_, _, _, hsalt⟩ := hw
  rw [execVerify_of_canonicalSalt hsalt]
  constructor
  · intro h
    cases hv : verdict s <;> rw [hv] at h <;> cases h
    exact ⟨_, rfl, (verdict_eq_unwritten_iff hw).mp hv⟩
  · rintro ⟨sp, rfl, h⟩
    rw [(verdict_eq_unwritten_iff hw).mpr h]
    rfl

/-- With canonical buffers a command is refused where it reads a byte never written, and for nothing else. -/
theorem exec_refused_iff_readsUnwritten {i : Instr} {r : Refusal} :
    exec i s = .refused r ↔ ∃ sp, r = .neverWritten sp ∧ ReadsUnwritten i s sp := by
  by_cases hi : i = .verify
  · subst hi
    exact execVerify_refused_iff hw
  · simp only [exec_refused_iff hi, bufferStop_iff_readsUnwritten hw hi]

end

/-- Settles O57: each buffer by itself, and all commands by the bytes they read. -/
theorem neverWrittenBytesAreRefused : Obligations.NeverWrittenBytesAreRefused := by
  refine fun s rd => ⟨fun hw hlen hunwritten => ?_, fun hw hlen hunwritten => ?_, fun hw hmode hunwritten => ?_,
    fun hw hmode hfits hunwritten => ?_, fun hw i => ⟨fun sp => ?_, fun r hr => ?_⟩⟩
  · have hread := (readDeclared_eq_none_iff (declared := s.pklen.toNat) hw).mpr ⟨hlen, hunwritten⟩
    have hline := (BufferStop.key (s := setPhase 1 s) regH hread).refused
    exact ⟨(BufferStop.key rd hread).refused, runLines_refused hline⟩
  · exact (BufferStop.signature rd ((readDeclared_eq_none_iff hw).mpr ⟨hlen, hunwritten⟩)).refused
  · exact (BufferStop.salt hmode ((memRead_eq_none 40 _ _ hw).mpr hunwritten)).refused
  · exact (BufferStop.message hmode hfits ((memRead_eq_none s.msgMax _ _ hw).mpr hunwritten)).refused
  · simp [exec_refused_iff_readsUnwritten hw]
  · obtain ⟨sp, hsp, -⟩ := (exec_refused_iff_readsUnwritten hw).mp hr
    exact ⟨sp, hsp⟩

end Sys2Proof.Machine

/-! PROOFS. Never-written polynomial lanes (70_reset_and_hazards.md R262): two cores that agree on the written ones stay so, command
by command, line by line of `VERIFY`, and move by move, as long as no lane is read that is never written. -/

namespace Sys2Proof.Cert

open Sys2Proof.Machine

/-! ### What keeps the agreement -/

/-- The lanes `q` are those of the state wherever these have been written. -/
def LanesAgree (s : State) (q : Vector Poly 4) : Prop :=
  ∀ (k : PReg) (i : Nat) (h : i < 512), (s.pWritten[k])[i] = true → (q[k])[i] = (s.p[k])[i]

theorem registerWritten_iff {s : State} {k : PReg} :
    Safety.registerWritten s k = true ↔ ∀ i, ∀ h : i < 512, (s.pWritten[k])[i] = true := by
  simp [Safety.registerWritten]

section
variable {s s' : State} (h : AgreeWhereWritten s s')
include h

theorem AgreeWhereWritten.exists_lanes : ∃ q, s' = { s with p := q } ∧ LanesAgree s q := ⟨s'.p, h⟩

/-- What does not look at the lanes and writes neither them nor their marks keeps the agreement. -/
theorem AgreeWhereWritten.update (f : State → State) (hlanes : ∀ u q, f { u with p := q } = { f u with p := q })
    (hmarks : ∀ u, (f u).pWritten = u.pWritten) : AgreeWhereWritten (f s) (f s') := by
  obtain ⟨q, rfl, hq⟩ := h.exists_lanes
  have hp : (f s).p = s.p := (congrArg State.p (hlanes s s.p) :)
  rw [show f { s with p := q } = { f s with p := q } from hlanes s q]
  refine ⟨rfl, fun k i hi hk => ?_⟩
  rw [hmarks] at hk
  simpa only [State.poly, hp] using hq k i hi hk

theorem AgreeWhereWritten.complete : AgreeWhereWritten (complete s) (complete s') :=
  h.update Machine.complete (fun _ _ => rfl) fun _ => rfl

theorem AgreeWhereWritten.raise (e : ErrorKind) : AgreeWhereWritten (raise e s) (raise e s') :=
  h.update (Machine.raise e) (fun _ _ => rfl) fun _ => rfl

theorem AgreeWhereWritten.setAccept (v : Bool) : AgreeWhereWritten (setAccept v s) (setAccept v s') :=
  h.update (Machine.setAccept v) (fun _ _ => rfl) fun _ => rfl

theorem AgreeWhereWritten.setPhase (k : Fin 7) : AgreeWhereWritten (setPhase k s) (setPhase k s') :=
  h.update (Machine.setPhase k) (fun _ _ => rfl) fun _ => rfl

theorem AgreeWhereWritten.setCursor (n : Nat) : AgreeWhereWritten (setCursor n s) (setCursor n s') :=
  h.update (Machine.setCursor n) (fun _ _ => rfl) fun _ => rfl

theorem AgreeWhereWritten.setSponge (sp : Sponge) : AgreeWhereWritten (s.setSponge sp) (s'.setSponge sp) :=
  h.update (State.setSponge · sp) (fun _ _ => rfl) fun _ => rfl

theorem AgreeWhereWritten.setSpace (sp : ByteSpace) (m : Memory) : AgreeWhereWritten (s.setSpace sp m) (s'.setSpace sp m) := by
  cases sp <;> exact h.update (State.setSpace · _ m) (fun _ _ => rfl) fun _ => rfl

theorem AgreeWhereWritten.acceptCommand : AgreeWhereWritten (acceptCommand s) (acceptCommand s') :=
  h.update Machine.acceptCommand (fun _ _ => rfl) fun _ => rfl

/-- A register that a command writes is the same in both cores. -/
theorem AgreeWhereWritten.writePoly (k : PReg) (v : Poly) : AgreeWhereWritten (writePoly k v s) (writePoly k v s') := by
  obtain ⟨q, rfl, hq⟩ := h.exists_lanes
  refine ⟨rfl, fun j i hi hj => ?_⟩
  by_cases hjk : j = k
  · rw [hjk, poly_writePoly_same, poly_writePoly_same]
  · have hkj : (k : Nat) ≠ j := fun e => hjk (Fin.ext e.symm)
    have hmarks : (Machine.writePoly k v s).pWritten[j] = s.pWritten[j] := by simp [hkj]
    rw [hmarks] at hj
    rw [poly_writePoly_other _ _ _ _ hjk, poly_writePoly_other _ _ _ _ hjk]
    exact hq j i hi hj

/-- A lane that the host writes is the same in both cores. -/
theorem AgreeWhereWritten.writeLane (k : PReg) (n : Fin 512) (v : Word16) :
    AgreeWhereWritten (writeLane k n v s) (writeLane k n v s') := by
  obtain ⟨q, rfl, hq⟩ := h.exists_lanes
  refine ⟨rfl, fun j i hi hj => ?_⟩
  by_cases hjk : (k : Nat) = j
  · obtain rfl : k = j := Fin.ext hjk
    by_cases hni : (n : Nat) = i
    · simp [Machine.writeLane, State.poly, hni]
    · have hmark : (s.pWritten[k])[i] = true := by simpa [Machine.writeLane, hni] using hj
      simpa [Machine.writeLane, State.poly, hni] using hq k i hi hmark
  · have hmark : (s.pWritten[j])[i] = true := by simpa [Machine.writeLane, hjk] using hj
    simpa [Machine.writeLane, State.poly, hjk] using hq j i hi hmark

/-- Of a register that has been written whole, both cores hold the same. -/
theorem AgreeWhereWritten.poly_eq {k : PReg} (hk : Safety.registerWritten s k = true) : s'.poly k = s.poly k :=
  Vector.ext fun i hi => h.2 k i hi (registerWritten_iff.mp hk i hi)

end

/-! ### Outcomes -/

/-- Two outcomes alike: the same stop, or next states that agree on the written lanes. -/
inductive SameOutcome : Result → Result → Prop
  | next {t t' : State} (h : AgreeWhereWritten t t') : SameOutcome (.next t) (.next t')
  | fault (e : Fault) : SameOutcome (.fault e) (.fault e)
  | refused (e : Refusal) : SameOutcome (.refused e) (.refused e)

theorem SameOutcome.carries_over {r r' : Result} (h : SameOutcome r r') :
    (∀ t, r = .next t → ∃ t', r' = .next t' ∧ AgreeWhereWritten t t') ∧ (∀ e, r = .fault e → r' = .fault e) ∧
      ∀ e, r = .refused e → r' = .refused e := by
  cases h with
  | next h =>
    refine ⟨?_, nofun, nofun⟩
    rintro _ ⟨⟩
    exact ⟨_, rfl, h⟩
  | fault e => exact ⟨nofun, fun _ => id, nofun⟩
  | refused e => exact ⟨nofun, nofun, fun _ => id⟩

end Sys2Proof.Cert

namespace Sys2Proof.Machine

open Sys2Proof.Cert

/-! ### Commands -/

section
variable {s s' : State} (h : AgreeWhereWritten s s')
include h

theorem fieldBinary_sameOutcome (f : Nat → Nat → Nat) : SameOutcome (fieldBinary f s) (fieldBinary f s') := by
  have hpair : scalarPair s' = scalarPair s := by rw [h.1]; rfl
  rw [fieldBinary, fieldBinary, hpair]
  cases scalarPair s with
  | none => exact .next (h.raise .operandRange)
  | some xy => exact .next (h.update (fun u => complete { u with r := _ }) (fun _ _ => rfl) fun _ => rfl)

theorem transformInPlace_sameOutcome (f : List Nat → List Nat) {rd : PReg} (hrd : s'.poly rd = s.poly rd) :
    SameOutcome (transformInPlace f rd s) (transformInPlace f rd s') := by
  rw [transformInPlace, transformInPlace, hrd]
  cases canonicalLanes (s.poly rd) with
  | none => exact .next (h.raise .operandRange)
  | some a => exact .next (h.writePoly rd _).complete

theorem canonicalBinary_sameOutcome (f : List Nat → List Nat → List Nat) (rd : PReg) {rs1 rs2 : PReg}
    (h1 : s'.poly rs1 = s.poly rs1) (h2 : s'.poly rs2 = s.poly rs2) :
    SameOutcome (canonicalBinary f rd rs1 rs2 s) (canonicalBinary f rd rs1 rs2 s') := by
  rw [canonicalBinary, canonicalBinary, h1, h2]
  cases canonicalPair (s.poly rs1) (s.poly rs2) with
  | none => exact .next (h.raise .operandRange)
  | some ab => exact .next (h.writePoly rd _).complete

theorem execFctr_sameOutcome : SameOutcome (execFctr s) (execFctr s') := by
  have ha : canonicalScalar s'.a = canonicalScalar s.a := by rw [h.1]
  rw [execFctr, execFctr, ha]
  cases canonicalScalar s.a with
  | none => exact .next (h.raise .operandRange)
  | some x => exact .next (h.update (fun u => complete { u with r := _ }) (fun _ _ => rfl) fun _ => rfl)

theorem execFcan_sameOutcome : SameOutcome (execFcan s) (execFcan s') := by
  have ha : signedScalar s'.a = signedScalar s.a := by rw [h.1]
  rw [execFcan, execFcan, ha]
  cases signedScalar s.a with
  | none => exact .next (h.raise .operandRange)
  | some v => exact .next (h.update (fun u => complete { u with r := _ }) (fun _ _ => rfl) fun _ => rfl)

theorem execPctr_sameOutcome (rd : PReg) {rs1 : PReg} (h1 : s'.poly rs1 = s.poly rs1) :
    SameOutcome (execPctr rd rs1 s) (execPctr rd rs1 s') := by
  rw [execPctr, execPctr, h1]
  cases canonicalLanes (s.poly rs1) with
  | none => exact .next (h.raise .operandRange)
  | some a => exact .next (h.writePoly rd _).complete

theorem execPcan_sameOutcome (rd : PReg) {rs1 : PReg} (h1 : s'.poly rs1 = s.poly rs1) :
    SameOutcome (execPcan rd rs1 s) (execPcan rd rs1 s') := by
  rw [execPcan, execPcan, h1]
  cases rangedLanes (-12288) 12288 (s.poly rs1) with
  | none => exact .next (h.raise .operandRange)
  | some v => exact .next (h.writePoly rd _).complete

theorem execKecf_sameOutcome : SameOutcome (execKecf s) (execKecf s') :=
  .next (h.update (fun u => complete { u with ks := keccakF u.ks }) (fun _ _ => rfl) fun _ => rfl)

theorem execShinit_sameOutcome : SameOutcome (execShinit s) (execShinit s') :=
  .next (h.update (fun u => complete { u.setSponge emptySponge with kmode := .absorbing }) (fun _ _ => rfl) fun _ => rfl)

theorem execShabs_sameOutcome (sel : Fin 4) : SameOutcome (execShabs sel s) (execShabs sel s') := by
  have hmode : s'.kmode = s.kmode := by rw [h.1]
  have hsponge : s'.sponge = s.sponge := by rw [h.1]; rfl
  have hsource : absorbSource sel s' = absorbSource sel s := by rw [h.1]; rfl
  rw [execShabs, execShabs, hmode, hsponge, hsource]
  split
  · exact .next (h.raise .illegalCommand)
  cases s.kmode with
  | squeezing => exact .next (h.raise .spongeMode)
  | absorbing =>
    cases absorbSource sel s with
    | error k => exact .next (h.raise k)
    | unwritten sp => exact .refused _
    | bytes l => exact .next (h.setSponge _).complete

theorem execShfin_sameOutcome : SameOutcome (execShfin s) (execShfin s') := by
  have hmode : s'.kmode = s.kmode := by rw [h.1]
  rw [execShfin, execShfin, hmode]
  cases s.kmode with
  | squeezing => exact .next (h.raise .spongeMode)
  | absorbing =>
    exact .next (h.update (fun u => complete { u.setSponge (finishSponge u.sponge) with kmode := .squeezing })
      (fun _ _ => rfl) fun _ => rfl)

theorem execShsqz_sameOutcome : SameOutcome (execShsqz s) (execShsqz s') := by
  have hmode : s'.kmode = s.kmode := by rw [h.1]
  rw [execShsqz, execShsqz, hmode]
  cases s.kmode with
  | absorbing => exact .next (h.raise .spongeMode)
  | squeezing =>
    exact .next (h.update (fun u => complete { u.setSponge (squeezeByte u.sponge).2 with
      r := (squeezeByte u.sponge).1.setWidth 16 }) (fun _ _ => rfl) fun _ => rfl)

theorem execH2p_sameOutcome (rd : PReg) : SameOutcome (execH2p rd s) (execH2p rd s') := by
  have hmode : s'.kmode = s.kmode := by rw [h.1]
  have hsponge : s'.sponge = s.sponge := by rw [h.1]; rfl
  rw [execH2p, execH2p, hmode, hsponge]
  cases s.kmode with
  | absorbing => exact .next (h.raise .spongeMode)
  | squeezing =>
    cases sample sampleFuel Config.n s.sponge [] with
    | none => exact .fault _
    | some r => exact .next ((h.setSponge r.2).writePoly rd _).complete

theorem execPkdec_sameOutcome (rd : PReg) : SameOutcome (execPkdec rd s) (execPkdec rd s') := by
  have hlen : s'.pklen = s.pklen := by rw [h.1]
  have hbuf : s'.pkbuf = s.pkbuf := by rw [h.1]
  rw [execPkdec, execPkdec, hlen, hbuf]
  cases readDeclared s.pkbuf s.pklen.toNat Config.pkLen with
  | none => exact .refused _
  | some l =>
    cases hd : decodePk params s.pklen.toNat l with
    | error k => simpa only [hd] using .next (h.raise k)
    | ok a => simpa only [hd] using .next (h.writePoly rd (polyOfNats a)).complete

theorem execSigdec_sameOutcome (rd : PReg) : SameOutcome (execSigdec rd s) (execSigdec rd s') := by
  have hlen : s'.siglen = s.siglen := by rw [h.1]
  have hbuf : s'.sigbuf = s.sigbuf := by rw [h.1]
  have hsalt : s'.salt = s.salt := by rw [h.1]
  rw [execSigdec, execSigdec, hlen, hbuf, hsalt]
  cases readDeclared s.sigbuf s.siglen.toNat Config.sigLen with
  | none => exact .refused _
  | some l =>
    cases hd : decodeSig params s.siglen.toNat l with
    | error e => simpa only [hd] using .next ((h.setCursor e.2).raise e.1)
    | ok d =>
      have hwritten := (h.setCursor d.pos).setSpace .salt (memWrite s.salt 0 d.salt)
      simpa only [hd] using .next (hwritten.writePoly rd (polyOfInts d.s2)).complete

theorem normResult_agree (n : Nat) : AgreeWhereWritten (normResult params n s) (normResult params n s') := by
  rw [normResult_eq_ended, normResult_eq_ended]
  exact h.update (fun u => ended _ { u with normsq := _, accept := _ }) (fun _ _ => rfl) fun _ => rfl

theorem execNorm_sameOutcome {rs1 rs2 : PReg} (h1 : s'.poly rs1 = s.poly rs1) (h2 : s'.poly rs2 = s.poly rs2) :
    SameOutcome (execNorm rs1 rs2 s) (execNorm rs1 rs2 s') := by
  rw [execNorm, execNorm, h1, h2]
  split
  · exact .next (normResult_agree h _)
  · exact .next ((h.setAccept false).raise .operandRange)

/-- A command other than `VERIFY` that reads no lane never written ends alike in both cores. -/
theorem exec_sameOutcome_of_ne_verify {i : Instr} (hi : i ≠ .verify) (hread : Safety.readsWrittenLanes i s = true) :
    SameOutcome (exec i s) (exec i s') := by
  have hpoly : ∀ k ∈ Safety.registersRead i, s'.poly k = s.poly k := fun k hk =>
    h.poly_eq (List.all_eq_true.mp hread k hk)
  cases i with
  | fadd => exact fieldBinary_sameOutcome h fadd
  | fsub => exact fieldBinary_sameOutcome h fsub
  | fmul => exact fieldBinary_sameOutcome h fmul
  | fctr => exact execFctr_sameOutcome h
  | fcan => exact execFcan_sameOutcome h
  | nttf rd => exact transformInPlace_sameOutcome h ntt (hpoly rd (.head _))
  | ntti rd => exact transformInPlace_sameOutcome h intt (hpoly rd (.head _))
  | nttmul rd rs1 rs2 => exact canonicalBinary_sameOutcome h mulring rd (hpoly rs1 (.head _)) (hpoly rs2 (.tail _ (.head _)))
  | pmul rd rs1 rs2 => exact canonicalBinary_sameOutcome h _ rd (hpoly rs1 (.head _)) (hpoly rs2 (.tail _ (.head _)))
  | psub rd rs1 rs2 => exact canonicalBinary_sameOutcome h _ rd (hpoly rs1 (.head _)) (hpoly rs2 (.tail _ (.head _)))
  | pctr rd rs1 => exact execPctr_sameOutcome h rd (hpoly rs1 (.head _))
  | pcan rd rs1 => exact execPcan_sameOutcome h rd (hpoly rs1 (.head _))
  | kecf => exact execKecf_sameOutcome h
  | shinit => exact execShinit_sameOutcome h
  | shabs sel => exact execShabs_sameOutcome h sel
  | shfin => exact execShfin_sameOutcome h
  | shsqz => exact execShsqz_sameOutcome h
  | h2p rd => exact execH2p_sameOutcome h rd
  | pkdec rd => exact execPkdec_sameOutcome h rd
  | sigdec rd => exact execSigdec_sameOutcome h rd
  | norm rs1 rs2 => exact execNorm_sameOutcome h (hpoly rs1 (.head _)) (hpoly rs2 (.tail _ (.head _)))
  | verify => exact absurd rfl hi

end

end Sys2Proof.Machine

/-! PROOFS. `VERIFY` reads no polynomial register before a line of its own has written it (47_verify_orchestrator.md R222), so that
it too ends alike in two cores that agree on the written lanes; and so does every move of the host (20_memory.md R59). -/

namespace Sys2Proof.Machine

open Sys2Proof.Cert

/-! ### Marks that are set -/

theorem registerWritten_writePoly_same (k : PReg) (v : Poly) (s : State) :
    Safety.registerWritten (writePoly k v s) k = true :=
  registerWritten_iff.mpr fun i hi => by simp

/-- A write of a register leaves the others written. -/
theorem registerWritten_writePoly {s : State} {j : PReg} (k : PReg) (v : Poly) (hj : Safety.registerWritten s j = true) :
    Safety.registerWritten (writePoly k v s) j = true := by
  by_cases hjk : j = k
  · exact hjk ▸ registerWritten_writePoly_same k v s
  · have hkj : (k : Nat) ≠ j := fun e => hjk (Fin.ext e.symm)
    simpa [Safety.registerWritten, hkj] using hj

/-- No command marks a register never written. -/
theorem CommandEnd.registerWritten {i : Instr} {s t : State} {k : PReg} (h : CommandEnd s i t)
    (hk : Safety.registerWritten s k = true) : Safety.registerWritten t k = true := by
  cases h with
  | register rd v hi => exact registerWritten_writePoly rd v hk
  | sampled rd v sp => exact registerWritten_writePoly (s := s.setSponge sp) rd v hk
  | decoded rd v p m => exact registerWritten_writePoly (s := { setCursor p s with salt := m }) rd v hk
  | _ => exact hk

/-- The register that a line of `VERIFY` writes when it ends without error (47_verify_orchestrator.md R222). -/
def registersFilled : Instr → List PReg
  | .pkdec rd => [rd]
  | .sigdec rd => [rd]
  | .h2p rd => [rd]
  | .pcan rd _ => [rd]
  | _ => []

theorem registerWritten_of_filled {i : Instr} {s t : State} {k : PReg} (h : exec i s = .next t) (hok : t.err = .ok)
    (hk : k ∈ registersFilled i) : Safety.registerWritten t k = true := by
  cases i with
  | pkdec rd =>
    obtain rfl := List.mem_singleton.mp hk
    rcases execPkdec_cases k s with ⟨-, e⟩ | ⟨l, -, ⟨e', hd, e⟩ | ⟨a, -, e⟩⟩ <;> cases e.symm.trans h
    · exact absurd hok (decodePk_error_ne_ok hd)
    · exact registerWritten_writePoly_same k (polyOfNats a) s
  | sigdec rd =>
    obtain rfl := List.mem_singleton.mp hk
    rcases execSigdec_next h with ⟨e, p, he, -, rfl⟩ | ⟨d, -, -, -, -, rfl⟩
    · exact absurd hok he
    · exact registerWritten_writePoly_same k (polyOfInts d.s2) _
  | h2p rd =>
    obtain rfl := List.mem_singleton.mp hk
    rcases execH2p_cases k s with ⟨-, e⟩ | ⟨-, -, e⟩ | ⟨-, c, sp, -, e⟩ <;> cases e.symm.trans h
    · cases hok
    · exact registerWritten_writePoly_same k (polyOfNats c) _
  | pcan rd rs1 =>
    obtain rfl := List.mem_singleton.mp hk
    rcases execPcan_cases k rs1 s with ⟨v, -, e⟩ | ⟨-, e⟩ <;> cases e.symm.trans h
    · exact registerWritten_writePoly_same k (polyOfNats (v.map canon)) s
    · cases hok
  | _ => cases hk

/-! ### `VERIFY` -/

/-- Each line reads only registers of a list, or registers that lines before it have written. -/
def ReadsOnlyFilled : List PReg → List (Fin 7 × Instr) → Prop
  | _, [] => True
  | w, c :: rest => Safety.registersRead c.2 ⊆ w ∧ ReadsOnlyFilled (registersFilled c.2 ++ w) rest

theorem verifyCommands_readsOnlyFilled : ReadsOnlyFilled [] verifyCommands := by
  simp [ReadsOnlyFilled, verifyCommands, registersFilled, Safety.registersRead]

/-- Lines that read only registers written before end alike in both cores. -/
theorem runLines_sameOutcome {cs : List (Fin 7 × Instr)} {w : List PReg} {s s' : State} (hcs : ∀ c ∈ cs, c.2 ≠ .verify)
    (hreads : ReadsOnlyFilled w cs) (hw : ∀ k ∈ w, Safety.registerWritten s k = true) (h : AgreeWhereWritten s s') :
    SameOutcome (runLines (cs.map fun c => (c.1, exec c.2)) s) (runLines (cs.map fun c => (c.1, exec c.2)) s') := by
  induction cs generalizing w s s' with
  | nil => exact .next (h.setPhase 6)
  | cons c cs ih =>
    obtain ⟨hsub, hrest⟩ := hreads
    have hne : c.2 ≠ .verify := hcs c (by simp)
    have hwritten : Safety.readsWrittenLanes c.2 (setPhase c.1 s) = true :=
      List.all_eq_true.mpr fun k hk => hw k (hsub hk)
    have hline := exec_sameOutcome_of_ne_verify (h.setPhase c.1) hne hwritten
    rw [List.map_cons, runLines, runLines]
    generalize hr : exec c.2 (setPhase c.1 s) = r at hline ⊢
    generalize exec c.2 (setPhase c.1 s') = r' at hline ⊢
    cases hline with
    | fault e => exact .fault e
    | refused e => exact .refused e
    | @next t t' ht =>
      have herr : t'.err = t.err := by rw [ht.1]
      simp only [herr]
      split
      case isTrue hok =>
        refine ih (fun d hd => hcs d (by simp [hd])) hrest (fun k hk => ?_) ht
        rcases List.mem_append.mp hk with hfilled | hbefore
        · exact registerWritten_of_filled hr hok hfilled
        · exact (commandEnd_of_exec hne hr).registerWritten (hw k hbefore)
      case isFalse => exact .next (ht.setAccept false)

/-- A command that reads no lane never written ends alike in both cores. -/
theorem exec_sameOutcome {i : Instr} {s s' : State} (h : AgreeWhereWritten s s') (hread : Safety.readsWrittenLanes i s = true) :
    SameOutcome (exec i s) (exec i s') := by
  by_cases hi : i = .verify
  · subst hi
    exact runLines_sameOutcome verifyCommands_ne_verify verifyCommands_readsOnlyFilled nofun h
  · exact exec_sameOutcome_of_ne_verify h hi hread

/-! ### Host moves -/

section
variable {s s' : State} (h : AgreeWhereWritten s s')
include h

theorem hostCmd_sameOutcome {w : CommandWord}
    (hread : s.busy = false → ∀ i, decode w = .ok i → Safety.readsWrittenLanes i s = true) :
    SameOutcome (hostCmd w s) (hostCmd w s') := by
  have hbusy : s'.busy = s.busy := by rw [h.1]
  rw [hostCmd, hostCmd, hbusy]
  split
  · exact .next h
  · next hidle =>
    cases hd : decode w with
    | error e =>
      rw [runWord_of_error s hd, runWord_of_error s' hd]
      exact .next (h.acceptCommand.raise .illegalCommand)
    | ok i =>
      rw [runWord_of_ok s hd, runWord_of_ok s' hd]
      exact exec_sameOutcome h.acceptCommand (hread (Bool.eq_false_iff.mpr hidle) i hd)

theorem space_eq_of_agree (sp : ByteSpace) : s'.space sp = s.space sp ∧ s'.spaceSize sp = s.spaceSize sp := by
  rw [h.1]
  exact ⟨rfl, rfl⟩

theorem deliver_sameOutcome (v : Word64) : SameOutcome (deliver v s) (deliver v s') :=
  .next (h.update (fun u => { u with returned := v :: u.returned }) (fun _ _ => rfl) fun _ => rfl)

theorem hostWrite_sameOutcome (loc : Loc) (v : Word64) : SameOutcome (hostWrite loc v s) (hostWrite loc v s') := by
  cases loc with
  | p k i =>
    rw [hostWrite, hostWrite, hostWriteLane, hostWriteLane]
    split
    · exact .next (h.writeLane k _ _)
    · exact .refused _
  | byte sp i =>
    obtain ⟨hspace, hsize⟩ := space_eq_of_agree h sp
    rw [hostWrite, hostWrite, hostWriteByte, hostWriteByte, hspace, hsize]
    split
    · exact .next (h.setSpace sp _)
    · exact .refused _
  | ks j =>
    rw [hostWrite, hostWrite, hostWriteSponge, hostWriteSponge]
    split
    · exact .next (h.update (fun u => { u with ks := u.ks.set j v }) (fun _ _ => rfl) fun _ => rfl)
    · exact .refused _
  | _ =>
    obtain ⟨q, rfl, hq⟩ := h.exists_lanes
    exact .next ⟨rfl, hq⟩

/-- A read of anything but a lane never written gives both hosts the same value. -/
theorem hostRead_sameOutcome (loc : Loc)
    (hread : ∀ k i, loc = .p k i → ∀ hi : i < 512, (s.pWritten[k])[i] = true) :
    SameOutcome (hostRead loc s) (hostRead loc s') := by
  cases loc with
  | p k i =>
    rw [hostRead, hostRead]
    split
    · next hi =>
      rw [h.2 k i hi (hread k i rfl hi)]
      exact deliver_sameOutcome h _
    · exact .refused _
  | byte sp i =>
    obtain ⟨hspace, hsize⟩ := space_eq_of_agree h sp
    rw [hostRead, hostRead, hostReadByte, hostReadByte, hspace, hsize]
    split
    · cases Memory.read (s.space sp) i with
      | some v => exact deliver_sameOutcome h _
      | none => exact .refused _
    · exact .refused _
  | ks j =>
    have hks : s'.ks = s.ks := by rw [h.1]
    rw [hostRead, hostRead, hks]
    split
    · exact deliver_sameOutcome h _
    · exact .refused _
  | _ =>
    obtain ⟨q, rfl, hq⟩ := h.exists_lanes
    exact .next ⟨rfl, hq⟩

/-- The reset input looks at no lane. -/
theorem applyReset_eq_of_agree : applyReset s' = applyReset s := by
  rw [h.1]
  rfl

end

/-- A step that reads no lane never written ends alike in both cores. -/
theorem step_sameOutcome {s s' : State} (h : AgreeWhereWritten s s') (hread : Safety.meaningful s = true) :
    SameOutcome (step s) (step s') := by
  have hbusy' : s'.busy = s.busy := by rw [h.1]
  have hmoves' : s'.moves = s.moves := by rw [h.1]
  cases hmoves : s.moves with
  | nil =>
    rw [step_idle s hmoves, step_idle s' (hmoves'.trans hmoves)]
    exact .next h
  | cons m rest =>
    have hrest : AgreeWhereWritten { s with moves := rest } { s' with moves := rest } :=
      h.update (fun u => { u with moves := rest }) (fun _ _ => rfl) fun _ => rfl
    rw [hmoves] at hmoves'
    rw [Safety.meaningful, hmoves] at hread
    cases m with
    | cmd w =>
      rw [step_move s _ rest hmoves, step_move s' _ rest hmoves']
      refine hostCmd_sameOutcome hrest fun (hidle : s.busy = false) i hd => ?_
      show Safety.readsWrittenLanes i s = true
      simpa [hidle, hd] using hread
    | write loc v =>
      cases hbusy : s.busy with
      | true =>
        rw [step_write_of_busy hmoves hbusy, step_write_of_busy hmoves' (hbusy'.trans hbusy)]
        exact .refused _
      | false =>
        rw [step_write hmoves hbusy, step_write hmoves' (hbusy'.trans hbusy)]
        exact hostWrite_sameOutcome hrest loc v
    | read loc =>
      by_cases hallowed : s.busy = false ∨ loc = .st
      · rw [step_read hmoves hallowed, step_read hmoves' (hbusy' ▸ hallowed)]
        refine hostRead_sameOutcome hrest loc ?_
        rintro k i rfl hi
        simpa [hi] using hread
      · obtain ⟨hbusy, hloc⟩ := not_or.mp hallowed
        rw [Bool.not_eq_false] at hbusy
        rw [step_read_of_busy hmoves hbusy hloc, step_read_of_busy hmoves' (hbusy'.trans hbusy) hloc]
        exact .refused _
    | reset =>
      rw [step_move s _ rest hmoves, step_move s' _ rest hmoves', makeMove, makeMove, applyReset_eq_of_agree hrest]
      exact .next ⟨rfl, fun _ _ _ _ => rfl⟩

/-- Settles O60: by the move the step makes. A command reads whole registers, which the two cores hold alike where they have been
written, and `VERIFY` reads only registers that its own lines have written. -/
theorem neverWrittenLanesHaveNoInfluence : Obligations.NeverWrittenLanesHaveNoInfluence := fun _ _ h hread =>
  (step_sameOutcome h hread).carries_over

end Sys2Proof.Machine
